-- ==== Sys2Proof/Word.lean ====
section
/-! DEFINITION. The machine's word types (00_scope.md R11): 32-bit host registers, addresses and counts,
16-bit coordinates on the bus and colours, 8-bit bus bytes. -/

namespace Sys2Proof

/-- A 32-bit host register, host byte address, count register or millisecond clock value (R11). -/
abbrev Word := BitVec 32

/-- A 16-bit colour, effective dimension or window register (R11). -/
abbrev Half := BitVec 16

/-- One byte of host memory, of the scratch buffer or of the bus (R64). -/
abbrev Byte := BitVec 8

end Sys2Proof
end

