-- ==== Sys2Proof/Syntax.lean ====
section
/-! DEFINITION. The instructions: one constructor per row of spec/opcode_table.json, eleven host requests
(30_encoding.md R81) and nine controller commands (R89). Operands stand as R83 to R86 decode them: coordinates and
extents are signed integers, counts are numbers, addresses, colours and bytes are bits. -/

namespace Sys2Proof

/-- An instruction of WTB. The first eleven are host requests (R3, R81); the `ctl` ones are the controller commands
that WTB sends on the bus, each with its own payload (R89, R90). -/
inductive Instr where
  /-- SETROT r (R118). -/
  | setrot (rot : BitVec 2)
  /-- ARMWIN x0, y0, x1, y1 (R123). -/
  | armwin (x0 y0 x1 y1 : Int)
  /-- WRSYNC addr, nbytes (R158). -/
  | wrsync (addr : Word) (count : Nat)
  /-- WRASYNC addr, npix (R159). -/
  | wrasync (addr : Word) (count : Nat)
  /-- FILL npix, color (R160). -/
  | fill (count : Nat) (color : Half)
  /-- PIXEL x, y, color (R172). -/
  | pixel (x y : Int) (color : Half)
  /-- FILLRECT x, y, w, h, color (R174). -/
  | fillrect (x y w h : Int) (color : Half)
  /-- BLIT x, y, w, h, addr (R177). -/
  | blit (x y w h : Int) (addr : Word)
  /-- SENDCMD cb, addr, nbytes (R183). -/
  | sendcmd (cb : Byte) (addr : Word) (count : Nat)
  /-- BACKLIGHT lvl (R186). -/
  | backlight (lvl : Bool)
  /-- PANELRST lvl (R187). -/
  | panelrst (lvl : Bool)
  /-- 0x01, software reset, no payload (R189). -/
  | ctlSwreset
  /-- 0x11, sleep out, no payload (R190). -/
  | ctlSlpout
  /-- 0x3A, pixel format, one payload byte (R191). -/
  | ctlPixfmt (fmt : Byte)
  /-- 0x36, orientation, one payload byte (R192). -/
  | ctlOrient (code : Byte)
  /-- 0x2A, column address set, four payload bytes (R193). -/
  | ctlCaset (x0 x1 : Half)
  /-- 0x2B, row address set, four payload bytes (R194). -/
  | ctlRaset (y0 y1 : Half)
  /-- 0x2C, memory write, no payload of its own (R195). -/
  | ctlRamwr
  /-- 0x21, display inversion on, no payload (R196). -/
  | ctlInvon
  /-- 0x29, display on, no payload (R197). -/
  | ctlDispon
  deriving DecidableEq, Repr

end Sys2Proof
end

