-- ==== Sys2Proof/WellFormed.lean ====
section
/-! DEFINITION. Which instructions an assembler admits (30_encoding.md R93): every operand fits its field. What the
type of an operand already bounds (a rotation, a level, a command byte, a colour, an address) needs no check. -/

namespace Sys2Proof

/-- A coordinate or an extent fits its signed 16-bit field (R83, R84, R93). -/
def fitsCoord (v : Int) : Bool := decide (-32768 ≤ v) && decide (v ≤ 32767)

/-- A count fits its unsigned 32-bit field (R86, R93). -/
def fitsCount (n : Nat) : Bool := decide (n < 2 ^ 32)

/-- A byte is one of the four orientation codes, the only payloads of 0x36 (R89, R192). -/
def isOrientationCode (b : Byte) : Bool := b == 0x00 || b == 0x60 || b == 0xC0 || b == 0xA0

/-- Every operand fits its field (R93); 0x36 carries an orientation code (R192). -/
def Instr.wellFormed : Instr → Bool
  | .setrot _ => true
  | .armwin x0 y0 x1 y1 => fitsCoord x0 && fitsCoord y0 && fitsCoord x1 && fitsCoord y1
  | .wrsync _ n => fitsCount n
  | .wrasync _ n => fitsCount n
  | .fill n _ => fitsCount n
  | .pixel x y _ => fitsCoord x && fitsCoord y
  | .fillrect x y w h _ => fitsCoord x && fitsCoord y && fitsCoord w && fitsCoord h
  | .blit x y w h _ => fitsCoord x && fitsCoord y && fitsCoord w && fitsCoord h
  | .sendcmd _ _ n => fitsCount n
  | .backlight _ => true
  | .panelrst _ => true
  | .ctlSwreset => true
  | .ctlSlpout => true
  | .ctlPixfmt _ => true
  | .ctlOrient code => isOrientationCode code
  | .ctlCaset _ _ => true
  | .ctlRaset _ _ => true
  | .ctlRamwr => true
  | .ctlInvon => true
  | .ctlDispon => true

end Sys2Proof
end

