-- ==== Sys2Proof/Decode.lean ====
section
/-! DEFINITION. The two encodings of 30_encoding.md: host requests (a CMD header and up to three argument words, R78 to
R88) and controller commands (a command byte and its payload, R89, R90). Decoding is total and rejects by name (R99);
the encoder is written from the same tables. -/

namespace Sys2Proof

/-- The words of an instruction: a request is the CMD header with ARG0 to ARG2 (R78); a controller command is its byte
in bits 7:0 and payload byte j in bits 8j+15 : 8j+8, unused payload bytes 0. -/
inductive Encoded where
  | request (cmd arg0 arg1 arg2 : Word)
  | controller (word : BitVec 40)
  deriving DecidableEq, Repr

/-- Why words are no instruction. -/
inductive DecodeError where
  /-- OP 0x00 or 0x0C to 0xFF (R88, cause 1). -/
  | reservedOp (op : Byte)
  /-- A header bit outside OP and the operation's fields is 1 (R80; R88, cause 2). -/
  | reservedBits
  /-- A byte outside the table of R89. -/
  | unlistedByte (b : Byte)
  /-- The payload of 0x36 is none of the four orientation codes (R89). -/
  | orientationCode (b : Byte)
  /-- A payload byte that the command does not have is not 0. -/
  | payloadBits
  deriving DecidableEq, Repr

/-! ### Header and argument fields -/

/-- OP, header bits 7:0 (R79). -/
def headerOp (cmd : Word) : Byte := cmd.extractLsb' 0 8

/-- ROT, header bits 9:8 (R79). -/
def headerRot (cmd : Word) : BitVec 2 := cmd.extractLsb' 8 2

/-- LVL, header bit 10 (R79). -/
def headerLvl (cmd : Word) : Bool := cmd.getLsbD 10

/-- CB, header bits 23:16 (R79). -/
def headerCb (cmd : Word) : Byte := cmd.extractLsb' 16 8

/-- X or W: bits 15:0 as a signed integer (R83, R84). -/
def argLow (a : Word) : Int := (a.extractLsb' 0 16).toInt

/-- Y or H: bits 31:16 as a signed integer (R83, R84). -/
def argHigh (a : Word) : Int := (a.extractLsb' 16 16).toInt

/-- COLOR: bits 15:0, the upper half ignored (R85). -/
def argColor (a : Word) : Half := a.extractLsb' 0 16

/-- COUNT: all 32 bits, unsigned (R86). -/
def argCount (a : Word) : Nat := a.toNat

/-- The instruction `i` if every header bit outside OP and the bits of `fields` is 0 (R80). -/
def checkHeader (cmd fields : Word) (i : Instr) : Except DecodeError Instr :=
  if cmd &&& ~~~(fields ||| 0xFF) = 0 then .ok i else .error .reservedBits

/-- Decode a request (R81, R83 to R88). -/
def decodeRequest (cmd arg0 arg1 arg2 : Word) : Except DecodeError Instr :=
  match (headerOp cmd).toNat with
  | 0x01 => checkHeader cmd 0x300 (.setrot (headerRot cmd))
  | 0x02 => checkHeader cmd 0 (.armwin (argLow arg0) (argHigh arg0) (argLow arg1) (argHigh arg1))
  | 0x03 => checkHeader cmd 0 (.wrsync arg0 (argCount arg1))
  | 0x04 => checkHeader cmd 0 (.wrasync arg0 (argCount arg1))
  | 0x05 => checkHeader cmd 0 (.fill (argCount arg0) (argColor arg1))
  | 0x06 => checkHeader cmd 0 (.pixel (argLow arg0) (argHigh arg0) (argColor arg1))
  | 0x07 => checkHeader cmd 0
      (.fillrect (argLow arg0) (argHigh arg0) (argLow arg1) (argHigh arg1) (argColor arg2))
  | 0x08 => checkHeader cmd 0 (.blit (argLow arg0) (argHigh arg0) (argLow arg1) (argHigh arg1) arg2)
  | 0x09 => checkHeader cmd 0xFF0000 (.sendcmd (headerCb cmd) arg0 (argCount arg1))
  | 0x0A => checkHeader cmd 0x400 (.backlight (headerLvl cmd))
  | 0x0B => checkHeader cmd 0x400 (.panelrst (headerLvl cmd))
  | _ => .error (.reservedOp (headerOp cmd))

/-! ### Controller commands -/

/-- Byte `j` of a controller word: byte 0 is the command, byte j+1 is payload byte j. -/
def ctlByte (w : BitVec 40) (j : Nat) : Byte := w.extractLsb' (8 * j) 8

/-- A 16-bit payload value, high byte first, from bytes j and j+1 (R90). -/
def ctlHalf (w : BitVec 40) (j : Nat) : Half := ctlByte w j ++ ctlByte w (j + 1)

/-- The instruction `i` if every byte above the first `len` is 0. -/
def checkPayload (w : BitVec 40) (len : Nat) (i : Instr) : Except DecodeError Instr :=
  if w >>> (8 * len) = 0 then .ok i else .error .payloadBits

/-- Decode a controller command (R89, R90, R189 to R197). -/
def decodeController (w : BitVec 40) : Except DecodeError Instr :=
  match (ctlByte w 0).toNat with
  | 0x01 => checkPayload w 1 .ctlSwreset
  | 0x11 => checkPayload w 1 .ctlSlpout
  | 0x3A => checkPayload w 2 (.ctlPixfmt (ctlByte w 1))
  | 0x36 =>
    if isOrientationCode (ctlByte w 1) then checkPayload w 2 (.ctlOrient (ctlByte w 1))
    else .error (.orientationCode (ctlByte w 1))
  | 0x2A => checkPayload w 5 (.ctlCaset (ctlHalf w 1) (ctlHalf w 3))
  | 0x2B => checkPayload w 5 (.ctlRaset (ctlHalf w 1) (ctlHalf w 3))
  | 0x2C => checkPayload w 1 .ctlRamwr
  | 0x21 => checkPayload w 1 .ctlInvon
  | 0x29 => checkPayload w 1 .ctlDispon
  | _ => .error (.unlistedByte (ctlByte w 0))

/-- Decode the words of an instruction. -/
def decode : Encoded → Except DecodeError Instr
  | .request cmd arg0 arg1 arg2 => decodeRequest cmd arg0 arg1 arg2
  | .controller w => decodeController w

/-! ### The encoder -/

/-- A header: OP in bits 7:0 and the field bits given (R79). -/
def header (op : Byte) (fields : Word) : Word := op.setWidth 32 ||| fields

/-- The ROT field (R79). -/
def rotField (r : BitVec 2) : Word := r.setWidth 32 <<< 8

/-- The LVL field (R79). -/
def lvlField (l : Bool) : Word := if l then 0x400 else 0

/-- The CB field (R79). -/
def cbField (cb : Byte) : Word := cb.setWidth 32 <<< 16

/-- Two 16-bit two's-complement values in one word, `hi` in bits 31:16 (R94). -/
def packPair (lo hi : Int) : Word := BitVec.ofInt 16 hi ++ BitVec.ofInt 16 lo

/-- A colour argument, upper half 0. -/
def colorArg (c : Half) : Word := c.setWidth 32

/-- A count argument. -/
def countArg (n : Nat) : Word := BitVec.ofNat 32 n

/-- A controller word of a command byte and up to four payload bytes. -/
def ctlWord (cmd p0 p1 p2 p3 : Byte) : BitVec 40 := p3 ++ p2 ++ p1 ++ p0 ++ cmd

/-- Bits 15:8 of a 16-bit value. -/
def hiByte (v : Half) : Byte := v.extractLsb' 8 8

/-- Bits 7:0 of a 16-bit value. -/
def loByte (v : Half) : Byte := v.extractLsb' 0 8

/-- The words of an instruction (R94 for a request, R90 for a controller command); an argument word the operation
ignores is 0. -/
def encode : Instr → Encoded
  | .setrot r => .request (header 0x01 (rotField r)) 0 0 0
  | .armwin x0 y0 x1 y1 => .request (header 0x02 0) (packPair x0 y0) (packPair x1 y1) 0
  | .wrsync a n => .request (header 0x03 0) a (countArg n) 0
  | .wrasync a n => .request (header 0x04 0) a (countArg n) 0
  | .fill n c => .request (header 0x05 0) (countArg n) (colorArg c) 0
  | .pixel x y c => .request (header 0x06 0) (packPair x y) (colorArg c) 0
  | .fillrect x y w h c => .request (header 0x07 0) (packPair x y) (packPair w h) (colorArg c)
  | .blit x y w h a => .request (header 0x08 0) (packPair x y) (packPair w h) a
  | .sendcmd cb a n => .request (header 0x09 (cbField cb)) a (countArg n) 0
  | .backlight l => .request (header 0x0A (lvlField l)) 0 0 0
  | .panelrst l => .request (header 0x0B (lvlField l)) 0 0 0
  | .ctlSwreset => .controller (ctlWord 0x01 0 0 0 0)
  | .ctlSlpout => .controller (ctlWord 0x11 0 0 0 0)
  | .ctlPixfmt f => .controller (ctlWord 0x3A f 0 0 0)
  | .ctlOrient c => .controller (ctlWord 0x36 c 0 0 0)
  | .ctlCaset x0 x1 => .controller (ctlWord 0x2A (hiByte x0) (loByte x0) (hiByte x1) (loByte x1))
  | .ctlRaset y0 y1 => .controller (ctlWord 0x2B (hiByte y0) (loByte y0) (hiByte y1) (loByte y1))
  | .ctlRamwr => .controller (ctlWord 0x2C 0 0 0 0)
  | .ctlInvon => .controller (ctlWord 0x21 0 0 0 0)
  | .ctlDispon => .controller (ctlWord 0x29 0 0 0 0)

/-- The words that an instruction of `nbits` bits `w`, numbered as spec/opcode_table.json numbers them, lays out: a row
of 32 bits is a CMD header (an ARG word follows in each further 32 bits), a shorter row is a controller byte. -/
def tableWords (nbits w : Nat) : Encoded :=
  if nbits < 32 then .controller (BitVec.ofNat 40 w)
  else .request (BitVec.ofNat 32 w) (BitVec.ofNat 32 (w / 2 ^ 32)) (BitVec.ofNat 32 (w / 2 ^ 64))
    (BitVec.ofNat 32 (w / 2 ^ 96))

/-- The instruction that the decoder reads from the bits `w` of a table row of `nbits` bits. -/
def decodeTableWord (nbits w : Nat) : Option Instr :=
  match decode (tableWords nbits w) with
  | .ok i => some i
  | .error _ => none

end Sys2Proof
end

