-- ==== Sys2Proof/Machine/Bus.lean ====
section
/-! DEFINITION. Bus events and the byte order of what WTB sends (20_memory.md R63 to R67, 42_transfer.md R132). -/

namespace Sys2Proof.Machine

/-- The data/command line during a byte: dc = 0 is command, dc = 1 is data (R64). -/
inductive Dc where
  | command | data
  deriving DecidableEq, Repr

/-- The two output pins (R64). -/
inductive Pin where
  | reset | backlight
  deriving DecidableEq, Repr

/-- A bus event (R64): Begin, Byte(dc, v), End, Pin(name, level). -/
inductive BusEvent where
  | beginTx
  | byte (dc : Dc) (v : Byte)
  | endTx
  | pin (name : Pin) (level : Bool)
  deriving DecidableEq, Repr

/-- The command transaction of one byte (R65). -/
def cmdEvents (b : Byte) : List BusEvent := [.beginTx, .byte .command b, .endTx]

/-- The data burst of a byte list; an empty list sends nothing (R66). -/
def dataEvents : List Byte → List BusEvent
  | [] => []
  | b :: bs => .beginTx :: ((b :: bs).map (BusEvent.byte .data) ++ [.endTx])

/-- A 16-bit value on the bus, high byte first: a pixel (R132) or a window coordinate (R63). -/
def ser (p : Half) : List Byte := [hiByte p, loByte p]

/-- The bus bytes of a pixel list, in order (R133). -/
def serAll (ps : List Half) : List Byte := ps.flatMap ser

end Sys2Proof.Machine
end

