-- ==== Sys2Proof/Config.lean ====
section
/-! DEFINITION. What is fixed for a reset-to-reset lifetime (00_scope.md R6 to R10, 20_memory.md R62), what reset
draws, and the free values: constants with no body, so that no proof can see what they are. -/

namespace Sys2Proof

/-- The implementation parameters (R6 to R9, R62). `nativeW`, `nativeH` and `initRot` are unbounded numbers, so
that a configuration outside the legal range can be written down and refused (R227). -/
structure Config where
  /-- NATIVE_W (R6). -/
  nativeW : Nat
  /-- NATIVE_H (R6). -/
  nativeH : Nat
  /-- INIT_ROT (R7). -/
  initRot : Nat
  /-- ASYNC_EN (R8). -/
  asyncEn : Bool
  /-- SCRATCH_CAP in bytes (R9). -/
  scratchCap : Word
  /-- WTB_BASE divided by 64: the base is a multiple of 64 (R62). -/
  wtbBlock : BitVec 26
  deriving DecidableEq, Repr

/-- What reset draws (R10, R34): free inputs of reset under no law. -/
structure ResetDraws where
  /-- RESOURCES_OK (R10). -/
  resourcesOk : Bool
  /-- The value of the millisecond clock at reset (R34). -/
  now : Word
  deriving DecidableEq, Repr

/-- The agents that step (R16). The transport is a sink with no step of its own. -/
inductive Agent where
  | host | sequencer | dma | clock
  deriving DecidableEq, Repr, Inhabited

/-- The configuration `State.reset` takes: the one of test vector V-HP-1, with the port block at 0x80000000 (DESIGN
CHOICE, log 1; unsafe for a claim about `State.reset` alone, since the spec leaves every parameter open). -/
def Config.platform : Config where
  nativeW := 240
  nativeH := 320
  initRot := 0
  asyncEn := true
  scratchCap := 64
  wtbBlock := 0x2000000

/-- The draws `State.reset` takes: V-HP-1's RESOURCES_OK, and a clock that starts at 0 (DESIGN CHOICE, log 2; unsafe
for a claim about `State.reset` alone). -/
def Config.platformDraws : ResetDraws where
  resourcesOk := true
  now := 0

/-- Free value: who moves next once the plain-data schedule is used up (R209), one choice per step. -/
opaque Config.freeAgent : (tick : Nat) → Agent

/-- Free value: DMA_FATE of a chunk of `len` bytes (R150): `none` is DELIVER, `some k` is STALL(k), 0 ≤ k ≤ len. -/
opaque Config.dmaFate : (tick len : Nat) → Option (Fin (len + 1))

/-- Free value: STATUS.ROT as a host read sees it while BUSY = 1 (R40, R101). -/
opaque Config.busyRot : (tick : Nat) → BitVec 2

/-- Free value: STATUS.WIN_ARMED as a host read sees it while BUSY = 1 (R40, R101). -/
opaque Config.busyWinArmed : (tick : Nat) → Bool

/-- Free value: EFF_DIM as a host read sees it while BUSY = 1 (R41, R101). -/
opaque Config.busyEffDim : (tick : Nat) → Word

/-- Free value: WIN_LO as a host read sees it while BUSY = 1 (R46, R101). -/
opaque Config.busyWinLo : (tick : Nat) → Word

/-- Free value: WIN_HI as a host read sees it while BUSY = 1 (R47, R101). -/
opaque Config.busyWinHi : (tick : Nat) → Word

/-- Free value: a source byte read after the host wrote the request's source (R59); one value per address within a
step, since a byte read twice in one step returns one value (R68). -/
opaque Config.racedByte : (tick addr : Nat) → Byte

/-- Free value: a byte of SCRATCH that no STAGE step has written since reset (R58, R32). -/
opaque Config.scratchAtReset : (index : Nat) → Byte

end Sys2Proof
end

