-- ==== Sys2Proof/Machine/Geometry.lean ====
section
/-! DEFINITION. Coordinate mapping on plain numbers: orientation codes and effective dimensions (41_addressing.md R116,
R117), clamping (R120), clipping (43_compound.md R170), and which configurations are legal (70_reset_and_hazards.md
R227). -/

namespace Sys2Proof.Machine

/-- The orientation code MADCTL[r] (R116, R13). -/
def madctl (r : BitVec 2) : Byte :=
  match r.toNat with
  | 0 => 0x00
  | 1 => 0x60
  | 2 => 0xC0
  | _ => 0xA0

/-- EffDims(r): the native dimensions as (width, height), exchanged for an odd rotation (R117). It reads only the
parameters and r (R127). -/
def effDims (c : Config) (r : BitVec 2) : Half × Half :=
  if r.toNat % 2 = 0 then (BitVec.ofNat 16 c.nativeW, BitVec.ofNat 16 c.nativeH)
  else (BitVec.ofNat 16 c.nativeH, BitVec.ofNat 16 c.nativeW)

/-- A configuration some reset state exists for (R227, R6, R7). -/
def configLegal (c : Config) : Bool :=
  decide (1 ≤ c.nativeW) && decide (c.nativeW ≤ 32767) && decide (1 ≤ c.nativeH) && decide (c.nativeH ≤ 32767)
    && decide (c.initRot ≤ 3)

/-- WTB_BASE (20_memory.md R62). -/
def portBase (c : Config) : Word := c.wtbBlock ++ (0 : BitVec 6)

/-- The address lies in WTB's own 64-byte block (20_memory.md R62). -/
def inBlock (c : Config) (addr : Word) : Bool := decide ((addr - portBase c).toNat < 64)

/-- CHUNK_MAX = SCRATCH_CAP div 2 (42_transfer.md R138). -/
def chunkMaxOf (c : Config) : Word := BitVec.ofNat 32 (c.scratchCap.toNat / 2)

/-- clamp(v, lo, hi) = min(max(v, lo), hi) (R14). -/
def clamp (v lo hi : Int) : Int := min (max v lo) hi

/-- A coordinate clamped to an effective dimension: clamp(v, 0, dim - 1) (R120). -/
def clampTo (dim : Half) (v : Int) : Int := clamp v 0 ((dim.toNat : Int) - 1)

/-- What CLIP returns: the clipped window, the offset into the source, and the clipped extent (R170). -/
structure Clip where
  cx0 : Int
  cy0 : Int
  cx1 : Int
  cy1 : Int
  sx : Nat
  sy : Nat
  cw : Nat
  ch : Nat
  deriving DecidableEq, Repr

/-- CLIP(x, y, w, h) against the effective panel, `none` for EMPTY (R170). -/
def clip (effW effH : Half) (x y w h : Int) : Option Clip :=
  let cx0 := max x 0
  let cy0 := max y 0
  let cx1 := min (x + w - 1) ((effW.toNat : Int) - 1)
  let cy1 := min (y + h - 1) ((effH.toNat : Int) - 1)
  if w ≤ 0 ∨ h ≤ 0 then none
  else if cx0 > cx1 ∨ cy0 > cy1 then none
  else some { cx0, cy0, cx1, cy1, sx := (cx0 - x).toNat, sy := (cy0 - y).toNat,
              cw := (cx1 - cx0 + 1).toNat, ch := (cy1 - cy0 + 1).toNat }

/-- (x, y) lies in the effective panel (43_compound.md R172). -/
def inPanel (effW effH : Half) (x y : Int) : Bool :=
  decide (0 ≤ x) && decide (x ≤ (effW.toNat : Int) - 1) && decide (0 ≤ y) && decide (y ≤ (effH.toNat : Int) - 1)

end Sys2Proof.Machine
end

