-- ==== Sys2Proof/Machine/Memory.lean ====
section
/-! DEFINITION. A byte memory as plain data (20_memory.md R55, R56, R58): the (address, byte) pairs that have been
written, addresses strictly rising. An unlisted address holds no byte here; what a reader makes of that is the reader's
rule (host memory: not admitted, R57; SCRATCH: a free byte, R58). -/

namespace Sys2Proof.Machine

/-- The written bytes, by rising address. -/
abbrev Memory := List Host.Cell

/-- The canonical form: addresses strictly rising. No listed entry can equal what an unlisted address reads as, which
is no byte. -/
abbrev Memory.wf (m : Memory) : Prop := m.Pairwise (fun p q => p.1 < q.1)

/-- Every listed address is below `bound`. -/
abbrev Memory.within (m : Memory) (bound : Nat) : Prop := ∀ p ∈ m, p.1 < bound

/-- The byte at an address, if one is listed. -/
def Memory.read : Memory → Nat → Option Byte
  | [], _ => none
  | (b, v) :: m, a => if a = b then some v else Memory.read m a

/-- Write one byte, keeping the addresses rising. -/
def Memory.write : Memory → Nat → Byte → Memory
  | [], a, v => [(a, v)]
  | (b, w) :: m, a, v =>
    if a < b then (a, v) :: (b, w) :: m
    else if a = b then (a, v) :: m
    else (b, w) :: Memory.write m a v

/-- Write a list of bytes at consecutive addresses from `a`. -/
def Memory.writeBytes : Memory → Nat → List Byte → Memory
  | m, _, [] => m
  | m, a, v :: vs => Memory.writeBytes (Memory.write m a v) (a + 1) vs

end Sys2Proof.Machine
end

