-- ==== Sys2Proof/Machine/State.lean ====
section
/-! DEFINITION. The state of WTB as plain data (10_state.md), its host, its inputs and its bus trace, the reasons a step
can stop, and the state after reset (70_reset_and_hazards.md R224). -/

namespace Sys2Proof.Machine

/-- The TransferJob states (R26). -/
inductive Job where
  | idle | staging | active | complete | timedOut
  deriving DecidableEq, Repr

/-- The response codes (60_exceptions.md R198); code 3 is never posted. -/
inductive RespCode where
  | ok | timeout | rejected
  deriving DecidableEq, Repr

/-- The sequencer states (R38). -/
inductive Seq where
  | idle | exec | stage | start | wait
  deriving DecidableEq, Repr

/-- A pixel source P (42_transfer.md R134): BUF(a), COLOR(c), BLITSRC(a, w, sx, sy, cw). -/
inductive PixelSource where
  | buf (a : Word)
  | color (c : Half)
  | blit (a : Word) (w sx sy cw : Nat)
  deriving DecidableEq, Repr

/-- DMA_FATE (42_transfer.md R150): DELIVER, or STALL after `sent` bytes. -/
inductive DmaFate where
  | deliver
  | stall (sent : Nat)
  deriving DecidableEq, Repr

/-- An operation of the Host agent: a load or a store of one word of the register port at an absolute byte address and
an access width in bits (40_host_port.md R100, 20_memory.md R61), POLL (30_encoding.md R95), and a store of one byte to
host memory (20_memory.md R59). -/
inductive HostOp where
  | read (addr : Word) (bits : Nat)
  | write (addr : Word) (bits : Nat) (v : Word)
  | poll (addr : Word) (mask v : Word)
  | store (addr : Word) (b : Byte)
  deriving DecidableEq, Repr

/-- Everything the spec gives the machine, its inputs, and the model's own fields (INVENTORY.md, "## State"). -/
@[ext]
structure State where
  /-- The parameters (R6 to R9, R62). -/
  cfg : Config
  /-- ROT (R22). -/
  rot : BitVec 2
  /-- EFF_W (R23). -/
  effW : Half
  /-- EFF_H (R23). -/
  effH : Half
  /-- WIN_X0 (R24). -/
  winX0 : Half
  /-- WIN_Y0 (R24). -/
  winY0 : Half
  /-- WIN_X1 (R24). -/
  winX1 : Half
  /-- WIN_Y1 (R24). -/
  winY1 : Half
  /-- WIN_ARMED (R25). -/
  winArmed : Bool
  /-- JOB (R26). -/
  job : Job
  /-- ASYNC_AVAIL (R27). -/
  asyncAvail : Bool
  /-- TIMEOUT_MS (R28). -/
  timeoutMs : Word
  /-- TOTAL_PX (R29). -/
  totalPx : Word
  /-- DONE_PX (R29). -/
  donePx : Word
  /-- CUR_PX (R29). -/
  curPx : Word
  /-- CHUNK_MAX (R29). -/
  chunkMax : Word
  /-- SRC (R29). -/
  src : PixelSource
  /-- PREFILLED (R29). -/
  prefilled : Bool
  /-- T_START (R29). -/
  tStart : Word
  /-- TMO (R29). -/
  tmo : Word
  /-- COMPLETION_PENDING (R30). -/
  completionPending : Bool
  /-- DMA_ACTIVE (R31). -/
  dmaActive : Bool
  /-- DMA_LEN (R31). -/
  dmaLen : Word
  /-- DMA_SENT (R31). -/
  dmaSent : Word
  /-- DMA_FATE (R150), from which DMA_DELIVER is read (R31). -/
  dmaFate : DmaFate
  /-- SCRATCH: the bytes that STAGE steps have written (R32, R58). -/
  scratch : Memory
  /-- RESP_VALID (R33). -/
  respValid : Bool
  /-- RESP_CODE (R33). -/
  respCode : RespCode
  /-- DROP (R33). -/
  drop : Bool
  /-- The BACKLIGHT output level (R35). -/
  backlight : Bool
  /-- The RESET_LINE output level (R35). -/
  resetLine : Bool
  /-- OPL_CMD (R36). -/
  oplCmd : Word
  /-- OPL_ARG0 (R36). -/
  oplArg0 : Word
  /-- OPL_ARG1 (R36). -/
  oplArg1 : Word
  /-- OPL_ARG2 (R36). -/
  oplArg2 : Word
  /-- SEQ (R38). -/
  seq : Seq
  /-- ARG0 (R48). -/
  arg0 : Word
  /-- ARG1 (R48). -/
  arg1 : Word
  /-- ARG2 (R48). -/
  arg2 : Word
  /-- The bus trace, in emission order (R64). -/
  trace : List BusEvent
  /-- NOW, the millisecond clock input (R34). -/
  now : Word
  /-- Host memory: the admitted addresses and their bytes (R56, R57). -/
  mem : Memory
  /-- The model's own: the host has written a byte that the current request reads (R59; log 9). -/
  raced : Bool
  /-- The model's own: who moves next, for as long as the list lasts (R209; log 5). -/
  schedule : List Agent
  /-- The model's own: the Host agent's pending operations (R100; log 6). -/
  hostOps : List HostOp
  /-- The model's own: the value the host's last load returned (R101; log 13). -/
  hostData : Word
  /-- The model's own: a controller command handed to the bus and not yet sent, the place where the step fetches a
  controller-byte row of the table; no operation leaves one here (log 14). -/
  ctlSlot : Option (BitVec 40)
  /-- The model's own: the number of steps so far, which keys the free values (log 26). -/
  tick : Nat
  deriving DecidableEq, Repr

/-- Why a step stops with a fault: never. WTB raises no fault (20_memory.md R57, 60_exceptions.md R199), and the
treatment `fault` is not used by it (93_implementation_defined.md); a Sequencer stuck on a read has no step (log 8). -/
inductive Fault
  deriving DecidableEq, Repr

/-- Why the model gives a step no meaning. -/
inductive Refusal where
  /-- Raised by an arm of `exec` whose instruction has no meaning yet. Safe. -/
  | notModelled (mnemonic : String)
  /-- Raised by a Host step whose port access is not 32 bits wide at a word-aligned offset of the port block, a byte
  store into the block among them (20_memory.md R61, item I10: "a model refuses it"). Safe. -/
  | portAccess
  /-- Raised by `boot` for a configuration outside its legal range (60_exceptions.md R202, item I11). Safe. -/
  | illegalConfiguration
  /-- Raised by the Sequencer's turn when `ctlSlot` holds words that are no controller command of the table (R89). No
  operation of WTB puts a word there. Safe. -/
  | noControllerCommand
  deriving DecidableEq, Repr

/-- The state after reset with a given configuration and given reset draws (R224, R226). The registers R224 calls
unspecified hold 0 (DESIGN CHOICE, log 3; unsafe), SCRATCH has no written byte, so each reads as a free value. -/
def State.resetWith (c : Config) (d : ResetDraws) : State where
  cfg := c
  rot := BitVec.ofNat 2 c.initRot
  effW := (effDims c (BitVec.ofNat 2 c.initRot)).1
  effH := (effDims c (BitVec.ofNat 2 c.initRot)).2
  winX0 := 0
  winY0 := 0
  winX1 := 0
  winY1 := 0
  winArmed := false
  job := .idle
  asyncAvail := c.asyncEn && d.resourcesOk && decide (1 ≤ c.scratchCap.toNat / 2)
  timeoutMs := 1000
  totalPx := 0
  donePx := 0
  curPx := 0
  chunkMax := chunkMaxOf c
  src := .color 0
  prefilled := false
  tStart := 0
  tmo := 0
  completionPending := false
  dmaActive := false
  dmaLen := 0
  dmaSent := 0
  dmaFate := .deliver
  scratch := []
  respValid := false
  respCode := .ok
  drop := false
  backlight := false
  resetLine := false
  oplCmd := 0
  oplArg0 := 0
  oplArg1 := 0
  oplArg2 := 0
  seq := .idle
  arg0 := 0
  arg1 := 0
  arg2 := 0
  trace := []
  now := d.now
  mem := []
  raced := false
  schedule := []
  hostOps := []
  hostData := 0
  ctlSlot := none
  tick := 0

/-- The machine right after reset, with the configuration and the draws that log 1 and log 2 name. -/
def State.reset : State := State.resetWith Config.platform Config.platformDraws

end Sys2Proof.Machine
end

