-- ==== Sys2Proof/Machine/Flags.lean ====
section
/-! DEFINITION. Flags and register views (10_state.md): the encodings of JOB and RESP_CODE, BUSY and READY, and the
words that a host read of each register returns (R40 to R51), with a free value for the fields that are unspecified
while BUSY = 1 (R101). -/

namespace Sys2Proof.Machine

/-- The encoding of JOB (R26). -/
def jobCode : Job → BitVec 3
  | .idle => 0
  | .staging => 1
  | .active => 2
  | .complete => 3
  | .timedOut => 4

/-- The encoding of RESP_CODE (R198). -/
def respCodeBits : RespCode → BitVec 2
  | .ok => 0
  | .timeout => 1
  | .rejected => 2

/-- BUSY = (SEQ != IDLE) (R37). -/
def busy (s : State) : Bool := s.seq != .idle

/-- READY = (not BUSY) and (not RESP_VALID) (R37). -/
def ready (s : State) : Bool := !busy s && !s.respValid

/-- Quiescence (40_host_port.md R113). -/
def quiescent (s : State) : Bool := s.seq == .idle && !s.respValid && !s.dmaActive

/-- The run of the host program is over (R113; 70_reset_and_hazards.md R245): its last request is issued and its response
consumed, so that no operation is pending, and WTB is quiescent. -/
def runOver (s : State) : Bool := s.hostOps.isEmpty && quiescent s

/-- DMA_DELIVER is DMA_FATE == DELIVER (R31, R150). -/
def dmaDeliver (s : State) : Bool := s.dmaFate == .deliver

/-- The bytes the channel will send of the chunk in flight (R151). -/
def dmaLimit (s : State) : Nat :=
  match s.dmaFate with
  | .deliver => s.dmaLen.toNat
  | .stall k => k

/-- elapsed = (NOW - T_START) mod 2^32 (R168). -/
def elapsed (s : State) : Word := s.now - s.tStart

/-- STATUS.ROT as a read sees it (R40). -/
def seenRot (s : State) : BitVec 2 := if busy s then Config.busyRot s.tick else s.rot

/-- STATUS.WIN_ARMED as a read sees it (R40). -/
def seenWinArmed (s : State) : Bool := if busy s then Config.busyWinArmed s.tick else s.winArmed

/-- STATUS: bit 0 BUSY, 1 RESP_VALID, 4:2 JOB, 6:5 ROT, 7 WIN_ARMED, 8 DROP, 9 BACKLIGHT, 10 RESET_LINE, the rest 0
(R40). -/
def statusWord (s : State) : Word :=
  (0 : BitVec 21) ++ BitVec.ofBool s.resetLine ++ BitVec.ofBool s.backlight ++ BitVec.ofBool s.drop
    ++ BitVec.ofBool (seenWinArmed s) ++ seenRot s ++ jobCode s.job ++ BitVec.ofBool s.respValid
    ++ BitVec.ofBool (busy s)

/-- EFF_DIM: bits 15:0 EFF_W, bits 31:16 EFF_H (R41). -/
def effDimWord (s : State) : Word := if busy s then Config.busyEffDim s.tick else s.effH ++ s.effW

/-- NATIVE_DIM: bits 15:0 NATIVE_W, bits 31:16 NATIVE_H (R42). -/
def nativeDimWord (s : State) : Word := BitVec.ofNat 16 s.cfg.nativeH ++ BitVec.ofNat 16 s.cfg.nativeW

/-- CAPS: bit 0 ASYNC_EN, bit 1 ASYNC_AVAIL (R44). -/
def capsWord (s : State) : Word :=
  (0 : BitVec 30) ++ BitVec.ofBool s.asyncAvail ++ BitVec.ofBool s.cfg.asyncEn

/-- WIN_LO: bits 15:0 WIN_X0, bits 31:16 WIN_Y0 (R46). -/
def winLoWord (s : State) : Word := if busy s then Config.busyWinLo s.tick else s.winY0 ++ s.winX0

/-- WIN_HI: bits 15:0 WIN_X1, bits 31:16 WIN_Y1 (R47). -/
def winHiWord (s : State) : Word := if busy s then Config.busyWinHi s.tick else s.winY1 ++ s.winX1

/-- RESP: bit 0 RESP_VALID, bits 2:1 RESP_CODE (R50). -/
def respWord (s : State) : Word :=
  (0 : BitVec 29) ++ respCodeBits s.respCode ++ BitVec.ofBool s.respValid

/-- What a read of the register at byte offset `off` returns (R39 to R51); CMD and the reserved offsets read 0. -/
def portRead (s : State) (off : Nat) : Word :=
  match off with
  | 0x00 => statusWord s
  | 0x04 => effDimWord s
  | 0x08 => nativeDimWord s
  | 0x0C => s.timeoutMs
  | 0x10 => capsWord s
  | 0x14 => s.cfg.scratchCap
  | 0x18 => winLoWord s
  | 0x1C => winHiWord s
  | 0x20 => s.arg0
  | 0x24 => s.arg1
  | 0x28 => s.arg2
  | 0x34 => respWord s
  | _ => 0

end Sys2Proof.Machine
end

