-- ==== Sys2Proof/Machine/Operands.lean ====
section
/-! DEFINITION. Operand forms at run time: host-memory reads (20_memory.md R56, R57, R59), the three pixel sources
(42_transfer.md R134), byte and pixel lists read from them, and which host bytes a request reads (R59). -/

namespace Sys2Proof.Machine

/-- MemRead(a, 1) (R56): the byte at `a` mod 2^32, `none` where it is not admitted (R57); a free value once the host
has written the request's source (R59, I8). -/
def hostByte (s : State) (a : Nat) : Option Byte :=
  (Memory.read s.mem (a % 2 ^ 32)).map fun b =>
    if s.raced then Config.racedByte s.tick (a % 2 ^ 32) else b

/-- MemRead(a, 2) (R56): little-endian, two byte reads, the second address mod 2^32. -/
def hostPixel (s : State) (a : Nat) : Option Half :=
  match hostByte s a, hostByte s (a + 1) with
  | some lo, some hi => some (hi ++ lo)
  | _, _ => none

/-- The address of pixel `i` of a BLITSRC source before the reduction mod 2^32 (R134, R179). -/
def blitAddr (a : Word) (w sx sy cw i : Nat) : Nat := a.toNat + 2 * ((sy + i / cw) * w + sx + i % cw)

/-- P(i) of a pixel source (R134); COLOR reads no memory. -/
def sourcePixel (s : State) : PixelSource → Nat → Option Half
  | .buf a, i => hostPixel s (a.toNat + 2 * i)
  | .color c, _ => some c
  | .blit a w sx sy cw, i => hostPixel s (blitAddr a w sx sy cw i)

/-- f(from), …, f(from + n - 1) in order, if every one of them is there. -/
def collect {α : Type} (f : Nat → Option α) : (start n : Nat) → Option (List α)
  | _, 0 => some []
  | start, n + 1 =>
    match f start, collect f (start + 1) n with
    | some x, some xs => some (x :: xs)
    | _, _ => none

/-- P(from), …, P(from + n - 1) (R133). -/
def sourcePixels (s : State) (p : PixelSource) (start n : Nat) : Option (List Half) :=
  collect (sourcePixel s p) start n

/-- The `n` host bytes from `a` in ascending address order, addresses mod 2^32 (R136). -/
def hostBytes (s : State) (a : Word) (n : Nat) : Option (List Byte) :=
  collect (fun j => hostByte s (a.toNat + j)) 0 n

/-- The four command bytes only the Mapper sends (30_encoding.md R92). -/
def mapperOwned (b : Byte) : Bool := b == 0x36 || b == 0x2A || b == 0x2B || b == 0x2C

/-- Byte `off` of a BLIT's source array lies in the clipped image (R177, R179). -/
def blitReads (w : Nat) (r : Clip) (off : Nat) : Bool :=
  let col := off / 2 % w
  let row := off / 2 / w
  decide (r.sx ≤ col) && decide (col < r.sx + r.cw) && decide (r.sy ≤ row) && decide (row < r.sy + r.ch)

/-- The request reads the host byte at `a` (R59), on a panel of the given effective dimensions. -/
def readsByte (effW effH : Half) (a : Word) : Instr → Bool
  | .wrsync src n => decide ((a - src).toNat < n)
  | .wrasync src n => decide ((a - src).toNat < 2 * n)
  | .blit x y w h src =>
    match clip effW effH x y w h with
    | none => false
    | some r => blitReads w.toNat r (a - src).toNat
  | .sendcmd cb src n => !mapperOwned cb && decide ((a - src).toNat < n)
  | .setrot _ => false
  | .armwin _ _ _ _ => false
  | .fill _ _ => false
  | .pixel _ _ _ => false
  | .fillrect _ _ _ _ _ => false
  | .backlight _ => false
  | .panelrst _ => false
  | .ctlSwreset => false
  | .ctlSlpout => false
  | .ctlPixfmt _ => false
  | .ctlOrient _ => false
  | .ctlCaset _ _ => false
  | .ctlRaset _ _ => false
  | .ctlRamwr => false
  | .ctlInvon => false
  | .ctlDispon => false

/-- The request in the operand latches (R36, R107). -/
def latchedRequest (s : State) : Except DecodeError Instr :=
  decodeRequest s.oplCmd s.oplArg0 s.oplArg1 s.oplArg2

/-- The latched request reads the host byte at `a` (R59). -/
def currentReads (s : State) (a : Word) : Bool :=
  match latchedRequest s with
  | .ok i => readsByte s.effW s.effH a i
  | .error _ => false

end Sys2Proof.Machine
end

