-- ==== Sys2Proof/Machine/Ops.lean ====
section
/-! DEFINITION. The named operations that instructions and agents share: emission (20_memory.md R65 to R67), the arm
procedure (41_addressing.md R121), the end of a request (40_host_port.md R110, R112; 60_exceptions.md R212, R213), the
sync and async paths (42_transfer.md R135 to R141), and the DMA channel's start and abort (R150, R153). -/

namespace Sys2Proof.Machine

/-- A meaning's outcome. -/
abbrev Result := Host.Outcome State Fault Refusal

/-- What comes of a part whose reads may be stuck: the state it reaches, or, where a read is not admitted, the state as
it was: the Sequencer has no step (20_memory.md R57; 60_exceptions.md R215; logs 7, 8). -/
def orStuck (s : State) (o : Option State) : State := o.getD s

/-! ### Emission -/

/-- Append events to the bus trace (R64). -/
def emit (evs : List BusEvent) (s : State) : State := { s with trace := s.trace ++ evs }

/-- emit_cmd(b) (R65). -/
def emitCmd (b : Byte) (s : State) : State := emit (cmdEvents b) s

/-- emit_data(list), one burst (R66). -/
def emitData (bs : List Byte) (s : State) : State := emit (dataEvents bs) s

/-- emit_pin(RESET, level): append the event and drive RESET_LINE (R67). -/
def emitResetPin (level : Bool) (s : State) : State :=
  { s with trace := s.trace ++ [.pin .reset level], resetLine := level }

/-- emit_pin(BACKLIGHT, level): append the event and drive BACKLIGHT (R67). -/
def emitBacklightPin (level : Bool) (s : State) : State :=
  { s with trace := s.trace ++ [.pin .backlight level], backlight := level }

/-- The events of a controller command: its command transaction, then its payload as data (R89). -/
def controllerEvents (cmd : Byte) (payload : List Byte) : List BusEvent := cmdEvents cmd ++ dataEvents payload

/-- Send a controller command (R89). -/
def sendController (cmd : Byte) (payload : List Byte) (s : State) : State := emit (controllerEvents cmd payload) s

/-- The payload of a range-set command: two 16-bit values, each high byte first (R90). -/
def rangePayload (lo hi : Half) : List Byte := ser lo ++ ser hi

/-! ### The arm procedure -/

/-- clampX or clampY as the 16-bit value sent (R120). -/
def clampedHalf (dim : Half) (v : Int) : Half := BitVec.ofInt 16 (clampTo dim v)

/-- The column set, the row set and the memory write of a window (R121). -/
def windowEvents (cx0 cy0 cx1 cy1 : Half) : List BusEvent :=
  controllerEvents 0x2A (rangePayload cx0 cx1) ++ controllerEvents 0x2B (rangePayload cy0 cy1) ++ cmdEvents 0x2C

/-- Send 0x2A, 0x2B, 0x2C for a window of clamped coordinates and record it (R121). -/
def openWindow (cx0 cy0 cx1 cy1 : Half) (s : State) : State :=
  { s with
    trace := s.trace ++ windowEvents cx0 cy0 cx1 cy1
    winX0 := cx0, winY0 := cy0, winX1 := cx1, winY1 := cy1, winArmed := true }

/-- ARM(x0, y0, x1, y1) (R121): clamp each coordinate independently, never reorder (R122). -/
def arm (x0 y0 x1 y1 : Int) (s : State) : State :=
  openWindow (clampedHalf s.effW x0) (clampedHalf s.effH y0) (clampedHalf s.effW x1) (clampedHalf s.effH y1) s

/-! ### The end of a request (WTB's analogue of trap entry and return) -/

/-- respond(code) (R110): JOB is not changed. -/
def respond (code : RespCode) (s : State) : State :=
  { s with respCode := code, respValid := true, seq := .idle }

/-- STREAM_END(code): WIN_ARMED <- 0 and respond(code) (R157). -/
def streamEnd (code : RespCode) (s : State) : State :=
  { s with winArmed := false, respCode := code, respValid := true, seq := .idle }

/-- JOB after consumption: Complete and TimedOut return to Idle (R112, R148). -/
def consumedJob : Job → Job
  | .complete => .idle
  | .timedOut => .idle
  | j => j

/-- consume() (R112). -/
def consume (s : State) : State := { s with respValid := false, job := consumedJob s.job }

/-- abort() (R153): close the chunk's transaction if bytes remain, stop the channel, discard a completion. -/
def abort (s : State) : State :=
  { s with
    trace := if s.dmaActive && decide (s.dmaSent < s.dmaLen) then s.trace ++ [.endTx] else s.trace
    dmaActive := false
    completionPending := false }

/-- The non-OK end of an async stream (R147, R212): abort, JOB <- TimedOut, STREAM_END(TIMEOUT). -/
def timeoutEnd (s : State) : State :=
  { abort s with job := .timedOut, winArmed := false, respCode := .timeout, respValid := true, seq := .idle }

/-! ### Streams -/

/-- SYNC_STREAM(N, P) (R135): read N pixels and send them as one burst; `none` where a read is stuck. -/
def syncStream (n : Nat) (p : PixelSource) (s : State) : Option State :=
  (sourcePixels s p 0 n).map fun ps => emitData (serAll ps) s

/-- SYNC_BYTES(a, n) (R136): read n bytes and send them as one burst; no byte for n = 0 (R66). -/
def syncBytes (a : Word) (n : Nat) (s : State) : Option State :=
  (hostBytes s a n).map fun bs => emitData bs s

/-- ASYNC_SETUP(N, P) (R141). -/
def asyncSetup (n : Nat) (p : PixelSource) (s : State) : State :=
  { s with totalPx := BitVec.ofNat 32 n, donePx := 0, src := p, prefilled := false, seq := .stage }

/-- STREAM(N, P) (R140): nothing for N = 0, the async path when it is available, else the sync path; `none` where a read
is stuck. -/
def stream (n : Nat) (p : PixelSource) (s : State) : Option State :=
  if n = 0 then some (streamEnd .ok s)
  else if s.asyncAvail then some (asyncSetup n p s)
  else (syncStream n p s).map (streamEnd .ok)

/-- The DMA_FATE that the environment draws for a chunk of `len` bytes (R150). -/
def drawFate (tick len : Nat) : DmaFate :=
  match Config.dmaFate tick len with
  | none => .deliver
  | some k => .stall k.val

/-- dma_start(L) (R150). -/
def dmaStart (len : Word) (s : State) : State :=
  { s with
    trace := s.trace ++ [.beginTx]
    dmaActive := true, dmaLen := len, dmaSent := 0, dmaFate := drawFate s.tick len.toNat }

/-! ### The start of a turn -/

/-- Who moves next: the head of the schedule, or a free choice once it is used up (R209). -/
def nextAgent (s : State) : Agent :=
  match s.schedule with
  | [] => Config.freeAgent s.tick
  | a :: _ => a

/-- The state at the start of a turn: the turn is taken off the schedule and counted. -/
def advance (s : State) : State := { s with schedule := s.schedule.tail, tick := s.tick + 1 }

/-- The state in which a fetched instruction runs: the turn has begun and the bus command slot is empty. -/
def fetched (s : State) : State :=
  { s with schedule := s.schedule.tail, tick := s.tick + 1, ctlSlot := none }

end Sys2Proof.Machine
end

