-- ==== Sys2Proof/Machine/Compound.lean ====
section
/-! DEFINITION. The compound window-and-stream requests (43_compound.md): PIXEL, FILLRECT and BLIT. -/

namespace Sys2Proof.Machine

/-- PIXEL x, y, c (R172): one window and two bytes, always by the sync path; nothing outside the panel. -/
def execPixel (x y : Int) (c : Half) (s : State) : Result :=
  if inPanel s.effW s.effH x y then
    .next (orStuck s ((syncStream 1 (.color c) (arm x y x y s)).map (streamEnd .ok)))
  else .next (streamEnd .ok s)

/-- ARM on a clipped window, then STREAM of its area (R174, R177); `none` where a read is stuck. -/
def streamClip (r : Clip) (p : PixelSource) (s : State) : Option State :=
  stream (r.cw * r.ch) p (arm r.cx0 r.cy0 r.cx1 r.cy1 s)

/-- FILLRECT x, y, w, h, c (R174). -/
def execFillrect (x y w h : Int) (c : Half) (s : State) : Result :=
  match clip s.effW s.effH x y w h with
  | none => .next (streamEnd .ok s)
  | some r => .next (orStuck s (streamClip r (.color c) s))

/-- BLIT x, y, w, h, a (R177): the clipped image, read row by row with stride w (R178, R179). -/
def execBlit (x y w h : Int) (a : Word) (s : State) : Result :=
  match clip s.effW s.effH x y w h with
  | none => .next (streamEnd .ok s)
  | some r => .next (orStuck s (streamClip r (.blit a w.toNat r.sx r.sy r.cw) s))

end Sys2Proof.Machine
end

