-- ==== Sys2Proof/Machine/Controller.lean ====
section
/-! DEFINITION. The controller commands (30_encoding.md R89, R90; 44_panel_control.md R188 to R197). The meaning of each
is what WTB does with it: it sends the command byte as a command transaction and the payload as one burst. What the
controller does with it is outside WTB (R188; DESIGN CHOICE, log 14; safe: no claim about the controller follows). -/

namespace Sys2Proof.Machine

/-- 0x01, software reset: no payload (R189). -/
def execCtlSwreset (s : State) : Result := .next (sendController 0x01 [] s)

/-- 0x11, sleep out: no payload (R190). -/
def execCtlSlpout (s : State) : Result := .next (sendController 0x11 [] s)

/-- 0x3A, pixel format: one payload byte (R191). -/
def execCtlPixfmt (fmt : Byte) (s : State) : Result := .next (sendController 0x3A [fmt] s)

/-- 0x36, orientation: the orientation code (R192). -/
def execCtlOrient (code : Byte) (s : State) : Result := .next (sendController 0x36 [code] s)

/-- 0x2A, column address set: x0 and x1, each high byte first (R193). -/
def execCtlCaset (x0 x1 : Half) (s : State) : Result := .next (sendController 0x2A (rangePayload x0 x1) s)

/-- 0x2B, row address set: y0 and y1, each high byte first (R194). -/
def execCtlRaset (y0 y1 : Half) (s : State) : Result := .next (sendController 0x2B (rangePayload y0 y1) s)

/-- 0x2C, memory write: no payload of its own, the pixel stream follows (R195). -/
def execCtlRamwr (s : State) : Result := .next (sendController 0x2C [] s)

/-- 0x21, display inversion on: no payload (R196). -/
def execCtlInvon (s : State) : Result := .next (sendController 0x21 [] s)

/-- 0x29, display on: no payload (R197). -/
def execCtlDispon (s : State) : Result := .next (sendController 0x29 [] s)

end Sys2Proof.Machine
end

