-- ==== Sys2Proof/Machine/Mapper.lean ====
section
/-! DEFINITION. The Mapper's requests (41_addressing.md): SETROT and ARMWIN. -/

namespace Sys2Proof.Machine

/-- ROT, EFF_W and EFF_H for a new rotation (R118). -/
def turnTo (r : BitVec 2) (s : State) : State :=
  { s with rot := r, effW := (effDims s.cfg r).1, effH := (effDims s.cfg r).2 }

/-- SETROT's comparison of the new effective dimensions with the old (R118). -/
def dimsChange (r : BitVec 2) (s : State) : Bool :=
  (effDims s.cfg r).1 != s.effW || (effDims s.cfg r).2 != s.effH

/-- ARM(0, 0, EFF_W - 1, EFF_H - 1) (R118, R125). -/
def armFullPanel (s : State) : State := arm 0 0 ((s.effW.toNat : Int) - 1) ((s.effH.toNat : Int) - 1) s

/-- SETROT r (R118): always 0x36 with its code; a full-panel window only if the dimensions change, else
WIN_ARMED <- 0. -/
def execSetrot (r : BitVec 2) (s : State) : Result :=
  if dimsChange r s then .next (respond .ok (armFullPanel (sendController 0x36 [madctl r] (turnTo r s))))
  else .next (streamEnd .ok (sendController 0x36 [madctl r] (turnTo r s)))

/-- ARMWIN x0, y0, x1, y1 (R123). -/
def execArmwin (x0 y0 x1 y1 : Int) (s : State) : Result := .next (respond .ok (arm x0 y0 x1 y1 s))

end Sys2Proof.Machine
end

