-- ==== Sys2Proof/Machine/Panel.lean ====
section
/-! DEFINITION. The panel-control requests (44_panel_control.md): SENDCMD, BACKLIGHT and PANELRST. -/

namespace Sys2Proof.Machine

/-- SENDCMD cb, a, n (R183): a mapper-owned byte is REJECTED; else the command, its payload, WIN_ARMED <- 0. -/
def execSendcmd (cb : Byte) (a : Word) (n : Nat) (s : State) : Result :=
  if mapperOwned cb then .next (respond .rejected s)
  else .next (orStuck s ((syncBytes a n (emitCmd cb s)).map (streamEnd .ok)))

/-- BACKLIGHT l (R186): WIN_ARMED unchanged. -/
def execBacklight (l : Bool) (s : State) : Result := .next (respond .ok (emitBacklightPin l s))

/-- PANELRST l (R187): WIN_ARMED <- 0; ROT and the effective dimensions unchanged. -/
def execPanelrst (l : Bool) (s : State) : Result := .next (streamEnd .ok (emitResetPin l s))

end Sys2Proof.Machine
end

