-- ==== Sys2Proof/Machine/Transfer.lean ====
section
/-! DEFINITION. The stream requests (42_transfer.md): WRSYNC, WRASYNC and FILL. -/

namespace Sys2Proof.Machine

/-- WRSYNC a, n (R158): the window check (R155), then n raw bytes by the sync path. -/
def execWrsync (a : Word) (n : Nat) (s : State) : Result :=
  if s.winArmed then .next (orStuck s ((syncBytes a n s).map (streamEnd .ok))) else .next (respond .rejected s)

/-- WRASYNC a, n (R159): the window check, then STREAM(n, BUF(a)). -/
def execWrasync (a : Word) (n : Nat) (s : State) : Result :=
  if s.winArmed then .next (orStuck s (stream n (.buf a) s)) else .next (respond .rejected s)

/-- FILL n, c (R160): the window check, then STREAM(n, COLOR(c)). -/
def execFill (n : Nat) (c : Half) (s : State) : Result :=
  if s.winArmed then .next (orStuck s (stream n (.color c) s)) else .next (respond .rejected s)

end Sys2Proof.Machine
end

