-- ==== Sys2Proof/Machine/Dispatch.lean ====
section
/-! DEFINITION. One arm per instruction: each calls its meaning. -/

namespace Sys2Proof.Machine

/-- What an instruction does: the EXEC part of a request (40_host_port.md R107), or the emission of a controller
command (30_encoding.md R89). -/
def exec (i : Instr) (s : State) : Host.Outcome State Fault Refusal :=
  match i with
  | .setrot r => Sys2Proof.Machine.execSetrot r s
  | .armwin x0 y0 x1 y1 => Sys2Proof.Machine.execArmwin x0 y0 x1 y1 s
  | .wrsync a n => Sys2Proof.Machine.execWrsync a n s
  | .wrasync a n => Sys2Proof.Machine.execWrasync a n s
  | .fill n c => Sys2Proof.Machine.execFill n c s
  | .pixel x y c => Sys2Proof.Machine.execPixel x y c s
  | .fillrect x y w h c => Sys2Proof.Machine.execFillrect x y w h c s
  | .blit x y w h a => Sys2Proof.Machine.execBlit x y w h a s
  | .sendcmd cb a n => Sys2Proof.Machine.execSendcmd cb a n s
  | .backlight l => Sys2Proof.Machine.execBacklight l s
  | .panelrst l => Sys2Proof.Machine.execPanelrst l s
  | .ctlSwreset => Sys2Proof.Machine.execCtlSwreset s
  | .ctlSlpout => Sys2Proof.Machine.execCtlSlpout s
  | .ctlPixfmt fmt => Sys2Proof.Machine.execCtlPixfmt fmt s
  | .ctlOrient code => Sys2Proof.Machine.execCtlOrient code s
  | .ctlCaset x0 x1 => Sys2Proof.Machine.execCtlCaset x0 x1 s
  | .ctlRaset y0 y1 => Sys2Proof.Machine.execCtlRaset y0 y1 s
  | .ctlRamwr => Sys2Proof.Machine.execCtlRamwr s
  | .ctlInvon => Sys2Proof.Machine.execCtlInvon s
  | .ctlDispon => Sys2Proof.Machine.execCtlDispon s

end Sys2Proof.Machine
end

