-- ==== Sys2Proof/Machine/HostPort.lean ====
section
/-! DEFINITION. The Host agent's step (40_host_port.md R100 to R112): register reads and writes at WTB_BASE, submission
and consumption, POLL (30_encoding.md R95), and the host's stores to its own memory (20_memory.md R59). -/

namespace Sys2Proof.Machine

/-- The byte offset of an access the port admits: 32 bits wide, at a word-aligned offset of the block (20_memory.md R61,
R62). -/
def portOffset (c : Config) (addr : Word) (bits : Nat) : Option Nat :=
  let off := (addr - portBase c).toNat
  if bits = 32 ∧ off < 64 ∧ off % 4 = 0 then some off else none

/-- accept(v) (R106); the source of the new request is not raced (R59). -/
def accept (v : Word) (s : State) : State :=
  { s with oplCmd := v, oplArg0 := s.arg0, oplArg1 := s.arg1, oplArg2 := s.arg2, seq := .exec, raced := false }

/-- submit(v) (R105). -/
def submit (v : Word) (s : State) : State := if ready s then accept v s else { s with drop := true }

/-- A write to RESP: bit 0 consumes a posted response, bit 1 clears DROP (R102, R50). -/
def writeResp (v : Word) (s : State) : State :=
  let s := if v.getLsbD 0 && s.respValid then consume s else s
  if v.getLsbD 1 then { s with drop := false } else s

/-- A register write of value v at offset `off` (R102); RO and reserved offsets ignore it. -/
def portWrite (off : Nat) (v : Word) (s : State) : State :=
  match off with
  | 0x0C => { s with timeoutMs := if v = 0 then 1 else v }
  | 0x20 => { s with arg0 := v }
  | 0x24 => { s with arg1 := v }
  | 0x28 => { s with arg2 := v }
  | 0x30 => submit v s
  | 0x34 => writeResp v s
  | _ => s

/-- The host stores a byte in its own memory; a byte that the request in progress reads makes what it reads from then
on free values (20_memory.md R59). -/
def hostStore (addr : Word) (b : Byte) (s : State) : State :=
  { s with mem := Memory.write s.mem addr.toNat b, raced := s.raced || (busy s && currentReads s addr) }

/-- The Host agent's step (R100): its next pending operation. A POLL stays pending until its condition holds; with
nothing pending the host makes no access (log 6). A byte store into the port block is a port access of another width
(20_memory.md R61, R62). -/
def hostStep (s : State) : Result :=
  match s.hostOps with
  | [] => .next s
  | .read addr bits :: rest =>
    match portOffset s.cfg addr bits with
    | some off => .next { s with hostData := portRead s off, hostOps := rest }
    | none => .refused .portAccess
  | .write addr bits v :: rest =>
    match portOffset s.cfg addr bits with
    | some off => .next (portWrite off v { s with hostOps := rest })
    | none => .refused .portAccess
  | .poll addr mask v :: rest =>
    match portOffset s.cfg addr 32 with
    | some off =>
      .next { s with
        hostData := portRead s off
        hostOps := if portRead s off &&& mask = v then rest else .poll addr mask v :: rest }
    | none => .refused .portAccess
  | .store addr b :: rest =>
    if inBlock s.cfg addr then .refused .portAccess else .next (hostStore addr b { s with hostOps := rest })

/-- Reset with a configuration and reset draws: a configuration outside its legal range has no reset state
(70_reset_and_hazards.md R223, R227). -/
def boot (c : Config) (d : ResetDraws) : Result :=
  if configLegal c then .next (State.resetWith c d) else .refused .illegalConfiguration

end Sys2Proof.Machine
end

