-- ==== Sys2Proof/Machine/Sequencer.lean ====
section
/-! DEFINITION. The later steps of an async stream (42_transfer.md): the Sequencer's STAGE, START and WAIT steps (R144 to
R149), the DMA channel's steps (R151, R152), the Clock's step (10_state.md R34), and what the Sequencer's turn runs
next. -/

namespace Sys2Proof.Machine

/-- The pixels of the chunk to stage: min(CHUNK_MAX, TOTAL_PX - DONE_PX) (R144). -/
def chunkPixels (s : State) : Nat := min s.chunkMax.toNat (s.totalPx.toNat - s.donePx.toNat)

/-- SCRATCH[0 ..] written with the bus bytes of a pixel list (R144). -/
def stagePixels (ps : List Half) (s : State) : State :=
  { s with scratch := Memory.writeBytes s.scratch 0 (serAll ps) }

/-- The end of the STAGE step: CUR_PX <- n, JOB <- Staging, SEQ <- START (R144). -/
def staged (n : Nat) (s : State) : State :=
  { s with curPx := BitVec.ofNat 32 n, job := .staging, seq := .start }

/-- The fill branch of STAGE: the scratch buffer is filled once per stream (R144). -/
def prefill (c : Half) (s : State) : State :=
  if s.prefilled then s
  else
    { s with
      scratch := Memory.writeBytes s.scratch 0 (serAll (List.replicate (min s.chunkMax.toNat s.totalPx.toNat) c))
      prefilled := true }

/-- The STAGE step (R144). -/
def stageStep (s : State) : State :=
  match s.src with
  | .color c => staged (chunkPixels s) (prefill c s)
  | .buf a =>
    orStuck s ((sourcePixels s (.buf a) s.donePx.toNat (chunkPixels s)).map fun ps =>
      staged (chunkPixels s) (stagePixels ps s))
  | .blit a w sx sy cw =>
    orStuck s ((sourcePixels s (.blit a w sx sy cw) s.donePx.toNat (chunkPixels s)).map fun ps =>
      staged (chunkPixels s) (stagePixels ps s))

/-- The START step (R145). -/
def startStep (s : State) : State :=
  { dmaStart (2 * s.curPx) s with
    job := .active, tStart := s.now, tmo := s.timeoutMs, completionPending := false, seq := .wait }

/-- The WAIT step on completion (R146). -/
def completeStep (s : State) : State :=
  if s.donePx + s.curPx < s.totalPx then
    { s with completionPending := false, donePx := s.donePx + s.curPx, job := .idle, seq := .stage }
  else streamEnd .ok { s with completionPending := false, donePx := s.donePx + s.curPx, job := .complete }

/-- The Sequencer in WAIT: completion before timeout (R146, R147, R208), else it holds (R149). -/
def waitStep (s : State) : State :=
  if s.completionPending then completeStep s
  else if s.tmo ≤ elapsed s then timeoutEnd s
  else s

/-- The byte of SCRATCH at an index: what a STAGE step wrote, or a free value (R58). -/
def scratchByte (s : State) (k : Nat) : Byte :=
  match Memory.read s.scratch k with
  | some b => b
  | none => Config.scratchAtReset k

/-- The DMA byte step: one byte of the chunk, and End after the last (R151). -/
def dmaByteStep (s : State) : State :=
  { s with
    dmaSent := s.dmaSent + 1
    trace := s.trace ++ .byte .data (scratchByte s s.dmaSent.toNat)
      :: (if s.dmaSent + 1 = s.dmaLen then [.endTx] else []) }

/-- The DMA completion step (R152). -/
def dmaCompleteStep (s : State) : State := { s with completionPending := true, dmaActive := false }

/-- The DMA channel's turn: a byte step, a completion step, or none (R151, R152; log 7). -/
def dmaStep (s : State) : State :=
  if s.dmaActive = true ∧ s.dmaSent.toNat < dmaLimit s then dmaByteStep s
  else if s.dmaActive = true ∧ dmaDeliver s = true ∧ s.dmaSent = s.dmaLen then dmaCompleteStep s
  else s

/-- The Clock's step (10_state.md R34). -/
def clockStep (s : State) : State := { s with now := s.now + 1 }

/-- What the Sequencer's turn runs next. -/
inductive SeqAction where
  /-- No request is executing: the Sequencer has no step (R38). -/
  | hold
  /-- Run an instruction: the accepted request (R107), or the command in the bus slot (log 14). -/
  | run (i : Instr)
  /-- Respond REJECTED: the header is no operation's (R88, R107). -/
  | reject
  | stage
  | start
  | wait
  /-- The bus slot holds no controller command of the table. -/
  | unlisted
  deriving DecidableEq, Repr

/-- What the Sequencer's turn runs next: the bus slot first, else as SEQ says (R38, R107). -/
def seqAction (s : State) : SeqAction :=
  match s.ctlSlot with
  | some w =>
    match decodeController w with
    | .ok i => .run i
    | .error _ => .unlisted
  | none =>
    match s.seq with
    | .idle => .hold
    | .exec =>
      match latchedRequest s with
      | .ok i => .run i
      | .error _ => .reject
    | .stage => .stage
    | .start => .start
    | .wait => .wait

end Sys2Proof.Machine
end

