-- ==== Sys2Proof/Machine/Turn.lean ====
section
/-! DEFINITION. One turn of a given agent (00_scope.md R16, 60_exceptions.md R209), whoever chose it. -/

namespace Sys2Proof.Machine

/-- The Sequencer's turn: what `seqAction` says runs next; nothing where it holds (R38, R149; log 7). -/
def sequencerTurn (s : State) : Result :=
  match seqAction s with
  | .run i => exec i (fetched s)
  | .reject => .next (respond .rejected (advance s))
  | .stage => .next (stageStep (advance s))
  | .start => .next (startStep (advance s))
  | .wait => .next (waitStep (advance s))
  | .hold => .next (advance s)
  | .unlisted => .refused .noControllerCommand

/-- One turn of an agent. A turn of an agent that has no step changes nothing else (log 7). -/
def turnOf (a : Agent) (s : State) : Result :=
  match a with
  | .host => hostStep (advance s)
  | .dma => .next (dmaStep (advance s))
  | .clock => .next (clockStep (advance s))
  | .sequencer => sequencerTurn s

end Sys2Proof.Machine
end

