-- ==== Sys2Proof/Machine/Step.lean ====
section
/-! DEFINITION. One step: one turn of one agent (00_scope.md R16, 60_exceptions.md R209). -/

namespace Sys2Proof.Machine

/-- One turn of the agent that moves next. -/
def step (s : State) : Host.Outcome State Fault Refusal := turnOf (nextAgent s) s

/-- `s` with the instruction of `nbits` bits `w` where the Sequencer's next turn fetches it, and that turn next (log 18):
a request stands in the operand latches as accepted (R106), a controller byte in the bus slot (log 14). -/
def State.withFetchWord (s : State) (nbits w : Nat) : State :=
  match tableWords nbits w with
  | .request cmd arg0 arg1 arg2 =>
    { s with oplCmd := cmd, oplArg0 := arg0, oplArg1 := arg1, oplArg2 := arg2, seq := .exec, ctlSlot := none,
             schedule := .sequencer :: s.schedule }
  | .controller word => { s with ctlSlot := some word, schedule := .sequencer :: s.schedule }

end Sys2Proof.Machine
end

