-- ==== Sys2Proof/Machine/Assembler.lean ====
section
/-! DEFINITION. The assembler of 30_encoding.md: mnemonic lines as host register writes (R93, R94), the
pseudo-instructions WAITRESP, HLINE, VLINE, RECT and SENDCMD0 (R95 to R98), the colour function rgb (R91, R98), and the
bring-up list of 70_reset_and_hazards.md R231. -/

namespace Sys2Proof.Machine

/-- pack(r, g, b) (R91): the most significant 5, 6 and 5 bits of the channels. -/
def pack (r g b : Byte) : Half := r.extractLsb' 3 5 ++ g.extractLsb' 2 6 ++ b.extractLsb' 3 5

/-- W(off, v): a 32-bit store at WTB_BASE + off (R94). -/
def storeAt (c : Config) (off v : Word) : HostOp := .write (portBase c + off) 32 v

/-- The argument words that a request reads, ARG0 first (R81, R87). -/
def argWords : Instr → List Word
  | .setrot _ => []
  | .armwin x0 y0 x1 y1 => [packPair x0 y0, packPair x1 y1]
  | .wrsync a n => [a, countArg n]
  | .wrasync a n => [a, countArg n]
  | .fill n c => [countArg n, colorArg c]
  | .pixel x y c => [packPair x y, colorArg c]
  | .fillrect x y w h c => [packPair x y, packPair w h, colorArg c]
  | .blit x y w h a => [packPair x y, packPair w h, a]
  | .sendcmd _ a n => [a, countArg n]
  | .backlight _ => []
  | .panelrst _ => []
  | .ctlSwreset => []
  | .ctlSlpout => []
  | .ctlPixfmt _ => []
  | .ctlOrient _ => []
  | .ctlCaset _ _ => []
  | .ctlRaset _ _ => []
  | .ctlRamwr => []
  | .ctlInvon => []
  | .ctlDispon => []

/-- The stores of the argument words, ARG0 at 0x20 (R94). -/
def argStores (c : Config) : (off : Word) → List Word → List HostOp
  | _, [] => []
  | off, v :: vs => storeAt c off v :: argStores c (off + 4) vs

/-- The register writes of a request line (R94): the arguments, then the header to CMD. An operand that does not fit its
field is refused (R93), and a controller command is no request line. -/
def assembleRequest (c : Config) (i : Instr) : Option (List HostOp) :=
  match encode i with
  | .request cmd _ _ _ => if i.wellFormed then some (argStores c 0x20 (argWords i) ++ [storeAt c 0x30 cmd]) else none
  | .controller _ => none

/-- WAITRESP (R95): poll STATUS.RESP_VALID, read RESP, consume. -/
def waitResp (c : Config) : List HostOp :=
  [.poll (portBase c + 0x00) 0x2 0x2, .read (portBase c + 0x34) 32, storeAt c 0x34 0x1]

/-- A line of host code. -/
inductive AsmLine where
  | request (i : Instr)
  | waitresp
  | hline (x y n : Int) (c : Half)
  | vline (x y n : Int) (c : Half)
  | rect (x y w h : Int) (c : Half)
  | sendcmd0 (cb : Byte)
  deriving DecidableEq, Repr

/-- A line as request and WAITRESP lines: HLINE and VLINE (R96), RECT as four runs, each followed by WAITRESP (R97),
SENDCMD0 (R98). -/
def expandLine : AsmLine → List AsmLine
  | .request i => [.request i]
  | .waitresp => [.waitresp]
  | .hline x y n c => [.request (.fillrect x y n 1 c)]
  | .vline x y n c => [.request (.fillrect x y 1 n c)]
  | .rect x y w h c =>
    [.request (.fillrect x y w 1 c), .waitresp, .request (.fillrect x (y + h - 1) w 1 c), .waitresp,
     .request (.fillrect x y 1 h c), .waitresp, .request (.fillrect (x + w - 1) y 1 h c), .waitresp]
  | .sendcmd0 cb => [.request (.sendcmd cb 0 0)]

/-- The host operations of an expanded line. -/
def assembleExpanded (c : Config) : AsmLine → Option (List HostOp)
  | .request i => assembleRequest c i
  | .waitresp => some (waitResp c)
  | .hline x y n col => assembleRequest c (.fillrect x y n 1 col)
  | .vline x y n col => assembleRequest c (.fillrect x y 1 n col)
  | .rect _ _ _ _ _ => none
  | .sendcmd0 cb => assembleRequest c (.sendcmd cb 0 0)

/-- The host operations of a list of lines, if every operand fits its field. -/
def assemble (c : Config) : List AsmLine → Option (List HostOp)
  | [] => some []
  | l :: ls =>
    match ((expandLine l).mapM (assembleExpanded c)).map List.flatten, assemble c ls with
    | some ops, some rest => some (ops ++ rest)
    | _, _ => none

/-- The host's waits during bring-up, in milliseconds (R231): parameters of the host program. -/
structure BringUpWaits where
  rstAssert : Nat
  rstRelease : Nat
  swreset : Nat
  slpout : Nat
  deriving DecidableEq, Repr

/-- The bring-up requests in order, with the host's wait in milliseconds after each (R231); the byte 0x55 stands at host
address `a`. Step 7, display inversion on, is the host's choice, since the panel decides whether it is needed: it is
issued if `invert` is true. -/
def bringUpRequests (r : BitVec 2) (a : Word) (invert : Bool) (t : BringUpWaits) : List (AsmLine × Nat) :=
  [(.request (.panelrst true), t.rstAssert), (.request (.panelrst false), t.rstRelease),
   (.sendcmd0 0x01, t.swreset), (.sendcmd0 0x11, t.slpout), (.request (.sendcmd 0x3A a 1), 0), (.request (.setrot r), 0)]
    ++ (if invert then [(.sendcmd0 0x21, 0)] else []) ++ [(.sendcmd0 0x29, 0), (.request (.backlight true), 0)]

/-- The bring-up lines: each request is followed by WAITRESP, and the host's wait comes after that (R231, R232). -/
def bringUp (r : BitVec 2) (a : Word) (invert : Bool) (t : BringUpWaits) : List (AsmLine × Nat) :=
  (bringUpRequests r a invert t).flatMap fun p => [(p.1, 0), (.waitresp, p.2)]

end Sys2Proof.Machine
end

