-- ==== Sys2Proof/Machine/Observer.lean ====
section
/-! DEFINITION. The display controller as an observer of the bus trace (00_scope.md R16): where the pixels of a stream
land (41_addressing.md R129). It is no part of WTB's state (20_memory.md R76). -/

namespace Sys2Proof.Machine

/-- The landing place of the k-th pixel in the window (cx0, cy0)-(cx1, cy1), `none` where R129 leaves it unspecified. -/
def landing (cx0 cy0 cx1 cy1 k : Nat) : Option (Nat × Nat) :=
  if cx0 ≤ cx1 ∧ cy0 ≤ cy1 ∧ k < (cx1 - cx0 + 1) * (cy1 - cy0 + 1) then
    some (cx0 + k % (cx1 - cx0 + 1), cy0 + k / (cx1 - cx0 + 1))
  else none

/-- What the controller makes of streamed data. -/
inductive Landing where
  /-- A pixel: where it lands, `none` where that is unspecified, and its colour. -/
  | pixel (place : Option (Nat × Nat)) (color : Half)
  /-- A byte streamed under a pixel format that is not known to be 0x55: what it means is unspecified (R191, R235). -/
  | unspecified
  deriving DecidableEq, Repr

/-- What the observer keeps: whether the controller's orientation is the one last sent (`oriented`), whether its pixel
format is 0x55, 16 bits a pixel (`sixteen`), whether its reset line is held, the last column and row ranges, the last
command byte and the data bytes since it, and for a memory write the first byte of a half-sent pixel, the pixel count,
and what has landed so far in order. -/
structure PanelView where
  oriented : Bool
  sixteen : Bool
  held : Bool
  col : Option (Nat × Nat)
  row : Option (Nat × Nat)
  cmd : Byte
  data : List Byte
  half : Option Byte
  count : Nat
  landed : List Landing
  deriving DecidableEq, Repr

/-- Where the next pixel lands: `none`, unspecified, between a controller reset and the next orientation
(70_reset_and_hazards.md R234) and without both ranges (R129, I5), else as `landing` says. -/
def PanelView.place (p : PanelView) : Option (Nat × Nat) :=
  match p.oriented, p.col, p.row with
  | true, some c, some r => landing c.1 r.1 c.2 r.2 p.count
  | _, _, _ => none

/-- The two 16-bit values of a range-set payload, high bytes first (R90). -/
def rangeOf : List Byte → Option (Nat × Nat)
  | [a, b, c, d] => some ((a ++ b : Half).toNat, (c ++ d : Half).toNat)
  | _ => none

/-- The nine commands of the table (30_encoding.md R89). -/
def listedCommand (b : Byte) : Bool :=
  b == 0x01 || b == 0x11 || b == 0x3A || b == 0x36 || b == 0x2A || b == 0x2B || b == 0x2C || b == 0x21 || b == 0x29

/-- The controller's state is not known any more: after a reset (44_panel_control.md R189; 70_reset_and_hazards.md R234),
and after a byte that is not in the table or a payload the table does not list, which leave it at any value (R184, I7).
That the pixel format is lost with it, and that the next 0x36, 0x3A 0x55 and range sets bring each part back, is a
DESIGN CHOICE (log 24). -/
def observeUnknown (p : PanelView) : PanelView :=
  { p with oriented := false, sixteen := false, col := none, row := none }

/-- The end of the command in progress: a 0x3A that has not brought the format 0x55, as one with no payload has not, is a
command with a payload the table does not list, and leaves the controller's state unknown (R184, I7), until the listed
commands bring each part of it back (DESIGN CHOICE, log 24). -/
def observeEnd (p : PanelView) : PanelView := if p.cmd = 0x3A ∧ p.sixteen = false then observeUnknown p else p

/-- A command byte: it ends the command in progress and any stream of it. After 0x3A the pixel format is known again once
its payload 0x55 has been seen. What an unlisted command byte or a 0x3A with no payload makes unknown, and what brings it
back, is the model's (DESIGN CHOICE, log 24). -/
def observeCommand (b : Byte) (p : PanelView) : PanelView :=
  { (if b = 0x01 ∨ listedCommand b = false then observeUnknown p
     else if b = 0x3A then { observeEnd p with sixteen := false }
     else observeEnd p) with cmd := b, data := [], half := none, count := 0 }

/-- A byte of a memory write: half a pixel, high byte first (R132), of the format 0x55; of unspecified meaning under any
other (R191, R235, I7). -/
def observePixelByte (v : Byte) (p : PanelView) : PanelView :=
  if p.sixteen then
    match p.half with
    | none => { p with half := some v }
    | some h => { p with half := none, count := p.count + 1, landed := p.landed ++ [.pixel p.place (h ++ v)] }
  else { p with landed := p.landed ++ [.unspecified] }

/-- A payload byte of 0x3A: the one byte 0x55 sets 16 bits a pixel (R191), any other payload is not in the table. -/
def observeFormat (v : Byte) (p : PanelView) : PanelView :=
  let q := { p with data := p.data ++ [v] }
  if q.data = [0x55] then { q with sixteen := !q.held } else observeUnknown q

/-- A data byte: the payload of 0x36, of a range set or of 0x3A, a byte of a memory write, or a payload the table does not
list. An orientation or a format sent while the reset line is held does not count, since the reset outlasts it (DESIGN
CHOICE, log 24). -/
def observeData (v : Byte) (p : PanelView) : PanelView :=
  if p.cmd = 0x36 then { p with oriented := !p.held }
  else if p.cmd = 0x2A then { p with data := p.data ++ [v], col := (rangeOf (p.data ++ [v])).or p.col }
  else if p.cmd = 0x2B then { p with data := p.data ++ [v], row := (rangeOf (p.data ++ [v])).or p.row }
  else if p.cmd = 0x2C then observePixelByte v p
  else if p.cmd = 0x3A then observeFormat v p
  else observeUnknown p

/-- A RESET pin event: asserting the line, or releasing it when it is held, is a controller reset (R187, R234); the level
0 the line already has is none. -/
def observeResetPin (level : Bool) (p : PanelView) : PanelView :=
  if level || p.held then
    { observeUnknown p with held := level, cmd := 0, data := [], half := none, count := 0 }
  else p

/-- One bus event as the observer sees it. -/
def observe (p : PanelView) : BusEvent → PanelView
  | .byte .command b => observeCommand b p
  | .byte .data v => observeData v p
  | .beginTx => p
  | .endTx => p
  | .pin .reset level => observeResetPin level p
  | .pin .backlight _ => p

/-- The observer after a list of events. -/
def observeAll (p : PanelView) (evs : List BusEvent) : PanelView := evs.foldl observe p

/-- The observer at WTB's reset: a controller whose orientation and pixel format hold, as 95_test_vectors.md P1 and P3
take them there, since they place pixels with no 0x3A, and P3 with no SETROT either (DEDUCED, log 24). It has seen no
range, so data before a window has no place (R129, I5). -/
def PanelView.fresh : PanelView where
  oriented := true
  sixteen := true
  held := false
  col := none
  row := none
  cmd := 0
  data := []
  half := none
  count := 0
  landed := []

end Sys2Proof.Machine
end

