-- ==== Sys2Proof/Safety.lean ====
section
/-! DEFINITION. What a sound run of WTB is, in the terms the claims use: the framing of the bus trace (20_memory.md R64),
the invariants of the state, and the named ways a chunk and a stream run to their end. -/

namespace Sys2Proof.Machine

/-- Where a trace stands with respect to its transactions (R64). -/
inductive BusPhase where
  /-- Outside any transaction. -/
  | between
  /-- After Begin, no byte yet. -/
  | opened
  /-- After the one byte of a command transaction. -/
  | command
  /-- After at least one byte of a data transaction. -/
  | data
  deriving DecidableEq, Repr

/-- The phase after one more event, `none` where R64 forbids the event. `opened` followed by End is the aborted chunk
with no data byte, the one exception R64 admits. -/
def nextPhase : BusPhase → BusEvent → Option BusPhase
  | .between, .beginTx => some .opened
  | .between, .pin _ _ => some .between
  | .opened, .byte .command _ => some .command
  | .opened, .byte .data _ => some .data
  | .opened, .endTx => some .between
  | .command, .endTx => some .between
  | .data, .byte .data _ => some .data
  | .data, .endTx => some .between
  | _, _ => none

/-- The phase after a list of events. -/
def runPhase : BusPhase → List BusEvent → Option BusPhase
  | p, [] => some p
  | p, e :: es =>
    match nextPhase p e with
    | some q => runPhase q es
    | none => none

/-- The data bytes of a trace, in order. -/
def dataBytes (evs : List BusEvent) : List Byte :=
  evs.filterMap fun e =>
    match e with
    | .byte .data v => some v
    | _ => none

/-- EFF_W and EFF_H are the effective dimensions of ROT (10_state.md R23). -/
def DimsAgree (s : State) : Prop := (s.effW, s.effH) = effDims s.cfg s.rot

/-- Host memory has no byte in WTB's own block: the platform places nothing else there (20_memory.md R62). -/
def OutsideBlock (c : Config) (m : Memory) : Prop := ∀ p ∈ m, inBlock c (BitVec.ofNat 32 p.1) = false

/-- Host memory and SCRATCH are in canonical form and inside their spaces, host memory outside WTB's block, and CHUNK_MAX
is SCRATCH_CAP div 2 (R138). -/
def StoresCanonical (s : State) : Prop :=
  Memory.wf s.mem ∧ Memory.within s.mem (2 ^ 32) ∧ Memory.wf s.scratch
    ∧ Memory.within s.scratch s.cfg.scratchCap.toNat ∧ s.chunkMax = chunkMaxOf s.cfg ∧ OutsideBlock s.cfg s.mem

/-- An armed window lies in the panel (41_addressing.md R124). -/
def WindowInPanel (s : State) : Prop :=
  s.winArmed = true → s.winX0 < s.effW ∧ s.winX1 < s.effW ∧ s.winY0 < s.effH ∧ s.winY1 < s.effH

/-- No chunk is in flight and no completion is pending. -/
def ChannelQuiet (s : State) : Prop := s.dmaActive = false ∧ s.completionPending = false

/-- A stream is in progress: the async path is available, pixels remain, no response is posted. -/
def StreamLive (s : State) : Prop :=
  s.asyncAvail = true ∧ s.respValid = false ∧ s.donePx < s.totalPx

/-- The current chunk holds min(CHUNK_MAX, TOTAL_PX - DONE_PX) pixels (R144). -/
def ChunkSized (s : State) : Prop := s.curPx.toNat = min s.chunkMax.toNat (s.totalPx.toNat - s.donePx.toNat)

/-- The chunk in flight: its length is two bytes per pixel, and the channel is either still sending a prefix of it or
has raised its completion, which it does only after the last byte of a delivered chunk (R150 to R152). -/
def ChunkInFlight (s : State) : Prop :=
  s.dmaLen.toNat = 2 * s.curPx.toNat ∧ s.dmaSent ≤ s.dmaLen
    ∧ dmaLimit s ≤ s.dmaLen.toNat
    ∧ ((s.dmaActive = true ∧ s.completionPending = false)
      ∨ (s.dmaActive = false ∧ s.completionPending = true ∧ s.dmaFate = .deliver ∧ s.dmaSent = s.dmaLen))

/-- SEQ, JOB, the response and the channel agree (R26, R109, R142, R163). -/
def LifeCycle (s : State) : Prop :=
  match s.seq with
  | .idle => ChannelQuiet s ∧ (s.job = .idle ∨ (s.respValid = true ∧ (s.job = .complete ∨ s.job = .timedOut)))
  | .exec => ChannelQuiet s ∧ s.job = .idle ∧ s.respValid = false
  | .stage => ChannelQuiet s ∧ s.job = .idle ∧ StreamLive s
  | .start => ChannelQuiet s ∧ s.job = .staging ∧ StreamLive s ∧ ChunkSized s
  | .wait => ChunkInFlight s ∧ s.job = .active ∧ StreamLive s ∧ ChunkSized s

/-- The phase the trace is in: inside a data transaction exactly while a chunk's bytes remain to be sent. -/
def tracePhase (s : State) : BusPhase :=
  if s.dmaActive && decide (s.dmaSent < s.dmaLen) then (if s.dmaSent = 0 then .opened else .data) else .between

/-- The trace obeys R64 up to now. -/
def BusFramed (s : State) : Prop := runPhase .between s.trace = some (tracePhase s)

/-- What every state that a run reaches satisfies. -/
structure WtbInv (s : State) : Prop where
  legal : configLegal s.cfg = true
  dims : DimsAgree s
  stores : StoresCanonical s
  window : WindowInPanel s
  life : LifeCycle s
  framed : BusFramed s
  capacity : s.asyncAvail = true → 1 ≤ s.chunkMax.toNat
  bound : s.timeoutMs ≠ 0
  slot : s.ctlSlot = none

/-- The instruction is a host request (R81), not a controller command (R89). -/
def isRequest : Instr → Bool
  | .setrot _ => true
  | .armwin _ _ _ _ => true
  | .wrsync _ _ => true
  | .wrasync _ _ => true
  | .fill _ _ => true
  | .pixel _ _ _ => true
  | .fillrect _ _ _ _ _ => true
  | .blit _ _ _ _ _ => true
  | .sendcmd _ _ _ => true
  | .backlight _ => true
  | .panelrst _ => true
  | .ctlSwreset => false
  | .ctlSlpout => false
  | .ctlPixfmt _ => false
  | .ctlOrient _ => false
  | .ctlCaset _ _ => false
  | .ctlRaset _ _ => false
  | .ctlRamwr => false
  | .ctlInvon => false
  | .ctlDispon => false

/-- Match and mask of a request's row of spec/opcode_table.json (R99). -/
def requestRow : Instr → Option (Word × Word)
  | .setrot _ => some (0x00000001, 0xFFFFFCFF)
  | .armwin _ _ _ _ => some (0x00000002, 0xFFFFFFFF)
  | .wrsync _ _ => some (0x00000003, 0xFFFFFFFF)
  | .wrasync _ _ => some (0x00000004, 0xFFFFFFFF)
  | .fill _ _ => some (0x00000005, 0xFFFFFFFF)
  | .pixel _ _ _ => some (0x00000006, 0xFFFFFFFF)
  | .fillrect _ _ _ _ _ => some (0x00000007, 0xFFFFFFFF)
  | .blit _ _ _ _ _ => some (0x00000008, 0xFFFFFFFF)
  | .sendcmd _ _ _ => some (0x00000009, 0xFF00FFFF)
  | .backlight _ => some (0x0000000A, 0xFFFFFBFF)
  | .panelrst _ => some (0x0000000B, 0xFFFFFBFF)
  | .ctlSwreset => none
  | .ctlSlpout => none
  | .ctlPixfmt _ => none
  | .ctlOrient _ => none
  | .ctlCaset _ _ => none
  | .ctlRaset _ _ => none
  | .ctlRamwr => none
  | .ctlInvon => none
  | .ctlDispon => none

/-- The request rows of spec/opcode_table.json as (match, mask), in the table's order. -/
def requestRows : List (Word × Word) :=
  [(0x00000001, 0xFFFFFCFF), (0x00000002, 0xFFFFFFFF), (0x00000003, 0xFFFFFFFF), (0x00000004, 0xFFFFFFFF),
   (0x00000005, 0xFFFFFFFF), (0x00000006, 0xFFFFFFFF), (0x00000007, 0xFFFFFFFF), (0x00000008, 0xFFFFFFFF),
   (0x00000009, 0xFF00FFFF), (0x0000000A, 0xFFFFFBFF), (0x0000000B, 0xFFFFFBFF)]

/-! ### Named ways to the end of a chunk and of a stream -/

/-- `n` turns of the Clock. -/
def clockTurns : Nat → State → State
  | 0, s => s
  | n + 1, s => clockTurns n (clockStep s)

/-- `n` turns of the DMA channel. -/
def dmaTurns : Nat → State → State
  | 0, s => s
  | n + 1, s => dmaTurns n (dmaStep s)

/-- STAGE, START with the fate DELIVER, every turn the channel needs, and WAIT: one chunk that completes (R154). -/
def deliverChunk (s : State) : State :=
  let t := startStep (stageStep s)
  waitStep (dmaTurns (t.dmaLen.toNat + 1) { t with dmaFate := .deliver })

/-- `n` chunks that complete, one after the other. -/
def deliverChunks : Nat → State → State
  | 0, s => s
  | n + 1, s => deliverChunks n (deliverChunk s)

/-- The host operations of a list, one Host turn each, the schedule apart. -/
def hostTurns : Nat → State → Result
  | 0, s => .next s
  | n + 1, s =>
    match hostStep s with
    | .next t => hostTurns n t
    | .fault r => .fault r
    | .refused r => .refused r

/-! ### Infinite runs -/

/-- An infinite run under an environment that chooses whose turn each is, the Clock weakly fair: always enabled, it moves
infinitely often (10_state.md R34). A claim about infinite runs is about these. -/
structure FairRun (choice : Nat → Agent) (run : Nat → State) : Prop where
  steps : ∀ n, turnOf (choice n) (run n) = .next (run (n + 1))
  clockFair : ∀ n, ∃ m, n ≤ m ∧ choice m = .clock

end Sys2Proof.Machine
end

