-- ==== Sys2Proof/Certificates/Slice0/Obligations.lean ====
section
/-! DEFINITION. The statements for the provers, from the spec's numbered rules. -/

open Sys2Proof Sys2Proof.Machine

/-! ### Encoding -/

/-- 30_encoding.md sections 1, 2 and 4: decoding the words of a well-formed instruction, of any constructor and with
every operand at any value of its field, gives that instruction back. -/
def Obligations.DecodeOfEncodeIsTheInstruction : Prop :=
  ∀ i : Instr, i.wellFormed = true → decode (encode i) = .ok i

/-- 30_encoding.md sections 1 and 3: what the decoder accepts as a request is well formed, and encoding it gives back
the same header, so no header bit is dropped. The half about a controller word rests on the model's choices: it comes
back because absent payload bytes must be 0 (log 27), and is well formed because 0x36 takes four codes only (log 15). -/
def Obligations.EncodeOfDecodedKeepsTheHeader : Prop :=
  ∀ w i, decode w = .ok i →
    i.wellFormed = true ∧
    match w, encode i with
    | .request cmd _ _ _, .request cmd' _ _ _ => cmd' = cmd
    | .controller v, .controller v' => v' = v
    | _, _ => False

/-- R99: every header decodes to exactly one of the eleven operations, with its field values, or is rejected: a header
that agrees with a row's match under its mask decodes to that row's operation, no header agrees with two rows, and one
that agrees with none is no operation. -/
def Obligations.HeadersDecodeByTheirTableRow : Prop :=
  ∀ cmd arg0 arg1 arg2 : Word,
    let x (a : Word) : Int := (a.extractLsb' 0 16).toInt
    let y (a : Word) : Int := (a.extractLsb' 16 16).toInt
    let color (a : Word) : Half := a.extractLsb' 0 16
    let gives (m mask : Word) (i : Instr) : Prop := cmd &&& mask = m → decodeRequest cmd arg0 arg1 arg2 = .ok i
    gives 0x00000001 0xFFFFFCFF (.setrot (cmd.extractLsb' 8 2)) ∧
    gives 0x00000002 0xFFFFFFFF (.armwin (x arg0) (y arg0) (x arg1) (y arg1)) ∧
    gives 0x00000003 0xFFFFFFFF (.wrsync arg0 arg1.toNat) ∧
    gives 0x00000004 0xFFFFFFFF (.wrasync arg0 arg1.toNat) ∧
    gives 0x00000005 0xFFFFFFFF (.fill arg0.toNat (color arg1)) ∧
    gives 0x00000006 0xFFFFFFFF (.pixel (x arg0) (y arg0) (color arg1)) ∧
    gives 0x00000007 0xFFFFFFFF (.fillrect (x arg0) (y arg0) (x arg1) (y arg1) (color arg2)) ∧
    gives 0x00000008 0xFFFFFFFF (.blit (x arg0) (y arg0) (x arg1) (y arg1) arg2) ∧
    gives 0x00000009 0xFF00FFFF (.sendcmd (cmd.extractLsb' 16 8) arg0 arg1.toNat) ∧
    gives 0x0000000A 0xFFFFFBFF (.backlight (cmd.getLsbD 10)) ∧
    gives 0x0000000B 0xFFFFFBFF (.panelrst (cmd.getLsbD 10)) ∧
    (∀ r ∈ requestRows, ∀ q ∈ requestRows, cmd &&& r.2 = r.1 → cmd &&& q.2 = q.1 → r = q) ∧
    ((∀ r ∈ requestRows, cmd &&& r.2 ≠ r.1) → ∃ e, decodeRequest cmd arg0 arg1 arg2 = .error e)

/-- R88: a request whose OP is 0x00 or 0x0C to 0xFF, or whose header has a 1 outside OP and the operation's fields, is
rejected by the EXEC step: nothing is sent, and only the response, SEQ and the turn's own count change. -/
def Obligations.RejectedHeaderChangesOnlyTheResponse : Prop :=
  ∀ s : State, nextAgent s = .sequencer → s.ctlSlot = none → s.seq = .exec →
    (s.oplCmd.extractLsb' 0 8 = 0x00 ∨ 0x0C ≤ (s.oplCmd.extractLsb' 0 8).toNat ∨
      ∃ op fields : Word, (op, fields) ∈ ([(0x01, 0x300), (0x02, 0), (0x03, 0), (0x04, 0), (0x05, 0), (0x06, 0),
          (0x07, 0), (0x08, 0), (0x09, 0xFF0000), (0x0A, 0x400), (0x0B, 0x400)] : List (Word × Word)) ∧
        s.oplCmd &&& 0xFF = op ∧ s.oplCmd &&& ~~~(fields ||| 0xFF) ≠ 0) →
    step s = .next { s with respCode := .rejected, respValid := true, seq := .idle,
                            schedule := s.schedule.tail, tick := s.tick + 1 }

/-- Words written out from the encodings of 30_encoding.md sections 1, 2 and 4, one or more per family. -/
def Obligations.WrittenOutWordsDecode : Prop :=
  decodeTableWord 32 0b00000000000000000000001100000001 = some (.setrot 3) ∧
  decodeTableWord 96 0x000900EF_FFFF0005_00000002 = some (.armwin 5 (-1) 239 9) ∧
  decodeTableWord 96 0x0000000A_00001000_00000004 = some (.wrasync 0x1000 10) ∧
  decodeTableWord 128 0xABCDF800_00020003_0014000A_00000007 = some (.fillrect 10 20 3 2 0xF800) ∧
  decodeTableWord 32 0b00000000001110100000000000001001 = some (.sendcmd 0x3A 0 0) ∧
  decodeTableWord 32 0b00000000000000000000010000001010 = some (.backlight true) ∧
  decodeTableWord 8 0b00101100 = some .ctlRamwr ∧
  decodeTableWord 16 0x6036 = some (.ctlOrient 0x60)

/-! ### A step runs the decoded instruction -/

/-- 40_host_port.md section 2 (R107), and log 14 for the bus slot: on the Sequencer's turn the accepted request, or the
command in the bus slot, is decoded and executed on the state whose turn has begun; `fetched` takes the turn off the
schedule, counts it and empties the slot, and changes nothing else. -/
def Obligations.StepExecutesTheDecodedInstruction : Prop :=
  ∀ (s : State) (i : Instr), nextAgent s = .sequencer →
    ((s.ctlSlot = none ∧ s.seq = .exec ∧ decode (.request s.oplCmd s.oplArg0 s.oplArg1 s.oplArg2) = .ok i) ∨
      (∃ w, s.ctlSlot = some w ∧ decode (.controller w) = .ok i)) →
    step s = exec i { s with schedule := s.schedule.tail, tick := s.tick + 1, ctlSlot := none }

/-- Log 18: an instruction placed by `withFetchWord` is what the very next step executes. -/
def Obligations.PlacedWordIsExecutedNext : Prop :=
  ∀ (s : State) (nbits w : Nat) (i : Instr), decodeTableWord nbits w = some i →
    step (s.withFetchWord nbits w) =
      exec i { s.withFetchWord nbits w with schedule := s.schedule, tick := s.tick + 1, ctlSlot := none }

/-- 60_exceptions.md section 3 (R209), 10_state.md section 4 (R34, R38): a step is one turn of the agent that moves
next, on the state whose turn has begun (one turn off the schedule, one counted): a Host, DMA channel or Clock turn is
that agent's step, and the Sequencer's turn outside EXEC is what SEQ says. Whose turn it is stands in the schedule (log
5), and a turn without a step, as the Sequencer's in IDLE, changes nothing but the count (log 7): the model's choices.
-/
def Obligations.EachTurnIsItsAgentsStep : Prop :=
  ∀ s : State,
    let u : State := { s with schedule := s.schedule.tail, tick := s.tick + 1 }
    (nextAgent s = .host → step s = hostStep u) ∧
    (nextAgent s = .dma → step s = .next (dmaStep u)) ∧
    (nextAgent s = .clock → step s = .next { u with now := s.now + 1 }) ∧
    (nextAgent s = .sequencer → s.ctlSlot = none →
      (s.seq = .idle → step s = .next u) ∧ (s.seq = .stage → step s = .next (stageStep u)) ∧
      (s.seq = .start → step s = .next (startStep u)) ∧ (s.seq = .wait → step s = .next (waitStep u)))

/-! ### The Mapper -/

/-- R118, with R125, for a legal configuration: SETROT r sends 0x36 with its code and takes the effective dimensions of
r; if they differ from the old it arms the full panel (0, 0, w - 1, h - 1), else it clears WIN_ARMED; it responds OK. -/
def Obligations.SetrotResult : Prop :=
  ∀ (r : BitVec 2) (s : State), configLegal s.cfg = true →
    let w : Half := BitVec.ofNat 16 (if r.toNat % 2 = 0 then s.cfg.nativeW else s.cfg.nativeH)
    let h : Half := BitVec.ofNat 16 (if r.toNat % 2 = 0 then s.cfg.nativeH else s.cfg.nativeW)
    let code : Byte := ([0x00, 0x60, 0xC0, 0xA0] : List Byte).getD r.toNat 0
    (∀ cmd arg0 arg1 arg2 : Word, cmd.extractLsb' 0 8 = 0x01 → decodeRequest cmd arg0 arg1 arg2 =
      if cmd &&& 0xFFFFFC00 = 0 then .ok (.setrot (cmd.extractLsb' 8 2)) else .error .reservedBits) ∧
    exec (.setrot r) s =
      if w ≠ s.effW ∨ h ≠ s.effH then
        .next { s with
          rot := r, effW := w, effH := h
          trace := s.trace ++ [.beginTx, .byte .command 0x36, .endTx, .beginTx, .byte .data code, .endTx,
            .beginTx, .byte .command 0x2A, .endTx, .beginTx, .byte .data 0, .byte .data 0,
            .byte .data (hiByte (w - 1)), .byte .data (loByte (w - 1)), .endTx,
            .beginTx, .byte .command 0x2B, .endTx, .beginTx, .byte .data 0, .byte .data 0,
            .byte .data (hiByte (h - 1)), .byte .data (loByte (h - 1)), .endTx,
            .beginTx, .byte .command 0x2C, .endTx]
          winX0 := 0, winY0 := 0, winX1 := w - 1, winY1 := h - 1, winArmed := true
          respCode := .ok, respValid := true, seq := .idle }
      else
        .next { s with
          rot := r
          trace := s.trace ++ [.beginTx, .byte .command 0x36, .endTx, .beginTx, .byte .data code, .endTx]
          winArmed := false
          respCode := .ok, respValid := true, seq := .idle }

/-- R119: two SETROT r in a row leave the same ROT, EFF_W and EFF_H, and the second sends exactly 0x36 with the payload
the first sent. -/
def Obligations.SetrotTwiceIsIdempotent : Prop :=
  ∀ (r : BitVec 2) (s : State), ∃ t u code more,
    exec (.setrot r) s = .next t ∧ exec (.setrot r) t = .next u ∧
    u.rot = t.rot ∧ u.effW = t.effW ∧ u.effH = t.effH ∧ code = madctl r ∧
    t.trace = s.trace ++ cmdEvents 0x36 ++ dataEvents [code] ++ more ∧
    u.trace = t.trace ++ cmdEvents 0x36 ++ dataEvents [code]

/-- R128: on a square panel, where the effective dimensions are those of the rotation, SETROT never re-arms and always
clears WIN_ARMED. -/
def Obligations.SquarePanelNeverRearms : Prop :=
  ∀ (r : BitVec 2) (s : State), s.cfg.nativeW = s.cfg.nativeH → DimsAgree s →
    ∃ t, exec (.setrot r) s = .next t ∧ t.winArmed = false ∧
      t.trace = s.trace ++ cmdEvents 0x36 ++ dataEvents [madctl r] ∧
      t.winX0 = s.winX0 ∧ t.winY0 = s.winY0 ∧ t.winX1 = s.winX1 ∧ t.winY1 = s.winY1

/-- R120, R123, by the arm procedure of 41_addressing.md section 3, on effective dimensions of 1 to 32767: ARMWIN clamps
each coordinate independently to the effective panel and sends 0x2A, 0x2B and 0x2C with exactly the clamped values,
never reordered; it records them, sets WIN_ARMED and responds OK. -/
def Obligations.ArmwinResult : Prop :=
  (∀ cmd arg0 arg1 arg2 : Word, cmd.extractLsb' 0 8 = 0x02 → decodeRequest cmd arg0 arg1 arg2 =
    if cmd &&& 0xFFFFFF00 = 0 then .ok (.armwin (arg0.extractLsb' 0 16).toInt (arg0.extractLsb' 16 16).toInt
      (arg1.extractLsb' 0 16).toInt (arg1.extractLsb' 16 16).toInt)
    else .error .reservedBits) ∧
  ∀ (x0 y0 x1 y1 : Int) (s : State), 1 ≤ s.effW.toNat → s.effW.toNat ≤ 32767 → 1 ≤ s.effH.toNat →
    s.effH.toNat ≤ 32767 →
    ∃ cx0 cy0 cx1 cy1 : Half,
      (cx0.toNat : Int) = min (max x0 0) ((s.effW.toNat : Int) - 1) ∧
      (cx1.toNat : Int) = min (max x1 0) ((s.effW.toNat : Int) - 1) ∧
      (cy0.toNat : Int) = min (max y0 0) ((s.effH.toNat : Int) - 1) ∧
      (cy1.toNat : Int) = min (max y1 0) ((s.effH.toNat : Int) - 1) ∧
      exec (.armwin x0 y0 x1 y1) s = .next { s with
        trace := s.trace ++ [.beginTx, .byte .command 0x2A, .endTx, .beginTx, .byte .data (hiByte cx0),
          .byte .data (loByte cx0), .byte .data (hiByte cx1), .byte .data (loByte cx1), .endTx,
          .beginTx, .byte .command 0x2B, .endTx, .beginTx, .byte .data (hiByte cy0),
          .byte .data (loByte cy0), .byte .data (hiByte cy1), .byte .data (loByte cy1), .endTx,
          .beginTx, .byte .command 0x2C, .endTx]
        winX0 := cx0, winY0 := cy0, winX1 := cx1, winY1 := cy1, winArmed := true
        respCode := .ok, respValid := true, seq := .idle }

/-- 41_addressing.md section 5 (R124): whatever request runs, at every point of what it sends (`evs` is any prefix of
its bus events), the range that a controller reading the bus holds for either axis is one it held before or lies in the
effective panel, so every range the request sends lies there. The observer (log 24) is not in the middle of a range
payload at the start. -/
def Obligations.SentRangesStayInThePanel : Prop :=
  ∀ (i : Instr) (s t : State) (evs rest : List BusEvent) (p : PanelView), isRequest i = true →
    configLegal s.cfg = true → DimsAgree s → exec i s = .next t → t.trace = s.trace ++ evs ++ rest →
    p.cmd ≠ 0x2A → p.cmd ≠ 0x2B →
    (∀ c, (observeAll p evs).col = some c → p.col = some c ∨ (c.1 < t.effW.toNat ∧ c.2 < t.effW.toNat)) ∧
    (∀ r, (observeAll p evs).row = some r → p.row = some r ∨ (r.1 < t.effH.toNat ∧ r.2 < t.effH.toNat))

/-! ### The stream requests -/

/-- R155: WRSYNC, WRASYNC and FILL with WIN_ARMED = 0 are rejected: nothing sent, nothing else changed. -/
def Obligations.StreamWithoutWindowIsRejected : Prop :=
  ∀ (s : State) (a : Word) (n : Nat) (c : Half), s.winArmed = false →
    ∀ i ∈ [Instr.wrsync a n, Instr.wrasync a n, Instr.fill n c],
      exec i s = .next { s with respCode := .rejected, respValid := true, seq := .idle }

/-- R158, R136: with a window armed and its source bytes admitted and not raced, WRSYNC a, n sends the n bytes at a,
a+1, … (mod 2^32) as one burst, none for n = 0, clears WIN_ARMED and responds OK, whatever ASYNC_AVAIL is; with no
window armed it is REJECTED. -/
def Obligations.WrsyncResult : Prop :=
  (∀ cmd arg0 arg1 arg2 : Word, cmd.extractLsb' 0 8 = 0x03 → decodeRequest cmd arg0 arg1 arg2 =
    if cmd &&& 0xFFFFFF00 = 0 then .ok (.wrsync arg0 arg1.toNat)
    else .error .reservedBits) ∧
  ∀ (a : Word) (bs : List Byte) (s : State),
    (s.winArmed = true → s.raced = false →
      (∀ j (h : j < bs.length), Memory.read s.mem ((a.toNat + j) % 2 ^ 32) = some bs[j]) →
      exec (.wrsync a bs.length) s = .next { s with
        trace := s.trace ++
          (if bs = [] then [] else .beginTx :: (bs.map (BusEvent.byte .data) ++ [.endTx]))
        winArmed := false, respCode := .ok, respValid := true, seq := .idle }) ∧
    (s.winArmed = false →
      exec (.wrsync a bs.length) s =
        .next { s with respCode := .rejected, respValid := true, seq := .idle })

/-- 20_memory.md section 2 (R59): once the host has written a byte of the source, the bytes that WRSYNC, WRASYNC and
BLIT on the sync path, and SENDCMD send are free values, one per address (the keying is the model's choice, log 10),
whatever host memory holds; the request still runs, with every other effect it has. -/
def Obligations.RacedSourceBytesAreFree : Prop :=
  ∀ (a : Word) (n : Nat) (s : State), s.raced = true →
    let free (k : Nat) : Byte := Config.racedByte s.tick (k % 2 ^ 32)
    let admitted (k : Nat) : Prop := ∃ b, Memory.read s.mem (k % 2 ^ 32) = some b
    (s.winArmed = true → (∀ j < n, admitted (a.toNat + j)) →
      exec (.wrsync a n) s = .next { s with
        trace := s.trace ++ dataEvents ((List.range n).map fun j => free (a.toNat + j))
        winArmed := false, respCode := .ok, respValid := true, seq := .idle }) ∧
    (s.winArmed = true → s.asyncAvail = false → (∀ j < 2 * n, admitted (a.toNat + j)) →
      exec (.wrasync a n) s = .next { s with
        trace := s.trace ++ dataEvents
          ((List.range n).flatMap fun j => [free (a.toNat + 2 * j + 1), free (a.toNat + 2 * j)])
        winArmed := false, respCode := .ok, respValid := true, seq := .idle }) ∧
    (∀ cb : Byte, cb ∉ ([0x36, 0x2A, 0x2B, 0x2C] : List Byte) → (∀ j < n, admitted (a.toNat + j)) →
      exec (.sendcmd cb a n) s = .next { s with
        trace := s.trace ++ [.beginTx, .byte .command cb, .endTx] ++
          dataEvents ((List.range n).map fun j => free (a.toNat + j))
        winArmed := false, respCode := .ok, respValid := true, seq := .idle }) ∧
    (∀ x y w h : Int, s.asyncAvail = false → 0 < w → 0 < h →
      let cx0 := max x 0
      let cy0 := max y 0
      let cx1 := min (x + w - 1) ((s.effW.toNat : Int) - 1)
      let cy1 := min (y + h - 1) ((s.effH.toNat : Int) - 1)
      let cw := (cx1 - cx0 + 1).toNat
      let place (k : Nat) : Nat := a.toNat + 2 * (((cy0 - y).toNat + k / cw) * w.toNat + (cx0 - x).toNat + k % cw)
      cx0 ≤ cx1 → cy0 ≤ cy1 → n = ((cx1 - cx0 + 1) * (cy1 - cy0 + 1)).toNat →
      (∀ k < n, admitted (place k) ∧ admitted (place k + 1)) →
      exec (.blit x y w h a) s = .next { s with
        trace := s.trace
          ++ windowEvents (BitVec.ofInt 16 cx0) (BitVec.ofInt 16 cy0) (BitVec.ofInt 16 cx1) (BitVec.ofInt 16 cy1)
          ++ dataEvents ((List.range n).flatMap fun k => [free (place k + 1), free (place k)])
        winX0 := BitVec.ofInt 16 cx0, winY0 := BitVec.ofInt 16 cy0
        winX1 := BitVec.ofInt 16 cx1, winY1 := BitVec.ofInt 16 cy1, winArmed := false
        respCode := .ok, respValid := true, seq := .idle })

/-- 42_transfer.md sections 4 and 7 (WRASYNC), 20_memory.md section 2: with a window armed, WRASYNC of no pixel ends OK
at once; with the async path available it sets the stream up and goes to STAGE, its response yet to come; else it sends
the little-endian pixels at a, a+2, … (mod 2^32), each high byte first, as one burst and ends OK. -/
def Obligations.WrasyncResult : Prop :=
  (∀ cmd arg0 arg1 arg2 : Word, cmd.extractLsb' 0 8 = 0x04 → decodeRequest cmd arg0 arg1 arg2 =
    if cmd &&& 0xFFFFFF00 = 0 then .ok (.wrasync arg0 arg1.toNat)
    else .error .reservedBits) ∧
  ∀ (a : Word) (ps : List Half) (s : State), s.winArmed = true →
    (ps = [] → exec (.wrasync a ps.length) s = .next { s with
      winArmed := false, respCode := .ok, respValid := true, seq := .idle }) ∧
    (ps ≠ [] → s.asyncAvail = true → exec (.wrasync a ps.length) s = .next { s with
      totalPx := BitVec.ofNat 32 ps.length, donePx := 0, src := .buf a, prefilled := false, seq := .stage }) ∧
    (ps ≠ [] → s.asyncAvail = false → s.raced = false →
      (∀ j (h : j < ps.length),
        Memory.read s.mem ((a.toNat + 2 * j) % 2 ^ 32) = some (loByte ps[j]) ∧
        Memory.read s.mem ((a.toNat + 2 * j + 1) % 2 ^ 32) = some (hiByte ps[j])) →
      exec (.wrasync a ps.length) s = .next { s with
        trace := s.trace ++ .beginTx ::
          (ps.flatMap (fun p => [BusEvent.byte .data (hiByte p), BusEvent.byte .data (loByte p)]) ++ [.endTx])
        winArmed := false, respCode := .ok, respValid := true, seq := .idle })

/-- 42_transfer.md sections 4 and 7 (FILL): as WRASYNC, with one colour and no host-memory read. -/
def Obligations.FillResult : Prop :=
  (∀ cmd arg0 arg1 arg2 : Word, cmd.extractLsb' 0 8 = 0x05 → decodeRequest cmd arg0 arg1 arg2 =
    if cmd &&& 0xFFFFFF00 = 0 then .ok (.fill arg0.toNat (arg1.extractLsb' 0 16))
    else .error .reservedBits) ∧
  ∀ (n : Nat) (c : Half) (s : State), s.winArmed = true →
    exec (.fill n c) s =
      if n = 0 then .next { s with winArmed := false, respCode := .ok, respValid := true, seq := .idle }
      else if s.asyncAvail = true then .next { s with
        totalPx := BitVec.ofNat 32 n, donePx := 0, src := .color c, prefilled := false, seq := .stage }
      else .next { s with
        trace := s.trace ++ .beginTx ::
          ((List.replicate n [BusEvent.byte .data (hiByte c), BusEvent.byte .data (loByte c)]).flatten ++ [.endTx])
        winArmed := false, respCode := .ok, respValid := true, seq := .idle }

/-! ### The compound requests -/

/-- R172, R173: PIXEL in the panel sends the window of that pixel and its two bytes, on the sync path whatever
ASYNC_AVAIL is; outside it sends nothing; both clear WIN_ARMED and respond OK. -/
def Obligations.PixelResult : Prop :=
  (∀ cmd arg0 arg1 arg2 : Word, cmd.extractLsb' 0 8 = 0x06 → decodeRequest cmd arg0 arg1 arg2 =
    if cmd &&& 0xFFFFFF00 = 0 then .ok (.pixel (arg0.extractLsb' 0 16).toInt (arg0.extractLsb' 16 16).toInt
      (arg1.extractLsb' 0 16))
    else .error .reservedBits) ∧
  ∀ (x y : Int) (c : Half) (s : State),
    (0 ≤ x → x < s.effW.toNat → 0 ≤ y → y < s.effH.toNat →
      let px : Half := BitVec.ofNat 16 x.toNat
      let py : Half := BitVec.ofNat 16 y.toNat
      exec (.pixel x y c) s = .next { s with
        trace := s.trace ++ [.beginTx, .byte .command 0x2A, .endTx, .beginTx, .byte .data (hiByte px),
          .byte .data (loByte px), .byte .data (hiByte px), .byte .data (loByte px), .endTx,
          .beginTx, .byte .command 0x2B, .endTx, .beginTx, .byte .data (hiByte py),
          .byte .data (loByte py), .byte .data (hiByte py), .byte .data (loByte py), .endTx,
          .beginTx, .byte .command 0x2C, .endTx,
          .beginTx, .byte .data (hiByte c), .byte .data (loByte c), .endTx]
        winX0 := px, winY0 := py, winX1 := px, winY1 := py, winArmed := false
        respCode := .ok, respValid := true, seq := .idle }) ∧
    (x < 0 ∨ (s.effW.toNat : Int) ≤ x ∨ y < 0 ∨ (s.effH.toNat : Int) ≤ y →
      exec (.pixel x y c) s =
        .next { s with winArmed := false, respCode := .ok, respValid := true, seq := .idle })

/-- R171: a clipped window lies in the panel, clamping leaves it unchanged, and its area is cw * ch. -/
def Obligations.ClippedWindowIsInThePanel : Prop :=
  ∀ (effW effH : Half) (x y w h : Int) (r : Clip), clip effW effH x y w h = some r →
    (0 ≤ r.cx0 ∧ r.cx0 ≤ r.cx1 ∧ r.cx1 ≤ (effW.toNat : Int) - 1) ∧
    (0 ≤ r.cy0 ∧ r.cy0 ≤ r.cy1 ∧ r.cy1 ≤ (effH.toNat : Int) - 1) ∧
    clampTo effW r.cx0 = r.cx0 ∧ clampTo effW r.cx1 = r.cx1 ∧
    clampTo effH r.cy0 = r.cy0 ∧ clampTo effH r.cy1 = r.cy1 ∧
    (r.cx1 - r.cx0 + 1) * (r.cy1 - r.cy0 + 1) = ((r.cw * r.ch : Nat) : Int)

/-- 43_compound.md sections 1 and 3 (FILLRECT): the visible part of the rectangle is one window and one stream of its
area in one colour: set up for the async path when it is available, else sent as one burst and ended OK. -/
def Obligations.FillrectResult : Prop :=
  (∀ cmd arg0 arg1 arg2 : Word, cmd.extractLsb' 0 8 = 0x07 → decodeRequest cmd arg0 arg1 arg2 =
    if cmd &&& 0xFFFFFF00 = 0 then .ok (.fillrect (arg0.extractLsb' 0 16).toInt (arg0.extractLsb' 16 16).toInt
      (arg1.extractLsb' 0 16).toInt (arg1.extractLsb' 16 16).toInt (arg2.extractLsb' 0 16))
    else .error .reservedBits) ∧
  ∀ (x y w h : Int) (c : Half) (s : State), 0 < w → 0 < h →
    let cx0 := max x 0
    let cy0 := max y 0
    let cx1 := min (x + w - 1) ((s.effW.toNat : Int) - 1)
    let cy1 := min (y + h - 1) ((s.effH.toNat : Int) - 1)
    let n := ((cx1 - cx0 + 1) * (cy1 - cy0 + 1)).toNat
    let window := windowEvents (BitVec.ofInt 16 cx0) (BitVec.ofInt 16 cy0) (BitVec.ofInt 16 cx1) (BitVec.ofInt 16 cy1)
    cx0 ≤ cx1 → cy0 ≤ cy1 →
    exec (.fillrect x y w h c) s =
      if s.asyncAvail = true then .next { s with
        trace := s.trace ++ window
        winX0 := BitVec.ofInt 16 cx0, winY0 := BitVec.ofInt 16 cy0
        winX1 := BitVec.ofInt 16 cx1, winY1 := BitVec.ofInt 16 cy1, winArmed := true
        totalPx := BitVec.ofNat 32 n, donePx := 0, src := .color c, prefilled := false, seq := .stage }
      else .next { s with
        trace := s.trace ++ window ++ dataEvents (List.replicate n [hiByte c, loByte c]).flatten
        winX0 := BitVec.ofInt 16 cx0, winY0 := BitVec.ofInt 16 cy0
        winX1 := BitVec.ofInt 16 cx1, winY1 := BitVec.ofInt 16 cy1, winArmed := false
        respCode := .ok, respValid := true, seq := .idle }

/-- 43_compound.md sections 1 and 4 (BLIT): the visible part of the image is one window and one stream; pixel k of the
stream is read at row offset (cy0 - y) + k div cw and column offset (cx0 - x) + k mod cw of an array of stride w. -/
def Obligations.BlitResult : Prop :=
  (∀ cmd arg0 arg1 arg2 : Word, cmd.extractLsb' 0 8 = 0x08 → decodeRequest cmd arg0 arg1 arg2 =
    if cmd &&& 0xFFFFFF00 = 0 then .ok (.blit (arg0.extractLsb' 0 16).toInt (arg0.extractLsb' 16 16).toInt
      (arg1.extractLsb' 0 16).toInt (arg1.extractLsb' 16 16).toInt arg2)
    else .error .reservedBits) ∧
  ∀ (x y w h : Int) (a : Word) (ps : List Half) (s : State), 0 < w → 0 < h →
    let cx0 := max x 0
    let cy0 := max y 0
    let cx1 := min (x + w - 1) ((s.effW.toNat : Int) - 1)
    let cy1 := min (y + h - 1) ((s.effH.toNat : Int) - 1)
    let cw := (cx1 - cx0 + 1).toNat
    let window := windowEvents (BitVec.ofInt 16 cx0) (BitVec.ofInt 16 cy0) (BitVec.ofInt 16 cx1) (BitVec.ofInt 16 cy1)
    let place (k : Nat) : Nat := a.toNat + 2 * (((cy0 - y).toNat + k / cw) * w.toNat + (cx0 - x).toNat + k % cw)
    cx0 ≤ cx1 → cy0 ≤ cy1 → ps.length = ((cx1 - cx0 + 1) * (cy1 - cy0 + 1)).toNat →
    (s.asyncAvail = true → exec (.blit x y w h a) s = .next { s with
      trace := s.trace ++ window
      winX0 := BitVec.ofInt 16 cx0, winY0 := BitVec.ofInt 16 cy0
      winX1 := BitVec.ofInt 16 cx1, winY1 := BitVec.ofInt 16 cy1, winArmed := true
      totalPx := BitVec.ofNat 32 ps.length, donePx := 0
      src := .blit a w.toNat (cx0 - x).toNat (cy0 - y).toNat cw
      prefilled := false, seq := .stage }) ∧
    (s.asyncAvail = false → s.raced = false →
      (∀ k (hk : k < ps.length),
        Memory.read s.mem (place k % 2 ^ 32) = some (loByte ps[k]) ∧
        Memory.read s.mem ((place k + 1) % 2 ^ 32) = some (hiByte ps[k])) →
      exec (.blit x y w h a) s = .next { s with
        trace := s.trace ++ window ++ dataEvents (ps.flatMap fun p => [hiByte p, loByte p])
        winX0 := BitVec.ofInt 16 cx0, winY0 := BitVec.ofInt 16 cy0
        winX1 := BitVec.ofInt 16 cx1, winY1 := BitVec.ofInt 16 cy1, winArmed := false
        respCode := .ok, respValid := true, seq := .idle })

/-- R180, and 43_compound.md section 3 for FILLRECT: an image or a rectangle of no extent, or wholly outside the panel,
transfers nothing and arms no window; the request responds OK, and no host memory is needed. -/
def Obligations.OutsideRectangleTransfersNothing : Prop :=
  ∀ (x y w h : Int) (a : Word) (c : Half) (s : State),
    (w ≤ 0 ∨ h ≤ 0 ∨ x + w ≤ 0 ∨ y + h ≤ 0 ∨ (s.effW.toNat : Int) ≤ x ∨ (s.effH.toNat : Int) ≤ y) →
    ∀ i ∈ [Instr.blit x y w h a, Instr.fillrect x y w h c],
      exec i s = .next { s with winArmed := false, respCode := .ok, respValid := true, seq := .idle }

/-! ### Panel control and controller commands -/

/-- R183: SENDCMD refuses the four mapper-owned bytes and changes only the response; any other byte is sent as a command
followed by its n payload bytes as one burst, WIN_ARMED is cleared and the response is OK. -/
def Obligations.SendcmdResult : Prop :=
  (∀ cmd arg0 arg1 arg2 : Word, cmd.extractLsb' 0 8 = 0x09 → decodeRequest cmd arg0 arg1 arg2 =
    if cmd &&& 0xFF00FF00 = 0 then .ok (.sendcmd (cmd.extractLsb' 16 8) arg0 arg1.toNat)
    else .error .reservedBits) ∧
  ∀ (cb : Byte) (a : Word) (bs : List Byte) (s : State),
    (cb ∈ [0x36, 0x2A, 0x2B, 0x2C] →
      exec (.sendcmd cb a bs.length) s =
        .next { s with respCode := .rejected, respValid := true, seq := .idle }) ∧
    (cb ∉ [0x36, 0x2A, 0x2B, 0x2C] → s.raced = false →
      (∀ j (h : j < bs.length), Memory.read s.mem ((a.toNat + j) % 2 ^ 32) = some bs[j]) →
      exec (.sendcmd cb a bs.length) s = .next { s with
        trace := s.trace ++ [.beginTx, .byte .command cb, .endTx] ++
          (if bs = [] then [] else .beginTx :: (bs.map (BusEvent.byte .data) ++ [.endTx]))
        winArmed := false, respCode := .ok, respValid := true, seq := .idle })

/-- R186, R187: BACKLIGHT and PANELRST append their pin event, even for the level the pin already has, and drive the
pin; PANELRST clears WIN_ARMED, BACKLIGHT leaves it; both respond OK. -/
def Obligations.PinRequestResults : Prop :=
  ∀ (l : Bool) (s : State),
    (∀ cmd arg0 arg1 arg2 : Word,
      (cmd.extractLsb' 0 8 = 0x0A → decodeRequest cmd arg0 arg1 arg2 =
        if cmd &&& 0xFFFFFB00 = 0 then .ok (.backlight (cmd.getLsbD 10)) else .error .reservedBits) ∧
      (cmd.extractLsb' 0 8 = 0x0B → decodeRequest cmd arg0 arg1 arg2 =
        if cmd &&& 0xFFFFFB00 = 0 then .ok (.panelrst (cmd.getLsbD 10)) else .error .reservedBits)) ∧
    exec (.backlight l) s = .next { s with
      trace := s.trace ++ [.pin .backlight l], backlight := l
      respCode := .ok, respValid := true, seq := .idle } ∧
    exec (.panelrst l) s = .next { s with
      trace := s.trace ++ [.pin .reset l], resetLine := l, winArmed := false
      respCode := .ok, respValid := true, seq := .idle }

/-- 30_encoding.md section 4, 44_panel_control.md section 2: each of the nine controller commands is sent as its byte in
a command transaction followed by its payload as one data burst, and nothing but the bus trace changes. -/
def Obligations.ControllerCommandsAreSent : Prop :=
  ∀ (s : State) (b : Byte) (u v : Half),
    let sent (cmd : Byte) (payload : List Byte) : Host.Outcome State Fault Refusal := .next { s with
      trace := s.trace ++ ([.beginTx, .byte .command cmd, .endTx] ++
        (if payload = [] then [] else .beginTx :: (payload.map (BusEvent.byte .data) ++ [.endTx]))) }
    exec .ctlSwreset s = sent 0x01 [] ∧ exec .ctlSlpout s = sent 0x11 [] ∧
    exec (.ctlPixfmt b) s = sent 0x3A [b] ∧ exec (.ctlOrient b) s = sent 0x36 [b] ∧
    exec (.ctlCaset u v) s = sent 0x2A [hiByte u, loByte u, hiByte v, loByte v] ∧
    exec (.ctlRaset u v) s = sent 0x2B [hiByte u, loByte u, hiByte v, loByte v] ∧
    exec .ctlRamwr s = sent 0x2C [] ∧ exec .ctlInvon s = sent 0x21 [] ∧ exec .ctlDispon s = sent 0x29 []

/-! ### Frames and whole-machine rules over all instructions -/

/-- What no instruction writes: the parameters, ASYNC_AVAIL, TIMEOUT_MS, CHUNK_MAX, JOB, DROP, the chunk and DMA
registers, SCRATCH, the operand registers and latches, the inputs, and every byte of host memory. -/
def Obligations.InstructionFrame : Prop :=
  ∀ (i : Instr) (s t : State), exec i s = .next t →
    (∀ a, Memory.read t.mem a = Memory.read s.mem a) ∧ (∀ k, Memory.read t.scratch k = Memory.read s.scratch k) ∧
    t.cfg = s.cfg ∧ t.asyncAvail = s.asyncAvail ∧ t.timeoutMs = s.timeoutMs ∧ t.chunkMax = s.chunkMax ∧
    t.job = s.job ∧ t.drop = s.drop ∧ t.curPx = s.curPx ∧ t.tStart = s.tStart ∧ t.tmo = s.tmo ∧
    t.completionPending = s.completionPending ∧ t.dmaActive = s.dmaActive ∧ t.dmaLen = s.dmaLen ∧
    t.dmaSent = s.dmaSent ∧ t.dmaFate = s.dmaFate ∧ t.arg0 = s.arg0 ∧ t.arg1 = s.arg1 ∧ t.arg2 = s.arg2 ∧
    t.oplCmd = s.oplCmd ∧ t.oplArg0 = s.oplArg0 ∧ t.oplArg1 = s.oplArg1 ∧ t.oplArg2 = s.oplArg2 ∧
    t.now = s.now ∧ t.raced = s.raced ∧ t.schedule = s.schedule ∧ t.hostOps = s.hostOps ∧
    t.hostData = s.hostData ∧ t.ctlSlot = s.ctlSlot ∧ t.tick = s.tick

/-- Which instructions may write what: only SETROT the rotation and the effective dimensions, only the arming ones the
window registers, only BACKLIGHT and PANELRST their pins, only the pixel streams the stream context, and BACKLIGHT leaves
WIN_ARMED. That a controller command leaves WIN_ARMED, the response and SEQ too is the model's choice (log 14). -/
def Obligations.OnlyTheNamedInstructionsWrite : Prop :=
  ∀ (i : Instr) (s t : State), exec i s = .next t →
    ((∀ r, i ≠ .setrot r) → t.rot = s.rot ∧ t.effW = s.effW ∧ t.effH = s.effH) ∧
    ((∀ r, i ≠ .setrot r) → (∀ x0 y0 x1 y1, i ≠ .armwin x0 y0 x1 y1) → (∀ x y c, i ≠ .pixel x y c) →
      (∀ x y w h c, i ≠ .fillrect x y w h c) → (∀ x y w h a, i ≠ .blit x y w h a) →
      t.winX0 = s.winX0 ∧ t.winY0 = s.winY0 ∧ t.winX1 = s.winX1 ∧ t.winY1 = s.winY1) ∧
    ((∀ l, i ≠ .backlight l) → t.backlight = s.backlight) ∧
    ((∀ l, i ≠ .panelrst l) → t.resetLine = s.resetLine) ∧
    ((∀ a n, i ≠ .wrasync a n) → (∀ n c, i ≠ .fill n c) → (∀ x y w h c, i ≠ .fillrect x y w h c) →
      (∀ x y w h a, i ≠ .blit x y w h a) →
      t.totalPx = s.totalPx ∧ t.donePx = s.donePx ∧ t.src = s.src ∧ t.prefilled = s.prefilled) ∧
    ((∃ l, i = .backlight l) ∨ isRequest i = false → t.winArmed = s.winArmed) ∧
    (isRequest i = false → t.respCode = s.respCode ∧ t.respValid = s.respValid ∧ t.seq = s.seq)

/-- 40_host_port.md section 2 and 60_exceptions.md section 2: the EXEC part of a request posts OK or REJECTED and goes
idle, or goes to STAGE with the async path available and the response as it was; it never posts TIMEOUT. A request that
reads host memory may instead be stuck on a read and change nothing (60_exceptions.md section 5; log 8). -/
def Obligations.RequestRespondsOrStages : Prop :=
  ∀ (i : Instr) (s t : State), isRequest i = true → exec i s = .next t →
    (t.seq = .idle ∧ t.respValid = true ∧ (t.respCode = .ok ∨ t.respCode = .rejected)) ∨
    (t.seq = .stage ∧ s.asyncAvail = true ∧ t.respValid = s.respValid ∧ t.respCode = s.respCode ∧
      t.winArmed = true) ∨
    (t = s ∧ ((∃ a n, i = .wrsync a n) ∨ (∃ a n, i = .wrasync a n) ∨ (∃ x y w h a, i = .blit x y w h a) ∨
      ∃ cb a n, i = .sendcmd cb a n))

/-- 60_exceptions.md sections 2 and 3: a request that in EXEC posts REJECTED is a stream without a window or SENDCMD of
a mapper-owned byte, and it changes nothing but RESP_CODE, RESP_VALID and SEQ. -/
def Obligations.RejectionHasItsCauseAndNoEffect : Prop :=
  ∀ (i : Instr) (s t : State), isRequest i = true → s.seq = .exec → exec i s = .next t → t.seq = .idle →
    t.respCode = .rejected →
    t = { s with respCode := .rejected, respValid := true, seq := .idle } ∧
    ((s.winArmed = false ∧ ((∃ a n, i = .wrsync a n) ∨ (∃ a n, i = .wrasync a n) ∨ (∃ n c, i = .fill n c))) ∨
      (∃ cb a n, i = .sendcmd cb a n ∧ cb ∈ ([0x36, 0x2A, 0x2B, 0x2C] : List Byte)))

/-- R182: SENDCMD, BACKLIGHT and PANELRST never touch JOB, SCRATCH or the DMA channel, never go to STAGE and never post
TIMEOUT: each ends within its EXEC step, but for a SENDCMD stuck on a payload byte, which changes nothing
(60_exceptions.md section 5; log 8). -/
def Obligations.PanelControlLeavesTheScheduler : Prop :=
  ∀ (i : Instr) (s t : State),
    ((∃ cb a n, i = .sendcmd cb a n) ∨ (∃ l, i = .backlight l) ∨ (∃ l, i = .panelrst l)) → exec i s = .next t →
    t.job = s.job ∧ t.scratch = s.scratch ∧ t.dmaActive = s.dmaActive ∧ t.dmaLen = s.dmaLen ∧
    t.dmaSent = s.dmaSent ∧ t.dmaFate = s.dmaFate ∧ t.completionPending = s.completionPending ∧
    ((t.seq = .idle ∧ t.respValid = true ∧ t.respCode ≠ .timeout) ∨
      (t = s ∧ ∃ cb a n, i = .sendcmd cb a n ∧ ∃ j < n, Memory.read s.mem ((a.toNat + j) % 2 ^ 32) = none))

/-- 20_memory.md section 2, 60_exceptions.md section 5: every instruction has a next state; a request whose source bytes
are admitted responds or goes to STAGE; one that gets as far as reading, within its EXEC step, a byte that is not
admitted is stuck: it takes no step, so that nothing changes (log 8). -/
def Obligations.AdmittedBytesDecideCompletion : Prop :=
  (∀ (i : Instr) (s : State), ∃ t, exec i s = .next t) ∧
  (∀ (i : Instr) (s t : State), isRequest i = true → i.wellFormed = true →
    (∀ a : Word, readsByte s.effW s.effH a i = true → ∃ b, Memory.read s.mem a.toNat = some b) →
    exec i s = .next t → t.seq = .idle ∧ t.respValid = true ∨ t.seq = .stage) ∧
  (∀ (i : Instr) (s : State) (a : Word), readsByte s.effW s.effH a i = true → Memory.read s.mem a.toNat = none →
    ((∃ src n, i = .wrsync src n) ∧ s.winArmed = true ∨
      (∃ src n, i = .wrasync src n) ∧ s.winArmed = true ∧ s.asyncAvail = false ∨
      (∃ x y w h src, i = .blit x y w h src) ∧ s.asyncAvail = false ∨
      (∃ cb src n, i = .sendcmd cb src n)) →
    exec i s = .next s)

/-! ### The host port -/

/-- 10_state.md section 5 (R40): STATUS bit by bit. While BUSY = 1 the fields ROT and WIN_ARMED are free values (keyed
by the turn count, the model's choice: log 12); every other field reads exactly; after reset with a legal configuration
STATUS reads INIT_ROT in bits 6:5 and 0 elsewhere; a write changes nothing. -/
def Obligations.StatusReadsItsFields : Prop :=
  (∀ s : State,
    (portRead s 0x00).getLsbD 0 = decide (s.seq ≠ .idle) ∧
    (portRead s 0x00).getLsbD 1 = s.respValid ∧
    (portRead s 0x00).extractLsb' 2 3 = jobCode s.job ∧
    (s.seq = .idle → (portRead s 0x00).extractLsb' 5 2 = s.rot ∧ (portRead s 0x00).getLsbD 7 = s.winArmed) ∧
    (s.seq ≠ .idle → (portRead s 0x00).extractLsb' 5 2 = Config.busyRot s.tick ∧
      (portRead s 0x00).getLsbD 7 = Config.busyWinArmed s.tick) ∧
    (portRead s 0x00).getLsbD 8 = s.drop ∧
    (portRead s 0x00).getLsbD 9 = s.backlight ∧
    (portRead s 0x00).getLsbD 10 = s.resetLine ∧
    (portRead s 0x00).extractLsb' 11 21 = 0) ∧
  (∀ (s : State) (v : Word), portWrite 0x00 v s = s) ∧
  ∀ (c : Config) (d : ResetDraws), configLegal c = true →
    portRead (State.resetWith c d) 0x00 = BitVec.ofNat 32 (32 * c.initRot)

/-- 10_state.md section 5, 30_encoding.md section 6 (R95): a 32-bit host read of each register returns its fields
(STATUS: the word whose bits StatusReadsItsFields gives), and changes only the host's own data and queue. A POLL is such
a read and returns the same word; it is done if that word ANDed with its mask is its value, else it stays pending, to
read again. EFF_DIM, WIN_LO and WIN_HI are free values while SEQ is not IDLE (keyed by the turn count, the model's
choice: log 12). -/
def Obligations.HostReadsReturnTheRegisters : Prop :=
  ∀ (s : State) (rest : List HostOp) (off : Nat), off < 64 → off % 4 = 0 →
    ∃ v : Word,
      (s.hostOps = .read (portBase s.cfg + BitVec.ofNat 32 off) 32 :: rest →
        hostStep s = .next { s with hostData := v, hostOps := rest }) ∧
      (∀ mask value : Word, s.hostOps = .poll (portBase s.cfg + BitVec.ofNat 32 off) mask value :: rest →
        hostStep s = .next { s with hostData := v, hostOps := if v &&& mask = value then rest else s.hostOps }) ∧
      (off = 0x00 → v = portRead s 0x00) ∧
      (s.seq ≠ .idle → (off = 0x04 → v = Config.busyEffDim s.tick) ∧ (off = 0x18 → v = Config.busyWinLo s.tick) ∧
        (off = 0x1C → v = Config.busyWinHi s.tick)) ∧
      (s.seq = .idle → off = 0x04 → v.extractLsb' 0 16 = s.effW ∧ v.extractLsb' 16 16 = s.effH) ∧
      (off = 0x08 → v.extractLsb' 0 16 = BitVec.ofNat 16 s.cfg.nativeW ∧
        v.extractLsb' 16 16 = BitVec.ofNat 16 s.cfg.nativeH) ∧
      (off = 0x0C → v = s.timeoutMs) ∧
      (off = 0x10 → v.getLsbD 0 = s.cfg.asyncEn ∧ v.getLsbD 1 = s.asyncAvail ∧ v.extractLsb' 2 30 = 0) ∧
      (off = 0x14 → v = s.cfg.scratchCap) ∧
      (s.seq = .idle → off = 0x18 → v.extractLsb' 0 16 = s.winX0 ∧ v.extractLsb' 16 16 = s.winY0) ∧
      (s.seq = .idle → off = 0x1C → v.extractLsb' 0 16 = s.winX1 ∧ v.extractLsb' 16 16 = s.winY1) ∧
      (off = 0x20 → v = s.arg0) ∧ (off = 0x24 → v = s.arg1) ∧ (off = 0x28 → v = s.arg2) ∧
      (off = 0x34 → v.getLsbD 0 = s.respValid ∧ v.extractLsb' 1 2 = respCodeBits s.respCode ∧
        v.extractLsb' 3 29 = 0) ∧
      (off = 0x2C ∨ off = 0x30 ∨ off = 0x38 ∨ off = 0x3C → v = 0)

/-- R103, R104: a host write stores TIMEOUT_MS (1 for 0) and ARG0 to ARG2 at any time, TMO and the operand latches
unchanged; a write to a read-only or a reserved offset has no effect. -/
def Obligations.HostWritesStoreTheirRegister : Prop :=
  ∀ (s : State) (rest : List HostOp) (off : Nat) (v : Word), off < 64 → off % 4 = 0 → off ≠ 0x30 → off ≠ 0x34 →
    s.hostOps = .write (portBase s.cfg + BitVec.ofNat 32 off) 32 v :: rest →
    hostStep s = .next { s with
      hostOps := rest
      timeoutMs := if off = 0x0C then (if v = 0 then 1 else v) else s.timeoutMs
      arg0 := if off = 0x20 then v else s.arg0
      arg1 := if off = 0x24 then v else s.arg1
      arg2 := if off = 0x28 then v else s.arg2 }

/-- R105: a CMD write when READY is accepted: it latches the header and the three argument registers and sets SEQ to
EXEC, so BUSY reads 1; when not READY it is dropped and only DROP changes. -/
def Obligations.CommandWriteIsAcceptedOrDropped : Prop :=
  ∀ (s : State) (rest : List HostOp) (v : Word),
    s.hostOps = .write (portBase s.cfg + 0x30) 32 v :: rest →
    (s.seq = .idle → s.respValid = false →
      ∃ t, hostStep s = .next t ∧ (portRead t 0x00).getLsbD 0 = true ∧
        t = { s with hostOps := rest, oplCmd := v, oplArg0 := s.arg0, oplArg1 := s.arg1, oplArg2 := s.arg2,
                     seq := .exec, raced := false }) ∧
    (s.seq ≠ .idle ∨ s.respValid = true → hostStep s = .next { s with hostOps := rest, drop := true })

/-- R112, with the RESP row of R102: bit 0 of a RESP write consumes a posted response and returns JOB from Complete or
TimedOut to Idle, RESP_CODE kept; bit 1 clears DROP; nothing else changes. -/
def Obligations.ResponseWriteConsumes : Prop :=
  ∀ (s : State) (rest : List HostOp) (v : Word),
    s.hostOps = .write (portBase s.cfg + 0x34) 32 v :: rest →
    hostStep s = .next { s with
      hostOps := rest
      respValid := if v.getLsbD 0 = true then false else s.respValid
      job := if v.getLsbD 0 = true ∧ s.respValid = true ∧ (s.job = .complete ∨ s.job = .timedOut) then .idle
        else s.job
      drop := if v.getLsbD 1 = true then false else s.drop }

/-- 20_memory.md section 3 (R61, R62): the port admits a 32-bit access at each word-aligned offset of its 64 bytes; a
read or a write of another width or place is refused, and so are a POLL, which is a 32-bit read (30_encoding.md section
6), of another place and a byte store into the block. That an access outside the block is refused too is the model's
inference (log 16). -/
def Obligations.OnlyAlignedWordAccessesAreAdmitted : Prop :=
  ∀ (s : State) (rest : List HostOp) (addr mask v : Word) (b : Byte) (bits : Nat),
    ((bits = 32 ∧ ∃ k < 16, addr = portBase s.cfg + BitVec.ofNat 32 (4 * k)) →
      (s.hostOps = .read addr bits :: rest → ∃ t, hostStep s = .next t) ∧
      (s.hostOps = .write addr bits v :: rest → ∃ t, hostStep s = .next t)) ∧
    (¬ (bits = 32 ∧ ∃ k < 16, addr = portBase s.cfg + BitVec.ofNat 32 (4 * k)) →
      (s.hostOps = .read addr bits :: rest → hostStep s = .refused .portAccess) ∧
      (s.hostOps = .write addr bits v :: rest → hostStep s = .refused .portAccess)) ∧
    (s.hostOps = .poll addr mask v :: rest →
      ((∃ k < 16, addr = portBase s.cfg + BitVec.ofNat 32 (4 * k)) → ∃ t, hostStep s = .next t) ∧
      (¬ (∃ k < 16, addr = portBase s.cfg + BitVec.ofNat 32 (4 * k)) → hostStep s = .refused .portAccess)) ∧
    (s.hostOps = .store addr b :: rest →
      ((∃ k < 64, addr = portBase s.cfg + BitVec.ofNat 32 k) → hostStep s = .refused .portAccess) ∧
      (¬ (∃ k < 64, addr = portBase s.cfg + BitVec.ofNat 32 k) → ∃ t, hostStep s = .next t))

/-- 20_memory.md section 2 (R59), logs 8 and 9: a host store outside WTB's block puts one byte in host memory and leaves
every other address; from then on the source reads of the request in progress are free values exactly if they already
were, or the request is executing and reads that byte. -/
def Obligations.HostStoreRacesTheRequestItTouches : Prop :=
  ∀ (s : State) (rest : List HostOp) (addr : Word) (b : Byte), s.hostOps = .store addr b :: rest →
    inBlock s.cfg addr = false →
    ∃ t, hostStep s = .next t ∧
      t = { s with hostOps := rest, mem := t.mem, raced := t.raced } ∧
      Memory.read t.mem addr.toNat = some b ∧
      (∀ a, a ≠ addr.toNat → Memory.read t.mem a = Memory.read s.mem a) ∧
      (t.raced = true ↔ s.raced = true ∨
        (s.seq ≠ .idle ∧ ∃ i, decode (.request s.oplCmd s.oplArg0 s.oplArg1 s.oplArg2) = .ok i ∧
          readsByte s.effW s.effH addr i = true))

/-- 30_encoding.md section 5: the host writes that a request line assembles into, run by a host on a READY block, leave
that request accepted and decoding to the instruction of the line, and send nothing. -/
def Obligations.AssembledRequestIsAccepted : Prop :=
  ∀ (s : State) (i : Instr), isRequest i = true → i.wellFormed = true → s.seq = .idle → s.respValid = false →
    ∃ ops, assembleRequest s.cfg i = some ops ∧
      (s.hostOps = ops → ∃ t, hostTurns ops.length s = .next t ∧ t.seq = .exec ∧ t.hostOps = [] ∧
        latchedRequest t = .ok i ∧ t.trace = s.trace ∧ t.drop = s.drop)

/-- 30_encoding.md section 4 (R91): rgb keeps the most significant 5, 6 and 5 bits of its channels. -/
def Obligations.PackKeepsTheHighBits : Prop :=
  ∀ r g b : Byte, (pack r g b).toNat = r.toNat / 8 * 2 ^ 11 + g.toNat / 4 * 2 ^ 5 + b.toNat / 8

/-! ### The scheduler and the DMA channel -/

/-- 42_transfer.md section 5 (R144): the Sequencer's turn in STAGE sets CUR_PX to min(CHUNK_MAX, TOTAL_PX - DONE_PX),
JOB to Staging and SEQ to START; a memory source has its next pixels at SCRATCH[0 ..], high byte first; a colour fills
the buffer once per stream and leaves it afterwards. A source pixel that is not admitted leaves the Sequencer stuck:
nothing changes but the count (log 8). -/
def Obligations.StageStepStagesTheChunk : Prop :=
  ∀ (s : State) (ps : List Half), nextAgent s = .sequencer → s.ctlSlot = none → s.seq = .stage →
    ps.length = min s.chunkMax.toNat (s.totalPx.toNat - s.donePx.toNat) →
    let u : State := { s with schedule := s.schedule.tail, tick := s.tick + 1 }
    ((∀ c, s.src ≠ .color c) →
      (∀ j (h : j < ps.length), sourcePixel u s.src (s.donePx.toNat + j) = some ps[j]) →
      ∃ t, step s = .next t ∧
        t = { u with scratch := t.scratch, curPx := BitVec.ofNat 32 ps.length, job := .staging, seq := .start } ∧
        (∀ j (h : j < ps.length), Memory.read t.scratch (2 * j) = some (hiByte ps[j]) ∧
          Memory.read t.scratch (2 * j + 1) = some (loByte ps[j])) ∧
        (∀ k, 2 * ps.length ≤ k → Memory.read t.scratch k = Memory.read s.scratch k)) ∧
    ((∃ j < ps.length, sourcePixel u s.src (s.donePx.toNat + j) = none) → step s = .next u) ∧
    (∀ c, s.src = .color c → s.prefilled = true → step s = .next { u with
      curPx := BitVec.ofNat 32 ps.length, job := .staging, seq := .start }) ∧
    (∀ c, s.src = .color c → s.prefilled = false →
      ∃ t, step s = .next t ∧
        t = { u with scratch := t.scratch, prefilled := true, curPx := BitVec.ofNat 32 ps.length,
                     job := .staging, seq := .start } ∧
        (∀ j < min s.chunkMax.toNat s.totalPx.toNat, Memory.read t.scratch (2 * j) = some (hiByte c) ∧
          Memory.read t.scratch (2 * j + 1) = some (loByte c)) ∧
        (∀ k, 2 * min s.chunkMax.toNat s.totalPx.toNat ≤ k → Memory.read t.scratch k = Memory.read s.scratch k))

/-- R145, with 42_transfer.md section 6 for dma_start: the Sequencer's turn in START makes the job Active, samples NOW
and TIMEOUT_MS, clears COMPLETION_PENDING, opens the chunk's transaction and starts the channel on two bytes a pixel
with a fate DELIVER or STALL(k), 0 ≤ k ≤ L. -/
def Obligations.StartStepStartsTheChannel : Prop :=
  ∀ s : State, nextAgent s = .sequencer → s.ctlSlot = none → s.seq = .start → 2 * s.curPx.toNat < 2 ^ 32 →
    ∃ fate, (fate = .deliver ∨ ∃ k ≤ 2 * s.curPx.toNat, fate = DmaFate.stall k) ∧
      step s = .next { s with
        schedule := s.schedule.tail, tick := s.tick + 1
        job := .active, tStart := s.now, tmo := s.timeoutMs, completionPending := false
        dmaActive := true, dmaLen := BitVec.ofNat 32 (2 * s.curPx.toNat), dmaSent := 0, dmaFate := fate
        trace := s.trace ++ [.beginTx], seq := .wait }

/-- 42_transfer.md section 5 (R146, R149): the Sequencer's turn in WAIT takes a pending completion whatever the elapsed
time: DONE_PX grows by CUR_PX, and either the next chunk is to be staged with JOB back at Idle, or the stream ends OK
with JOB Complete; with no completion pending and the elapsed time below TMO it has no step, and its turn changes
nothing but the count (log 7). -/
def Obligations.WaitTakesACompletionOrHolds : Prop :=
  ∀ s : State, nextAgent s = .sequencer → s.ctlSlot = none → s.seq = .wait →
    (s.completionPending = true → s.donePx.toNat + s.curPx.toNat < 2 ^ 32 →
      step s = .next
        (if s.donePx.toNat + s.curPx.toNat < s.totalPx.toNat then
          { s with schedule := s.schedule.tail, tick := s.tick + 1
                   completionPending := false, donePx := s.donePx + s.curPx, job := .idle, seq := .stage }
        else
          { s with schedule := s.schedule.tail, tick := s.tick + 1
                   completionPending := false, donePx := s.donePx + s.curPx, job := .complete
                   winArmed := false, respCode := .ok, respValid := true, seq := .idle })) ∧
    (s.completionPending = false → (s.now - s.tStart).toNat < s.tmo.toNat →
      step s = .next { s with schedule := s.schedule.tail, tick := s.tick + 1 })

/-- R147: the Sequencer's turn in WAIT with no completion pending, once (NOW - T_START) mod 2^32 has reached TMO, aborts
the chunk: its transaction is closed if bytes remain, the channel stops, JOB is TimedOut and the stream ends TIMEOUT. -/
def Obligations.WaitTimesOutAndAborts : Prop :=
  ∀ s : State, nextAgent s = .sequencer → s.ctlSlot = none → s.seq = .wait → s.completionPending = false →
    s.tmo.toNat ≤ (s.now.toNat + 2 ^ 32 - s.tStart.toNat) % 2 ^ 32 →
    step s = .next { s with
      schedule := s.schedule.tail, tick := s.tick + 1
      trace := if s.dmaActive = true ∧ s.dmaSent.toNat < s.dmaLen.toNat then s.trace ++ [.endTx] else s.trace
      dmaActive := false, completionPending := false, job := .timedOut
      winArmed := false, respCode := .timeout, respValid := true, seq := .idle }

/-- 42_transfer.md section 6 (R151, R152): the channel's turn while it is active sends SCRATCH[DMA_SENT] while DMA_SENT
is below its limit, with End after the last byte of the chunk; a chunk that is delivered then raises its completion
after its last byte; else the channel has no step, and its turn changes nothing but the count (log 7). -/
def Obligations.ChannelSendsThenCompletes : Prop :=
  ∀ s : State, nextAgent s = .dma →
    (∀ b, s.dmaActive = true →
      (s.dmaFate = .deliver ∧ s.dmaSent.toNat < s.dmaLen.toNat ∨
        ∃ k, s.dmaFate = .stall k ∧ k ≤ s.dmaLen.toNat ∧ s.dmaSent.toNat < k) →
      Memory.read s.scratch s.dmaSent.toNat = some b →
      step s = .next { s with
        schedule := s.schedule.tail, tick := s.tick + 1
        dmaSent := BitVec.ofNat 32 (s.dmaSent.toNat + 1)
        trace := s.trace ++ (if s.dmaSent.toNat + 1 = s.dmaLen.toNat then [.byte .data b, .endTx]
          else [.byte .data b]) }) ∧
    (s.dmaActive = true → s.dmaFate = .deliver → s.dmaSent = s.dmaLen →
      step s = .next { s with schedule := s.schedule.tail, tick := s.tick + 1
                              completionPending := true, dmaActive := false }) ∧
    (s.dmaActive = false ∨ (∃ k, s.dmaFate = .stall k ∧ k ≤ s.dmaSent.toNat) →
      step s = .next { s with schedule := s.schedule.tail, tick := s.tick + 1 })

/-- 42_transfer.md section 6 (R154): a started chunk of L staged bytes that is delivered puts exactly those bytes and
End on the bus and raises its completion; one that stalls after k bytes, whatever the number of its turns beyond k, has
sent exactly the first k, and the timeout then closes its transaction, so that it ends Begin, k bytes, End. -/
def Obligations.ChunkIsSentWholeOrAsAPrefix : Prop :=
  ∀ (s : State) (bs : List Byte), s.dmaActive = true → s.dmaSent = 0 → s.dmaLen.toNat = bs.length → bs ≠ [] →
    (∀ j (h : j < bs.length), Memory.read s.scratch j = some bs[j]) →
    (s.dmaFate = .deliver → dmaTurns (bs.length + 1) s = { s with
      dmaSent := s.dmaLen, dmaActive := false, completionPending := true
      trace := s.trace ++ bs.map (BusEvent.byte .data) ++ [.endTx] }) ∧
    (∀ k m, s.dmaFate = .stall k → k ≤ bs.length → k ≤ m →
      (dmaTurns m s).dmaSent = BitVec.ofNat 32 k ∧ (dmaTurns m s).completionPending = s.completionPending ∧
      (timeoutEnd (dmaTurns m s)).trace = s.trace ++ (bs.take k).map (BusEvent.byte .data) ++ [.endTx])

/-- 42_transfer.md sections 3 and 8 (R139, R162, R167): an async stream of N pixels whose chunks all complete ends OK
after ceil(N / CHUNK_MAX) chunks, and what it sent is chunk after chunk one burst of the source's next CHUNK_MAX pixels
(fewer in the last), each pixel once and in order. -/
def Obligations.DeliveredStreamSendsEveryPixelInChunks : Prop :=
  ∀ (s : State) (p : PixelSource) (ps : List Half), ps ≠ [] → ps.length < 2 ^ 32 →
    1 ≤ s.chunkMax.toNat → s.chunkMax.toNat < 2 ^ 31 → sourcePixels s p 0 ps.length = some ps →
    let t := deliverChunks ((ps.length + s.chunkMax.toNat - 1) / s.chunkMax.toNat) (asyncSetup ps.length p s)
    t.seq = .idle ∧ t.job = .complete ∧ t.respValid = true ∧ t.respCode = .ok ∧ t.winArmed = false ∧
      t.dmaActive = false ∧ t.completionPending = false ∧
      t.trace = s.trace ++
        (List.range ((ps.length + s.chunkMax.toNat - 1) / s.chunkMax.toNat)).flatMap (fun j =>
          dataEvents (((ps.drop (j * s.chunkMax.toNat)).take s.chunkMax.toNat).flatMap
            fun q => [hiByte q, loByte q])) ∧
      dataBytes t.trace = dataBytes s.trace ++ ps.flatMap (fun q => [hiByte q, loByte q])

/-- 40_host_port.md section 3 (R111), 60_exceptions.md section 5, 10_state.md section 4 (R34): from any WAIT state,
after as many Clock turns as TMO exceeds the elapsed time (here with no turn of the channel), the Sequencer's next turn
would end the wait; and in every infinite run in which the Clock is weakly fair, however the other agents move, a WAIT
comes, by states of the same wait, to one in which the Sequencer's turn would end it. That turn itself is not promised:
FairRun gives the Sequencer no fairness (R34 asks it of the Clock alone). -/
def Obligations.WaitEndsWithinTheBound : Prop :=
  (∀ s : State, s.seq = .wait →
    (waitStep (clockTurns (s.tmo.toNat - (elapsed s).toNat) s)).seq ≠ .wait) ∧
  (∀ (choice : Nat → Agent) (run : Nat → State) (n : Nat), FairRun choice run → (run n).seq = .wait →
    ∃ m, n ≤ m ∧ (∀ k, n ≤ k → k ≤ m → (run k).seq = .wait) ∧ (waitStep (run m)).seq ≠ .wait)

/-- 42_transfer.md section 8 (R164), 60_exceptions.md section 5: after a timeout and the consumption of its response,
JOB and SEQ are idle, the channel is quiet, the window is spent, and the next CMD write is accepted. -/
def Obligations.TimeoutNeverLocksTheBlock : Prop :=
  ∀ (s : State) (v : Word), s.seq = .wait → s.completionPending = false → s.tmo ≤ elapsed s →
    (waitStep s).respValid = true ∧ (waitStep s).respCode = .timeout ∧
    let u := writeResp 0x1 (waitStep s)
    u.job = .idle ∧ u.seq = .idle ∧ u.dmaActive = false ∧ u.completionPending = false ∧ u.winArmed = false ∧
    u.respValid = false ∧ (submit v u).seq = .exec ∧ (submit v u).oplCmd = v ∧ (submit v u).drop = s.drop

/-! ### Reset -/

/-- R224, R225, R226, R227: a legal configuration resets to the values of the table, whatever is drawn, with an empty
bus trace and ASYNC_AVAIL as R226 computes it; an illegal one is refused. -/
def Obligations.ResetLeavesTheTableValues : Prop :=
  ∀ (c : Config) (d : ResetDraws),
    (1 ≤ c.nativeW ∧ c.nativeW ≤ 32767 ∧ 1 ≤ c.nativeH ∧ c.nativeH ≤ 32767 ∧ c.initRot ≤ 3 →
      ∃ s, boot c d = .next s ∧ s.rot.toNat = c.initRot ∧
        s.effW.toNat = (if c.initRot % 2 = 0 then c.nativeW else c.nativeH) ∧
        s.effH.toNat = (if c.initRot % 2 = 0 then c.nativeH else c.nativeW) ∧
        s.winX0 = 0 ∧ s.winY0 = 0 ∧ s.winX1 = 0 ∧ s.winY1 = 0 ∧ s.winArmed = false ∧ s.job = .idle ∧
        (s.asyncAvail = true ↔ c.asyncEn = true ∧ d.resourcesOk = true ∧ 1 ≤ c.scratchCap.toNat / 2) ∧
        s.timeoutMs = 1000 ∧ s.chunkMax.toNat = c.scratchCap.toNat / 2 ∧ s.completionPending = false ∧
        s.dmaActive = false ∧ s.respValid = false ∧ s.respCode = .ok ∧ s.drop = false ∧ s.now = d.now ∧
        s.backlight = false ∧ s.resetLine = false ∧ s.seq = .idle ∧ s.arg0 = 0 ∧ s.arg1 = 0 ∧ s.arg2 = 0 ∧
        s.trace = [] ∧ ready s = true) ∧
    (¬ (1 ≤ c.nativeW ∧ c.nativeW ≤ 32767 ∧ 1 ≤ c.nativeH ∧ c.nativeH ≤ 32767 ∧ c.initRot ≤ 3) →
      boot c d = .refused .illegalConfiguration)

/-- The invariant holds after reset with any legal configuration and any draws, and at the model's own `State.reset`. -/
def Obligations.ResetSatisfiesTheInvariant : Prop :=
  (∀ (c : Config) (d : ResetDraws), configLegal c = true → WtbInv (State.resetWith c d)) ∧ WtbInv State.reset

/-! ### Invariants of every step -/

/-- Every step of every agent, under every schedule, every host and every draw, keeps the invariant: legal parameters,
the effective dimensions of the rotation, canonical stores, an armed window in the panel, the agreement of SEQ, JOB, the
response and the channel, and the framing of the bus trace. -/
def Obligations.EveryStepKeepsTheInvariant : Prop :=
  ∀ s t : State, WtbInv s → step s = .next t → WtbInv t

/-- From every state, reachable or not, a step keeps host memory and SCRATCH canonical and inside their spaces, and host
memory out of WTB's own block (20_memory.md R62). -/
def Obligations.EveryStepKeepsTheStoresCanonical : Prop :=
  ∀ s t : State, StoresCanonical s → step s = .next t → StoresCanonical t

/-- R27 and 41_addressing.md section 5 (R127): no step changes ASYNC_AVAIL or a parameter (so neither a native dimension
nor SCRATCH_CAP), and only a step that ran SETROT changes the rotation or the effective dimensions. -/
def Obligations.NoStepChangesTheConfiguration : Prop :=
  ∀ s t : State, step s = .next t →
    t.asyncAvail = s.asyncAvail ∧ t.cfg = s.cfg ∧ t.chunkMax = s.chunkMax ∧
    ((t.rot ≠ s.rot ∨ t.effW ≠ s.effW ∨ t.effH ≠ s.effH) →
      nextAgent s = .sequencer ∧ ∃ r, seqAction s = .run (.setrot r))

/-- 20_memory.md section 5 (R64): the bus trace is append-only, from every state and for every step. -/
def Obligations.TraceOnlyGrows : Prop :=
  ∀ s t : State, step s = .next t → ∃ evs, t.trace = s.trace ++ evs

/-- 20_memory.md section 7 (R71), 60_exceptions.md section 5: in a state the invariant allows, nothing is sent while no
request executes, so no event of a request follows its response; and a request that stops executing has posted its
response. A run that is over (40_host_port.md section 4, R113: nothing left to issue, the response consumed, WTB
quiescent) stays over and sends nothing. -/
def Obligations.NothingIsSentAfterTheResponse : Prop :=
  (∀ s : State, runOver s = true ↔
    s.hostOps = [] ∧ s.seq = .idle ∧ s.respValid = false ∧ s.dmaActive = false) ∧
  ∀ s t : State, WtbInv s → step s = .next t →
    (s.seq = .idle → t.trace = s.trace) ∧ (s.seq ≠ .idle → t.seq = .idle → t.respValid = true) ∧
    (runOver s = true → runOver t = true ∧ t.trace = s.trace)

/-- 20_memory.md section 7 (R70): while a chunk is in flight, a turn of any agent but the channel leaves the bus trace,
except the timeout's abort, which closes the chunk's transaction and stops the channel. -/
def Obligations.OnlyTheChannelSendsInFlight : Prop :=
  ∀ s t : State, WtbInv s → s.dmaActive = true → nextAgent s ≠ .dma → step s = .next t →
    t.trace = s.trace ∨
      (t.trace = s.trace ++ [.endTx] ∧ t.dmaActive = false ∧ t.job = .timedOut ∧ t.respCode = .timeout)

/-- R142: JOB changes only by the transitions of the table; for a chunk that is not the last the step goes from Active
through Complete to Idle. -/
def Obligations.JobFollowsItsTransitions : Prop :=
  ∀ s t : State, WtbInv s → step s = .next t → t.job ≠ s.job →
    (s.job = .idle ∧ t.job = .staging) ∨ (s.job = .staging ∧ t.job = .active) ∨
    (s.job = .active ∧ t.job = .complete) ∨ (s.job = .active ∧ t.job = .idle ∧ t.seq = .stage) ∨
    (s.job = .active ∧ t.job = .timedOut) ∨ (s.job = .complete ∧ t.job = .idle ∧ t.respValid = false) ∨
    (s.job = .timedOut ∧ t.job = .idle ∧ t.respValid = false)

/-! ### Where pixels land -/

/-- 43_compound.md section 3 (R175), 41_addressing.md section 5 (R129): a FILLRECT inside the panel that ends OK, at
once on the sync path or when its chunks all complete on the async path, lands exactly w × h pixels, each of colour c,
in row-major order from (x, y), on every observing controller whose orientation is the one last sent and whose pixel
format is 0x55 (70_reset_and_hazards.md section 3: R234, R235). The observer is the model's (log 24). -/
def Obligations.FillrectLandsRowMajor : Prop :=
  ∀ (x y w h : Int) (c : Half) (s : State), 0 ≤ x → 0 ≤ y → 0 < w → 0 < h →
    x + w ≤ s.effW.toNat → y + h ≤ s.effH.toNat →
    (s.asyncAvail = true → 1 ≤ s.chunkMax.toNat ∧ s.chunkMax.toNat < 2 ^ 31) →
    ∃ u evs, exec (.fillrect x y w h c) s = .next u ∧
      let t := if s.asyncAvail = true then
          deliverChunks (((w * h).toNat + s.chunkMax.toNat - 1) / s.chunkMax.toNat) u else u
      t.seq = .idle ∧ t.respValid = true ∧ t.respCode = .ok ∧ t.trace = s.trace ++ evs ∧
      ∀ p : PanelView, p.oriented = true → p.sixteen = true → (observeAll p evs).landed = p.landed ++
        (List.range (w * h).toNat).map fun k =>
          .pixel (some (x.toNat + k % w.toNat, y.toNat + k / w.toNat)) c
end

