-- ==== Sys2Proof/Laws/Bus.lean ====
section
/-! SUPPORT. The laws of bus events: which phase each emitted piece leads to (20_memory.md R64), the data bytes it
carries, and the byte lists of pixels (42_transfer.md R132, R133). -/

namespace Sys2Proof.Machine

/-! ### Phases -/

theorem runPhase_append (p : BusPhase) (xs ys : List BusEvent) :
    runPhase p (xs ++ ys) = (runPhase p xs).bind fun q => runPhase q ys := by
  induction xs generalizing p with
  | nil => rfl
  | cons e es ih =>
    simp only [List.cons_append, runPhase]
    split
    · exact ih _
    · rfl

/-- What follows a trace that is between transactions decides where the whole stands. -/
theorem runPhase_append_between {p : BusPhase} {xs ys : List BusEvent} (h : runPhase p xs = some .between) :
    runPhase p (xs ++ ys) = runPhase .between ys := by
  rw [runPhase_append, h]; rfl

@[simp] theorem runPhase_cmdEvents (b : Byte) : runPhase .between (cmdEvents b) = some .between := rfl

/-- Data bytes inside a data transaction leave it open. -/
theorem runPhase_data_bytes (bs : List Byte) (ys : List BusEvent) :
    runPhase .data (bs.map (BusEvent.byte .data) ++ ys) = runPhase .data ys := by
  induction bs with
  | nil => rfl
  | cons b bs ih => simpa [runPhase, nextPhase] using ih

@[simp] theorem runPhase_dataEvents (bs : List Byte) : runPhase .between (dataEvents bs) = some .between := by
  cases bs with
  | nil => rfl
  | cons b bs =>
    simp only [dataEvents, List.map_cons, List.cons_append, runPhase, nextPhase]
    rw [runPhase_data_bytes]; rfl

@[simp] theorem runPhase_controllerEvents (cmd : Byte) (payload : List Byte) :
    runPhase .between (controllerEvents cmd payload) = some .between := by
  rw [controllerEvents, runPhase_append_between (runPhase_cmdEvents cmd), runPhase_dataEvents]

@[simp] theorem runPhase_windowEvents (x0 y0 x1 y1 : Half) :
    runPhase .between (windowEvents x0 y0 x1 y1) = some .between := by
  rw [windowEvents, List.append_assoc, runPhase_append_between (runPhase_controllerEvents _ _),
    runPhase_append_between (runPhase_controllerEvents _ _), runPhase_cmdEvents]

@[simp] theorem runPhase_pin (p : Pin) (l : Bool) : runPhase .between [.pin p l] = some .between := rfl

/-! ### Data bytes -/

@[simp] theorem dataBytes_nil : dataBytes [] = [] := rfl

@[simp] theorem dataBytes_append (xs ys : List BusEvent) : dataBytes (xs ++ ys) = dataBytes xs ++ dataBytes ys :=
  List.filterMap_append

@[simp] theorem dataBytes_map_data (bs : List Byte) : dataBytes (bs.map (BusEvent.byte .data)) = bs := by
  induction bs with
  | nil => rfl
  | cons b bs ih => exact congrArg (b :: ·) ih

@[simp] theorem dataBytes_cmdEvents (b : Byte) : dataBytes (cmdEvents b) = [] := rfl

@[simp] theorem dataBytes_dataEvents (bs : List Byte) : dataBytes (dataEvents bs) = bs := by
  cases bs with
  | nil => rfl
  | cons b bs =>
    show dataBytes ((b :: bs).map (BusEvent.byte .data) ++ [.endTx]) = b :: bs
    rw [dataBytes_append, dataBytes_map_data]; simp [dataBytes]

/-! ### Bytes of pixels -/

@[simp] theorem serAll_nil : serAll [] = [] := rfl

@[simp] theorem serAll_cons (p : Half) (ps : List Half) : serAll (p :: ps) = hiByte p :: loByte p :: serAll ps := rfl

@[simp] theorem serAll_append (ps qs : List Half) : serAll (ps ++ qs) = serAll ps ++ serAll qs := List.flatMap_append

@[simp] theorem serAll_length (ps : List Half) : (serAll ps).length = 2 * ps.length := by
  induction ps with
  | nil => rfl
  | cons p ps ih => simp [ih]; omega

/-- Bytes 2j and 2j+1 are the high and the low byte of pixel j. -/
theorem serAll_getElem? (ps : List Half) (j : Nat) :
    (serAll ps)[2 * j]? = (ps[j]?).map hiByte ∧ (serAll ps)[2 * j + 1]? = (ps[j]?).map loByte := by
  induction ps generalizing j with
  | nil => simp
  | cons p ps ih =>
    cases j with
    | zero => simp
    | succ j => simpa [Nat.mul_add] using ih j

theorem serAll_eq_nil {ps : List Half} : serAll ps = [] ↔ ps = [] := by cases ps <;> simp

theorem dataEvents_of_ne_nil {bs : List Byte} (h : bs ≠ []) :
    dataEvents bs = .beginTx :: (bs.map (BusEvent.byte .data) ++ [.endTx]) := by
  cases bs with
  | nil => exact absurd rfl h
  | cons b bs => rfl

end Sys2Proof.Machine
end

