-- ==== Sys2Proof/Laws/Decode.lean ====
section
/-! SUPPORT. The small laws of the decoder and the encoder: fields of packed words, the decoder's answer for each OP, and
a header's mask and match in terms of OP and the reserved bits. -/

namespace Sys2Proof

/-! ### Argument words -/

theorem toInt_ofInt_coord {v : Int} (h : fitsCoord v = true) : (BitVec.ofInt 16 v).toInt = v := by
  simp only [fitsCoord, Bool.and_eq_true, decide_eq_true_eq] at h
  rw [BitVec.toInt_ofInt]
  simp only [Int.bmod]
  split <;> omega

theorem fitsCoord_toInt (v : Half) : fitsCoord v.toInt = true := by
  have := BitVec.le_toInt v
  have := BitVec.toInt_lt (x := v)
  simp only [fitsCoord, Bool.and_eq_true, decide_eq_true_eq]
  constructor
  · simp_all
  · simp_all; omega

theorem argLow_packPair {lo hi : Int} (h : fitsCoord lo = true) : argLow (packPair lo hi) = lo := by
  rw [argLow, packPair, BitVec.extractLsb'_append_eq_right, toInt_ofInt_coord h]

theorem argHigh_packPair {lo hi : Int} (h : fitsCoord hi = true) : argHigh (packPair lo hi) = hi := by
  rw [argHigh, packPair, BitVec.extractLsb'_append_eq_left, toInt_ofInt_coord h]

theorem argCount_countArg {n : Nat} (h : fitsCount n = true) : argCount (countArg n) = n := by
  simpa [argCount, countArg, fitsCount] using h

@[simp] theorem argColor_colorArg (c : Half) : argColor (colorArg c) = c := by
  simp only [argColor, colorArg]
  ext i h
  simp only [BitVec.getElem_extractLsb', BitVec.getLsbD_setWidth, Nat.zero_add]
  rw [BitVec.getLsbD_eq_getElem h]
  simp; omega

theorem fitsCoord_argLow (a : Word) : fitsCoord (argLow a) = true := fitsCoord_toInt _
theorem fitsCoord_argHigh (a : Word) : fitsCoord (argHigh a) = true := fitsCoord_toInt _
theorem fitsCount_argCount (a : Word) : fitsCount (argCount a) = true := by
  exact decide_eq_true a.isLt

/-! ### Controller words -/

theorem hiByte_append_loByte (v : Half) : hiByte v ++ loByte v = v := by
  rw [hiByte, loByte, BitVec.extractLsb'_append_extractLsb'_eq_extractLsb' (by rfl)]
  exact BitVec.extractLsb'_eq_self

theorem hiByte_append (a b : Byte) : hiByte (a ++ b) = a := BitVec.extractLsb'_append_eq_left
theorem loByte_append (a b : Byte) : loByte (a ++ b) = b := BitVec.extractLsb'_append_eq_right

section
variable (c p0 p1 p2 p3 : Byte)

@[simp] theorem ctlByte_ctlWord_0 : ctlByte (ctlWord c p0 p1 p2 p3) 0 = c := BitVec.extractLsb'_append_eq_right

@[simp] theorem ctlByte_ctlWord_1 : ctlByte (ctlWord c p0 p1 p2 p3) 1 = p0 := by
  show BitVec.extractLsb' 8 8 (p3 ++ p2 ++ p1 ++ p0 ++ c) = p0
  rw [BitVec.extractLsb'_append_eq_of_le (by decide)]
  exact BitVec.extractLsb'_append_eq_right

@[simp] theorem ctlByte_ctlWord_2 : ctlByte (ctlWord c p0 p1 p2 p3) 2 = p1 := by
  show BitVec.extractLsb' 16 8 (p3 ++ p2 ++ p1 ++ p0 ++ c) = p1
  rw [BitVec.extractLsb'_append_eq_of_le (by decide), BitVec.extractLsb'_append_eq_of_le (by decide)]
  exact BitVec.extractLsb'_append_eq_right

@[simp] theorem ctlByte_ctlWord_3 : ctlByte (ctlWord c p0 p1 p2 p3) 3 = p2 := by
  show BitVec.extractLsb' 24 8 (p3 ++ p2 ++ p1 ++ p0 ++ c) = p2
  rw [BitVec.extractLsb'_append_eq_of_le (by decide), BitVec.extractLsb'_append_eq_of_le (by decide),
    BitVec.extractLsb'_append_eq_of_le (by decide)]
  exact BitVec.extractLsb'_append_eq_right

@[simp] theorem ctlByte_ctlWord_4 : ctlByte (ctlWord c p0 p1 p2 p3) 4 = p3 := by
  show BitVec.extractLsb' 32 8 (p3 ++ p2 ++ p1 ++ p0 ++ c) = p3
  rw [BitVec.extractLsb'_append_eq_of_le (by decide), BitVec.extractLsb'_append_eq_of_le (by decide),
    BitVec.extractLsb'_append_eq_of_le (by decide), BitVec.extractLsb'_append_eq_of_le (by decide)]
  exact BitVec.extractLsb'_eq_self

end

theorem ctlByte_bit (w : BitVec 40) (j i : Nat) (h : i < 8) : (ctlByte w j).getLsbD i = w.getLsbD (8 * j + i) := by
  simp [ctlByte, h]

/-- A controller word is its five bytes. -/
theorem ctlWord_ctlBytes (w : BitVec 40) :
    ctlWord (ctlByte w 0) (ctlByte w 1) (ctlByte w 2) (ctlByte w 3) (ctlByte w 4) = w := by
  simp only [ctlWord, ctlByte]
  rw [BitVec.extractLsb'_append_extractLsb'_eq_extractLsb' (by rfl),
    BitVec.extractLsb'_append_extractLsb'_eq_extractLsb' (by rfl),
    BitVec.extractLsb'_append_extractLsb'_eq_extractLsb' (by rfl),
    BitVec.extractLsb'_append_extractLsb'_eq_extractLsb' (by rfl)]
  exact BitVec.extractLsb'_eq_self

/-- A payload check that passes leaves every later byte 0. -/
theorem ctlByte_of_shift {w : BitVec 40} {len j : Nat} (h : w >>> (8 * len) = 0) (hj : len ≤ j) : ctlByte w j = 0 := by
  apply BitVec.eq_of_getLsbD_eq
  intro i hi
  rw [ctlByte_bit w j i hi]
  have := congrArg (fun v => v.getLsbD (8 * j + i - 8 * len)) h
  simp only [BitVec.getLsbD_ushiftRight] at this
  rw [show 8 * len + (8 * j + i - 8 * len) = 8 * j + i by omega] at this
  simpa using this

/-! ### The decoder's answer for each OP -/

section
variable {cmd arg0 arg1 arg2 : Word}

theorem decodeRequest_setrot (h : (headerOp cmd).toNat = 0x01) :
    decodeRequest cmd arg0 arg1 arg2 = checkHeader cmd 0x300 (.setrot (headerRot cmd)) := by
  simp only [decodeRequest, h]
theorem decodeRequest_armwin (h : (headerOp cmd).toNat = 0x02) : decodeRequest cmd arg0 arg1 arg2 =
    checkHeader cmd 0 (.armwin (argLow arg0) (argHigh arg0) (argLow arg1) (argHigh arg1)) := by
  simp only [decodeRequest, h]
theorem decodeRequest_wrsync (h : (headerOp cmd).toNat = 0x03) :
    decodeRequest cmd arg0 arg1 arg2 = checkHeader cmd 0 (.wrsync arg0 (argCount arg1)) := by
  simp only [decodeRequest, h]
theorem decodeRequest_wrasync (h : (headerOp cmd).toNat = 0x04) :
    decodeRequest cmd arg0 arg1 arg2 = checkHeader cmd 0 (.wrasync arg0 (argCount arg1)) := by
  simp only [decodeRequest, h]
theorem decodeRequest_fill (h : (headerOp cmd).toNat = 0x05) :
    decodeRequest cmd arg0 arg1 arg2 = checkHeader cmd 0 (.fill (argCount arg0) (argColor arg1)) := by
  simp only [decodeRequest, h]
theorem decodeRequest_pixel (h : (headerOp cmd).toNat = 0x06) : decodeRequest cmd arg0 arg1 arg2 =
    checkHeader cmd 0 (.pixel (argLow arg0) (argHigh arg0) (argColor arg1)) := by
  simp only [decodeRequest, h]
theorem decodeRequest_fillrect (h : (headerOp cmd).toNat = 0x07) : decodeRequest cmd arg0 arg1 arg2 =
    checkHeader cmd 0 (.fillrect (argLow arg0) (argHigh arg0) (argLow arg1) (argHigh arg1) (argColor arg2)) := by
  simp only [decodeRequest, h]
theorem decodeRequest_blit (h : (headerOp cmd).toNat = 0x08) : decodeRequest cmd arg0 arg1 arg2 =
    checkHeader cmd 0 (.blit (argLow arg0) (argHigh arg0) (argLow arg1) (argHigh arg1) arg2) := by
  simp only [decodeRequest, h]
theorem decodeRequest_sendcmd (h : (headerOp cmd).toNat = 0x09) : decodeRequest cmd arg0 arg1 arg2 =
    checkHeader cmd 0xFF0000 (.sendcmd (headerCb cmd) arg0 (argCount arg1)) := by
  simp only [decodeRequest, h]
theorem decodeRequest_backlight (h : (headerOp cmd).toNat = 0x0A) :
    decodeRequest cmd arg0 arg1 arg2 = checkHeader cmd 0x400 (.backlight (headerLvl cmd)) := by
  simp only [decodeRequest, h]
theorem decodeRequest_panelrst (h : (headerOp cmd).toNat = 0x0B) :
    decodeRequest cmd arg0 arg1 arg2 = checkHeader cmd 0x400 (.panelrst (headerLvl cmd)) := by
  simp only [decodeRequest, h]

/-- A reserved OP is no instruction (R88, cause 1). -/
theorem decodeRequest_reserved (h : (headerOp cmd).toNat = 0 ∨ 12 ≤ (headerOp cmd).toNat) :
    decodeRequest cmd arg0 arg1 arg2 = .error (.reservedOp (headerOp cmd)) := by
  unfold decodeRequest
  split <;> first | omega | rfl

end

theorem checkHeader_ok {cmd fields : Word} {i j : Instr} :
    checkHeader cmd fields i = .ok j ↔ cmd &&& ~~~(fields ||| 0xFF) = 0 ∧ i = j := by
  unfold checkHeader
  split <;> simp_all

/-- Match and mask of a row: OP and no bit outside OP and the fields (R80, R99). -/
theorem header_matches (cmd fields : Word) (op : Byte) (hf : fields &&& 0xFF = 0) :
    cmd &&& ~~~fields = op.setWidth 32 ↔ headerOp cmd = op ∧ cmd &&& ~~~(fields ||| 0xFF) = 0 := by
  have low : ∀ i, (0xFF : Word).getLsbD i = decide (i < 8) := by
    intro i
    by_cases h : i < 32
    · interval_cases i <;> rfl
    · rw [BitVec.getLsbD_of_ge _ _ (by omega)]; simp; omega
  have fl : ∀ i, i < 8 → fields.getLsbD i = false := by
    intro i hi
    have := congrArg (fun v => v.getLsbD i) hf
    rw [BitVec.getLsbD_and, low] at this
    simpa [hi] using this
  constructor
  · intro h
    have bit : ∀ i, i < 32 → (cmd.getLsbD i && !fields.getLsbD i) = op.getLsbD i := by
      intro i hi
      have := congrArg (fun v => v.getLsbD i) h
      simpa [hi] using this
    constructor
    · apply BitVec.eq_of_getLsbD_eq
      intro i hi
      have := bit i (by omega)
      rw [fl i hi] at this
      simpa [headerOp, BitVec.getLsbD_extractLsb', hi] using this
    · apply BitVec.eq_of_getLsbD_eq
      intro i hi
      simp only [BitVec.getLsbD_and, BitVec.getLsbD_not, BitVec.getLsbD_or, low, hi]
      by_cases h8 : i < 8
      · simp [h8]
      · have := bit i hi
        rw [BitVec.getLsbD_of_ge op i (by omega)] at this
        simpa [h8] using this
  · rintro ⟨rfl, h⟩
    apply BitVec.eq_of_getLsbD_eq
    intro i hi
    have hb := congrArg (fun v => v.getLsbD i) h
    simp only [BitVec.getLsbD_and, BitVec.getLsbD_not, BitVec.getLsbD_or, low, hi] at hb
    by_cases h8 : i < 8
    · rw [BitVec.getLsbD_and, BitVec.getLsbD_not, fl i h8]
      simp [h8, hi, headerOp]
    · rw [BitVec.getLsbD_and, BitVec.getLsbD_not, BitVec.getLsbD_setWidth, BitVec.getLsbD_of_ge (headerOp cmd) i (by omega)]
      simpa [h8, hi] using hb

end Sys2Proof
end

