-- ==== Sys2Proof/Laws/Memory.lean ====
section
/-! SUPPORT. The laws of a byte memory and of lists read from it: read after write, every write keeps the canonical form
and the bound, and what `collect` returns. -/

namespace Sys2Proof.Machine

theorem Memory.read_write_same (m : Memory) (a : Nat) (v : Byte) :
    Memory.read (Memory.write m a v) a = some v := by
  induction m with
  | nil => simp [Memory.write, Memory.read]
  | cons p m ih =>
    obtain ⟨b, w⟩ := p
    simp only [Memory.write]
    split
    · simp [Memory.read]
    · split
      · simp [Memory.read]
      · rename_i h; simp [Memory.read, h, ih]

theorem Memory.read_write_other (m : Memory) {a b : Nat} (v : Byte) (h : b ≠ a) :
    Memory.read (Memory.write m a v) b = Memory.read m b := by
  induction m with
  | nil => simp [Memory.write, Memory.read, h]
  | cons p m ih =>
    obtain ⟨c, w⟩ := p
    simp only [Memory.write]
    split
    · simp [Memory.read, h]
    · split
      · rename_i h2; subst h2; simp [Memory.read, h]
      · simp only [Memory.read, ih]

/-- What a write can add: the written cell, or a cell that was there. -/
theorem Memory.mem_write {m : Memory} {a : Nat} {v : Byte} {p : Host.Cell} (h : p ∈ Memory.write m a v) :
    p = (a, v) ∨ p ∈ m := by
  induction m with
  | nil => simpa [Memory.write] using h
  | cons q m ih =>
    obtain ⟨b, w⟩ := q
    simp only [Memory.write] at h
    split at h
    · simpa using h
    · split at h
      · rcases List.mem_cons.mp h with h | h
        · exact .inl h
        · exact .inr (List.mem_cons_of_mem _ h)
      · rcases List.mem_cons.mp h with h | h
        · exact .inr (h ▸ List.mem_cons_self)
        · exact (ih h).imp_right (List.mem_cons_of_mem _)

theorem Memory.write_within {m : Memory} {n a : Nat} (v : Byte) (h : Memory.within m n) (ha : a < n) :
    Memory.within (Memory.write m a v) n := by
  intro p hp
  rcases Memory.mem_write hp with rfl | hp
  · exact ha
  · exact h p hp

theorem Memory.write_wf {m : Memory} (a : Nat) (v : Byte) (h : Memory.wf m) : Memory.wf (Memory.write m a v) := by
  induction m with
  | nil => simp [Memory.write]
  | cons p m ih =>
    obtain ⟨b, w⟩ := p
    obtain ⟨hb, hm⟩ := List.pairwise_cons.mp h
    simp only [Memory.write]
    split
    · rename_i hlt
      refine List.pairwise_cons.mpr ⟨?_, h⟩
      intro q hq
      rcases List.mem_cons.mp hq with rfl | hq
      · exact hlt
      · exact Nat.lt_trans hlt (hb q hq)
    · split
      · rename_i he; subst he; exact List.pairwise_cons.mpr ⟨hb, hm⟩
      · rename_i h1 h2
        refine List.pairwise_cons.mpr ⟨?_, ih hm⟩
        intro q hq
        rcases Memory.mem_write hq with rfl | hq
        · show b < a; omega
        · exact hb q hq

theorem Memory.writeBytes_wf {m : Memory} (a : Nat) (vs : List Byte) (h : Memory.wf m) :
    Memory.wf (Memory.writeBytes m a vs) := by
  induction vs generalizing m a with
  | nil => exact h
  | cons v vs ih => exact ih (a + 1) (Memory.write_wf a v h)

theorem Memory.writeBytes_within {m : Memory} {n a : Nat} {vs : List Byte} (h : Memory.within m n)
    (ha : a + vs.length ≤ n) : Memory.within (Memory.writeBytes m a vs) n := by
  induction vs generalizing m a with
  | nil => exact h
  | cons v vs ih =>
    simp only [List.length_cons] at ha
    exact ih (Memory.write_within v h (by omega)) (by omega)

/-- A written list reads back at its addresses, every other address as before. -/
theorem Memory.read_writeBytes (m : Memory) (a k : Nat) (vs : List Byte) :
    Memory.read (Memory.writeBytes m a vs) k =
      if h : a ≤ k ∧ k - a < vs.length then some (vs[k - a]'h.2) else Memory.read m k := by
  induction vs generalizing m a with
  | nil => simp [Memory.writeBytes]
  | cons v vs ih =>
    rw [Memory.writeBytes, ih]
    by_cases h1 : k = a
    · subst h1
      simp [Memory.read_write_same]
    · by_cases h2 : a < k
      · have e : k - a = (k - (a + 1)) + 1 := by omega
        have e1 : a ≤ k := by omega
        have e2 : a + 1 ≤ k := by omega
        simp only [Memory.read_write_other _ _ h1, List.length_cons, e1, e2, true_and, e,
          Nat.add_lt_add_iff_right, List.getElem_cons_succ]
      · have e1 : ¬ a ≤ k := by omega
        have e2 : ¬ a + 1 ≤ k := by omega
        simp [Memory.read_write_other _ _ h1, e1, e2]

/-- `collect` returns a list exactly when every element is there, and then in order. -/
theorem collect_eq_some {α : Type} (f : Nat → Option α) (start n : Nat) (xs : List α) :
    collect f start n = some xs ↔ xs.length = n ∧ ∀ j (h : j < xs.length), f (start + j) = some xs[j] := by
  induction n generalizing start xs with
  | zero =>
    simp only [collect, Option.some.injEq]
    constructor
    · rintro rfl; simp
    · rintro ⟨h, -⟩; exact (List.length_eq_zero_iff.mp h).symm
  | succ n ih =>
    simp only [collect]
    cases xs with
    | nil =>
      constructor
      · intro h; split at h <;> simp at h
      · rintro ⟨h, -⟩; simp at h
    | cons x xs =>
      constructor
      · intro h
        split at h
        · rename_i y ys h1 h2
          obtain ⟨rfl, rfl⟩ : y = x ∧ ys = xs := by simpa using h
          obtain ⟨hl, hf⟩ := (ih (start + 1) ys).mp h2
          refine ⟨by simp [hl], ?_⟩
          intro j hj
          cases j with
          | zero => simpa using h1
          | succ j =>
            have := hf j (by simpa using hj)
            simpa [Nat.add_assoc, Nat.add_comm 1 j] using this
        · simp at h
      · rintro ⟨hl, hf⟩
        have h1 : f start = some x := hf 0 (Nat.zero_lt_succ _)
        have h2 : collect f (start + 1) n = some xs := by
          refine (ih (start + 1) xs).mpr ⟨by simpa using hl, ?_⟩
          intro j hj
          have := hf (j + 1) (by simpa using hj)
          simpa [Nat.add_assoc, Nat.add_comm 1 j] using this
        rw [h1, h2]

theorem collect_length {α : Type} {f : Nat → Option α} {start n : Nat} {xs : List α}
    (h : collect f start n = some xs) : xs.length = n := ((collect_eq_some f start n xs).mp h).1

end Sys2Proof.Machine
end

