-- ==== Sys2Proof/Laws/State.lean ====
section
/-! SUPPORT. One lemma per field per primitive update of State, each true by rfl, so that no later proof unfolds a record
update. Composite operations rewrite to these (Laws/Ops.lean). -/

namespace Sys2Proof.Machine

variable (s : State)

/-! ### emit -/

@[simp] theorem emit_cfg (evs : List BusEvent) : (emit evs s).cfg = s.cfg := rfl
@[simp] theorem emit_rot (evs : List BusEvent) : (emit evs s).rot = s.rot := rfl
@[simp] theorem emit_effW (evs : List BusEvent) : (emit evs s).effW = s.effW := rfl
@[simp] theorem emit_effH (evs : List BusEvent) : (emit evs s).effH = s.effH := rfl
@[simp] theorem emit_winX0 (evs : List BusEvent) : (emit evs s).winX0 = s.winX0 := rfl
@[simp] theorem emit_winY0 (evs : List BusEvent) : (emit evs s).winY0 = s.winY0 := rfl
@[simp] theorem emit_winX1 (evs : List BusEvent) : (emit evs s).winX1 = s.winX1 := rfl
@[simp] theorem emit_winY1 (evs : List BusEvent) : (emit evs s).winY1 = s.winY1 := rfl
@[simp] theorem emit_winArmed (evs : List BusEvent) : (emit evs s).winArmed = s.winArmed := rfl
@[simp] theorem emit_job (evs : List BusEvent) : (emit evs s).job = s.job := rfl
@[simp] theorem emit_asyncAvail (evs : List BusEvent) : (emit evs s).asyncAvail = s.asyncAvail := rfl
@[simp] theorem emit_timeoutMs (evs : List BusEvent) : (emit evs s).timeoutMs = s.timeoutMs := rfl
@[simp] theorem emit_totalPx (evs : List BusEvent) : (emit evs s).totalPx = s.totalPx := rfl
@[simp] theorem emit_donePx (evs : List BusEvent) : (emit evs s).donePx = s.donePx := rfl
@[simp] theorem emit_curPx (evs : List BusEvent) : (emit evs s).curPx = s.curPx := rfl
@[simp] theorem emit_chunkMax (evs : List BusEvent) : (emit evs s).chunkMax = s.chunkMax := rfl
@[simp] theorem emit_src (evs : List BusEvent) : (emit evs s).src = s.src := rfl
@[simp] theorem emit_prefilled (evs : List BusEvent) : (emit evs s).prefilled = s.prefilled := rfl
@[simp] theorem emit_tStart (evs : List BusEvent) : (emit evs s).tStart = s.tStart := rfl
@[simp] theorem emit_tmo (evs : List BusEvent) : (emit evs s).tmo = s.tmo := rfl
@[simp] theorem emit_completionPending (evs : List BusEvent) : (emit evs s).completionPending = s.completionPending := rfl
@[simp] theorem emit_dmaActive (evs : List BusEvent) : (emit evs s).dmaActive = s.dmaActive := rfl
@[simp] theorem emit_dmaLen (evs : List BusEvent) : (emit evs s).dmaLen = s.dmaLen := rfl
@[simp] theorem emit_dmaSent (evs : List BusEvent) : (emit evs s).dmaSent = s.dmaSent := rfl
@[simp] theorem emit_dmaFate (evs : List BusEvent) : (emit evs s).dmaFate = s.dmaFate := rfl
@[simp] theorem emit_scratch (evs : List BusEvent) : (emit evs s).scratch = s.scratch := rfl
@[simp] theorem emit_respValid (evs : List BusEvent) : (emit evs s).respValid = s.respValid := rfl
@[simp] theorem emit_respCode (evs : List BusEvent) : (emit evs s).respCode = s.respCode := rfl
@[simp] theorem emit_drop (evs : List BusEvent) : (emit evs s).drop = s.drop := rfl
@[simp] theorem emit_backlight (evs : List BusEvent) : (emit evs s).backlight = s.backlight := rfl
@[simp] theorem emit_resetLine (evs : List BusEvent) : (emit evs s).resetLine = s.resetLine := rfl
@[simp] theorem emit_oplCmd (evs : List BusEvent) : (emit evs s).oplCmd = s.oplCmd := rfl
@[simp] theorem emit_oplArg0 (evs : List BusEvent) : (emit evs s).oplArg0 = s.oplArg0 := rfl
@[simp] theorem emit_oplArg1 (evs : List BusEvent) : (emit evs s).oplArg1 = s.oplArg1 := rfl
@[simp] theorem emit_oplArg2 (evs : List BusEvent) : (emit evs s).oplArg2 = s.oplArg2 := rfl
@[simp] theorem emit_seq (evs : List BusEvent) : (emit evs s).seq = s.seq := rfl
@[simp] theorem emit_arg0 (evs : List BusEvent) : (emit evs s).arg0 = s.arg0 := rfl
@[simp] theorem emit_arg1 (evs : List BusEvent) : (emit evs s).arg1 = s.arg1 := rfl
@[simp] theorem emit_arg2 (evs : List BusEvent) : (emit evs s).arg2 = s.arg2 := rfl
@[simp] theorem emit_trace (evs : List BusEvent) : (emit evs s).trace = s.trace ++ evs := rfl
@[simp] theorem emit_now (evs : List BusEvent) : (emit evs s).now = s.now := rfl
@[simp] theorem emit_mem (evs : List BusEvent) : (emit evs s).mem = s.mem := rfl
@[simp] theorem emit_raced (evs : List BusEvent) : (emit evs s).raced = s.raced := rfl
@[simp] theorem emit_schedule (evs : List BusEvent) : (emit evs s).schedule = s.schedule := rfl
@[simp] theorem emit_hostOps (evs : List BusEvent) : (emit evs s).hostOps = s.hostOps := rfl
@[simp] theorem emit_hostData (evs : List BusEvent) : (emit evs s).hostData = s.hostData := rfl
@[simp] theorem emit_ctlSlot (evs : List BusEvent) : (emit evs s).ctlSlot = s.ctlSlot := rfl
@[simp] theorem emit_tick (evs : List BusEvent) : (emit evs s).tick = s.tick := rfl

/-! ### openWindow -/

@[simp] theorem openWindow_cfg (cx0 cy0 cx1 cy1 : Half) : (openWindow cx0 cy0 cx1 cy1 s).cfg = s.cfg := rfl
@[simp] theorem openWindow_rot (cx0 cy0 cx1 cy1 : Half) : (openWindow cx0 cy0 cx1 cy1 s).rot = s.rot := rfl
@[simp] theorem openWindow_effW (cx0 cy0 cx1 cy1 : Half) : (openWindow cx0 cy0 cx1 cy1 s).effW = s.effW := rfl
@[simp] theorem openWindow_effH (cx0 cy0 cx1 cy1 : Half) : (openWindow cx0 cy0 cx1 cy1 s).effH = s.effH := rfl
@[simp] theorem openWindow_winX0 (cx0 cy0 cx1 cy1 : Half) : (openWindow cx0 cy0 cx1 cy1 s).winX0 = cx0 := rfl
@[simp] theorem openWindow_winY0 (cx0 cy0 cx1 cy1 : Half) : (openWindow cx0 cy0 cx1 cy1 s).winY0 = cy0 := rfl
@[simp] theorem openWindow_winX1 (cx0 cy0 cx1 cy1 : Half) : (openWindow cx0 cy0 cx1 cy1 s).winX1 = cx1 := rfl
@[simp] theorem openWindow_winY1 (cx0 cy0 cx1 cy1 : Half) : (openWindow cx0 cy0 cx1 cy1 s).winY1 = cy1 := rfl
@[simp] theorem openWindow_winArmed (cx0 cy0 cx1 cy1 : Half) : (openWindow cx0 cy0 cx1 cy1 s).winArmed = true := rfl
@[simp] theorem openWindow_job (cx0 cy0 cx1 cy1 : Half) : (openWindow cx0 cy0 cx1 cy1 s).job = s.job := rfl
@[simp] theorem openWindow_asyncAvail (cx0 cy0 cx1 cy1 : Half) : (openWindow cx0 cy0 cx1 cy1 s).asyncAvail = s.asyncAvail := rfl
@[simp] theorem openWindow_timeoutMs (cx0 cy0 cx1 cy1 : Half) : (openWindow cx0 cy0 cx1 cy1 s).timeoutMs = s.timeoutMs := rfl
@[simp] theorem openWindow_totalPx (cx0 cy0 cx1 cy1 : Half) : (openWindow cx0 cy0 cx1 cy1 s).totalPx = s.totalPx := rfl
@[simp] theorem openWindow_donePx (cx0 cy0 cx1 cy1 : Half) : (openWindow cx0 cy0 cx1 cy1 s).donePx = s.donePx := rfl
@[simp] theorem openWindow_curPx (cx0 cy0 cx1 cy1 : Half) : (openWindow cx0 cy0 cx1 cy1 s).curPx = s.curPx := rfl
@[simp] theorem openWindow_chunkMax (cx0 cy0 cx1 cy1 : Half) : (openWindow cx0 cy0 cx1 cy1 s).chunkMax = s.chunkMax := rfl
@[simp] theorem openWindow_src (cx0 cy0 cx1 cy1 : Half) : (openWindow cx0 cy0 cx1 cy1 s).src = s.src := rfl
@[simp] theorem openWindow_prefilled (cx0 cy0 cx1 cy1 : Half) : (openWindow cx0 cy0 cx1 cy1 s).prefilled = s.prefilled := rfl
@[simp] theorem openWindow_tStart (cx0 cy0 cx1 cy1 : Half) : (openWindow cx0 cy0 cx1 cy1 s).tStart = s.tStart := rfl
@[simp] theorem openWindow_tmo (cx0 cy0 cx1 cy1 : Half) : (openWindow cx0 cy0 cx1 cy1 s).tmo = s.tmo := rfl
@[simp] theorem openWindow_completionPending (cx0 cy0 cx1 cy1 : Half) : (openWindow cx0 cy0 cx1 cy1 s).completionPending = s.completionPending := rfl
@[simp] theorem openWindow_dmaActive (cx0 cy0 cx1 cy1 : Half) : (openWindow cx0 cy0 cx1 cy1 s).dmaActive = s.dmaActive := rfl
@[simp] theorem openWindow_dmaLen (cx0 cy0 cx1 cy1 : Half) : (openWindow cx0 cy0 cx1 cy1 s).dmaLen = s.dmaLen := rfl
@[simp] theorem openWindow_dmaSent (cx0 cy0 cx1 cy1 : Half) : (openWindow cx0 cy0 cx1 cy1 s).dmaSent = s.dmaSent := rfl
@[simp] theorem openWindow_dmaFate (cx0 cy0 cx1 cy1 : Half) : (openWindow cx0 cy0 cx1 cy1 s).dmaFate = s.dmaFate := rfl
@[simp] theorem openWindow_scratch (cx0 cy0 cx1 cy1 : Half) : (openWindow cx0 cy0 cx1 cy1 s).scratch = s.scratch := rfl
@[simp] theorem openWindow_respValid (cx0 cy0 cx1 cy1 : Half) : (openWindow cx0 cy0 cx1 cy1 s).respValid = s.respValid := rfl
@[simp] theorem openWindow_respCode (cx0 cy0 cx1 cy1 : Half) : (openWindow cx0 cy0 cx1 cy1 s).respCode = s.respCode := rfl
@[simp] theorem openWindow_drop (cx0 cy0 cx1 cy1 : Half) : (openWindow cx0 cy0 cx1 cy1 s).drop = s.drop := rfl
@[simp] theorem openWindow_backlight (cx0 cy0 cx1 cy1 : Half) : (openWindow cx0 cy0 cx1 cy1 s).backlight = s.backlight := rfl
@[simp] theorem openWindow_resetLine (cx0 cy0 cx1 cy1 : Half) : (openWindow cx0 cy0 cx1 cy1 s).resetLine = s.resetLine := rfl
@[simp] theorem openWindow_oplCmd (cx0 cy0 cx1 cy1 : Half) : (openWindow cx0 cy0 cx1 cy1 s).oplCmd = s.oplCmd := rfl
@[simp] theorem openWindow_oplArg0 (cx0 cy0 cx1 cy1 : Half) : (openWindow cx0 cy0 cx1 cy1 s).oplArg0 = s.oplArg0 := rfl
@[simp] theorem openWindow_oplArg1 (cx0 cy0 cx1 cy1 : Half) : (openWindow cx0 cy0 cx1 cy1 s).oplArg1 = s.oplArg1 := rfl
@[simp] theorem openWindow_oplArg2 (cx0 cy0 cx1 cy1 : Half) : (openWindow cx0 cy0 cx1 cy1 s).oplArg2 = s.oplArg2 := rfl
@[simp] theorem openWindow_seq (cx0 cy0 cx1 cy1 : Half) : (openWindow cx0 cy0 cx1 cy1 s).seq = s.seq := rfl
@[simp] theorem openWindow_arg0 (cx0 cy0 cx1 cy1 : Half) : (openWindow cx0 cy0 cx1 cy1 s).arg0 = s.arg0 := rfl
@[simp] theorem openWindow_arg1 (cx0 cy0 cx1 cy1 : Half) : (openWindow cx0 cy0 cx1 cy1 s).arg1 = s.arg1 := rfl
@[simp] theorem openWindow_arg2 (cx0 cy0 cx1 cy1 : Half) : (openWindow cx0 cy0 cx1 cy1 s).arg2 = s.arg2 := rfl
@[simp] theorem openWindow_trace (cx0 cy0 cx1 cy1 : Half) : (openWindow cx0 cy0 cx1 cy1 s).trace = s.trace ++ windowEvents cx0 cy0 cx1 cy1 := rfl
@[simp] theorem openWindow_now (cx0 cy0 cx1 cy1 : Half) : (openWindow cx0 cy0 cx1 cy1 s).now = s.now := rfl
@[simp] theorem openWindow_mem (cx0 cy0 cx1 cy1 : Half) : (openWindow cx0 cy0 cx1 cy1 s).mem = s.mem := rfl
@[simp] theorem openWindow_raced (cx0 cy0 cx1 cy1 : Half) : (openWindow cx0 cy0 cx1 cy1 s).raced = s.raced := rfl
@[simp] theorem openWindow_schedule (cx0 cy0 cx1 cy1 : Half) : (openWindow cx0 cy0 cx1 cy1 s).schedule = s.schedule := rfl
@[simp] theorem openWindow_hostOps (cx0 cy0 cx1 cy1 : Half) : (openWindow cx0 cy0 cx1 cy1 s).hostOps = s.hostOps := rfl
@[simp] theorem openWindow_hostData (cx0 cy0 cx1 cy1 : Half) : (openWindow cx0 cy0 cx1 cy1 s).hostData = s.hostData := rfl
@[simp] theorem openWindow_ctlSlot (cx0 cy0 cx1 cy1 : Half) : (openWindow cx0 cy0 cx1 cy1 s).ctlSlot = s.ctlSlot := rfl
@[simp] theorem openWindow_tick (cx0 cy0 cx1 cy1 : Half) : (openWindow cx0 cy0 cx1 cy1 s).tick = s.tick := rfl

/-! ### respond -/

@[simp] theorem respond_cfg (code : RespCode) : (respond code s).cfg = s.cfg := rfl
@[simp] theorem respond_rot (code : RespCode) : (respond code s).rot = s.rot := rfl
@[simp] theorem respond_effW (code : RespCode) : (respond code s).effW = s.effW := rfl
@[simp] theorem respond_effH (code : RespCode) : (respond code s).effH = s.effH := rfl
@[simp] theorem respond_winX0 (code : RespCode) : (respond code s).winX0 = s.winX0 := rfl
@[simp] theorem respond_winY0 (code : RespCode) : (respond code s).winY0 = s.winY0 := rfl
@[simp] theorem respond_winX1 (code : RespCode) : (respond code s).winX1 = s.winX1 := rfl
@[simp] theorem respond_winY1 (code : RespCode) : (respond code s).winY1 = s.winY1 := rfl
@[simp] theorem respond_winArmed (code : RespCode) : (respond code s).winArmed = s.winArmed := rfl
@[simp] theorem respond_job (code : RespCode) : (respond code s).job = s.job := rfl
@[simp] theorem respond_asyncAvail (code : RespCode) : (respond code s).asyncAvail = s.asyncAvail := rfl
@[simp] theorem respond_timeoutMs (code : RespCode) : (respond code s).timeoutMs = s.timeoutMs := rfl
@[simp] theorem respond_totalPx (code : RespCode) : (respond code s).totalPx = s.totalPx := rfl
@[simp] theorem respond_donePx (code : RespCode) : (respond code s).donePx = s.donePx := rfl
@[simp] theorem respond_curPx (code : RespCode) : (respond code s).curPx = s.curPx := rfl
@[simp] theorem respond_chunkMax (code : RespCode) : (respond code s).chunkMax = s.chunkMax := rfl
@[simp] theorem respond_src (code : RespCode) : (respond code s).src = s.src := rfl
@[simp] theorem respond_prefilled (code : RespCode) : (respond code s).prefilled = s.prefilled := rfl
@[simp] theorem respond_tStart (code : RespCode) : (respond code s).tStart = s.tStart := rfl
@[simp] theorem respond_tmo (code : RespCode) : (respond code s).tmo = s.tmo := rfl
@[simp] theorem respond_completionPending (code : RespCode) : (respond code s).completionPending = s.completionPending := rfl
@[simp] theorem respond_dmaActive (code : RespCode) : (respond code s).dmaActive = s.dmaActive := rfl
@[simp] theorem respond_dmaLen (code : RespCode) : (respond code s).dmaLen = s.dmaLen := rfl
@[simp] theorem respond_dmaSent (code : RespCode) : (respond code s).dmaSent = s.dmaSent := rfl
@[simp] theorem respond_dmaFate (code : RespCode) : (respond code s).dmaFate = s.dmaFate := rfl
@[simp] theorem respond_scratch (code : RespCode) : (respond code s).scratch = s.scratch := rfl
@[simp] theorem respond_respValid (code : RespCode) : (respond code s).respValid = true := rfl
@[simp] theorem respond_respCode (code : RespCode) : (respond code s).respCode = code := rfl
@[simp] theorem respond_drop (code : RespCode) : (respond code s).drop = s.drop := rfl
@[simp] theorem respond_backlight (code : RespCode) : (respond code s).backlight = s.backlight := rfl
@[simp] theorem respond_resetLine (code : RespCode) : (respond code s).resetLine = s.resetLine := rfl
@[simp] theorem respond_oplCmd (code : RespCode) : (respond code s).oplCmd = s.oplCmd := rfl
@[simp] theorem respond_oplArg0 (code : RespCode) : (respond code s).oplArg0 = s.oplArg0 := rfl
@[simp] theorem respond_oplArg1 (code : RespCode) : (respond code s).oplArg1 = s.oplArg1 := rfl
@[simp] theorem respond_oplArg2 (code : RespCode) : (respond code s).oplArg2 = s.oplArg2 := rfl
@[simp] theorem respond_seq (code : RespCode) : (respond code s).seq = .idle := rfl
@[simp] theorem respond_arg0 (code : RespCode) : (respond code s).arg0 = s.arg0 := rfl
@[simp] theorem respond_arg1 (code : RespCode) : (respond code s).arg1 = s.arg1 := rfl
@[simp] theorem respond_arg2 (code : RespCode) : (respond code s).arg2 = s.arg2 := rfl
@[simp] theorem respond_trace (code : RespCode) : (respond code s).trace = s.trace := rfl
@[simp] theorem respond_now (code : RespCode) : (respond code s).now = s.now := rfl
@[simp] theorem respond_mem (code : RespCode) : (respond code s).mem = s.mem := rfl
@[simp] theorem respond_raced (code : RespCode) : (respond code s).raced = s.raced := rfl
@[simp] theorem respond_schedule (code : RespCode) : (respond code s).schedule = s.schedule := rfl
@[simp] theorem respond_hostOps (code : RespCode) : (respond code s).hostOps = s.hostOps := rfl
@[simp] theorem respond_hostData (code : RespCode) : (respond code s).hostData = s.hostData := rfl
@[simp] theorem respond_ctlSlot (code : RespCode) : (respond code s).ctlSlot = s.ctlSlot := rfl
@[simp] theorem respond_tick (code : RespCode) : (respond code s).tick = s.tick := rfl

/-! ### streamEnd -/

@[simp] theorem streamEnd_cfg (code : RespCode) : (streamEnd code s).cfg = s.cfg := rfl
@[simp] theorem streamEnd_rot (code : RespCode) : (streamEnd code s).rot = s.rot := rfl
@[simp] theorem streamEnd_effW (code : RespCode) : (streamEnd code s).effW = s.effW := rfl
@[simp] theorem streamEnd_effH (code : RespCode) : (streamEnd code s).effH = s.effH := rfl
@[simp] theorem streamEnd_winX0 (code : RespCode) : (streamEnd code s).winX0 = s.winX0 := rfl
@[simp] theorem streamEnd_winY0 (code : RespCode) : (streamEnd code s).winY0 = s.winY0 := rfl
@[simp] theorem streamEnd_winX1 (code : RespCode) : (streamEnd code s).winX1 = s.winX1 := rfl
@[simp] theorem streamEnd_winY1 (code : RespCode) : (streamEnd code s).winY1 = s.winY1 := rfl
@[simp] theorem streamEnd_winArmed (code : RespCode) : (streamEnd code s).winArmed = false := rfl
@[simp] theorem streamEnd_job (code : RespCode) : (streamEnd code s).job = s.job := rfl
@[simp] theorem streamEnd_asyncAvail (code : RespCode) : (streamEnd code s).asyncAvail = s.asyncAvail := rfl
@[simp] theorem streamEnd_timeoutMs (code : RespCode) : (streamEnd code s).timeoutMs = s.timeoutMs := rfl
@[simp] theorem streamEnd_totalPx (code : RespCode) : (streamEnd code s).totalPx = s.totalPx := rfl
@[simp] theorem streamEnd_donePx (code : RespCode) : (streamEnd code s).donePx = s.donePx := rfl
@[simp] theorem streamEnd_curPx (code : RespCode) : (streamEnd code s).curPx = s.curPx := rfl
@[simp] theorem streamEnd_chunkMax (code : RespCode) : (streamEnd code s).chunkMax = s.chunkMax := rfl
@[simp] theorem streamEnd_src (code : RespCode) : (streamEnd code s).src = s.src := rfl
@[simp] theorem streamEnd_prefilled (code : RespCode) : (streamEnd code s).prefilled = s.prefilled := rfl
@[simp] theorem streamEnd_tStart (code : RespCode) : (streamEnd code s).tStart = s.tStart := rfl
@[simp] theorem streamEnd_tmo (code : RespCode) : (streamEnd code s).tmo = s.tmo := rfl
@[simp] theorem streamEnd_completionPending (code : RespCode) : (streamEnd code s).completionPending = s.completionPending := rfl
@[simp] theorem streamEnd_dmaActive (code : RespCode) : (streamEnd code s).dmaActive = s.dmaActive := rfl
@[simp] theorem streamEnd_dmaLen (code : RespCode) : (streamEnd code s).dmaLen = s.dmaLen := rfl
@[simp] theorem streamEnd_dmaSent (code : RespCode) : (streamEnd code s).dmaSent = s.dmaSent := rfl
@[simp] theorem streamEnd_dmaFate (code : RespCode) : (streamEnd code s).dmaFate = s.dmaFate := rfl
@[simp] theorem streamEnd_scratch (code : RespCode) : (streamEnd code s).scratch = s.scratch := rfl
@[simp] theorem streamEnd_respValid (code : RespCode) : (streamEnd code s).respValid = true := rfl
@[simp] theorem streamEnd_respCode (code : RespCode) : (streamEnd code s).respCode = code := rfl
@[simp] theorem streamEnd_drop (code : RespCode) : (streamEnd code s).drop = s.drop := rfl
@[simp] theorem streamEnd_backlight (code : RespCode) : (streamEnd code s).backlight = s.backlight := rfl
@[simp] theorem streamEnd_resetLine (code : RespCode) : (streamEnd code s).resetLine = s.resetLine := rfl
@[simp] theorem streamEnd_oplCmd (code : RespCode) : (streamEnd code s).oplCmd = s.oplCmd := rfl
@[simp] theorem streamEnd_oplArg0 (code : RespCode) : (streamEnd code s).oplArg0 = s.oplArg0 := rfl
@[simp] theorem streamEnd_oplArg1 (code : RespCode) : (streamEnd code s).oplArg1 = s.oplArg1 := rfl
@[simp] theorem streamEnd_oplArg2 (code : RespCode) : (streamEnd code s).oplArg2 = s.oplArg2 := rfl
@[simp] theorem streamEnd_seq (code : RespCode) : (streamEnd code s).seq = .idle := rfl
@[simp] theorem streamEnd_arg0 (code : RespCode) : (streamEnd code s).arg0 = s.arg0 := rfl
@[simp] theorem streamEnd_arg1 (code : RespCode) : (streamEnd code s).arg1 = s.arg1 := rfl
@[simp] theorem streamEnd_arg2 (code : RespCode) : (streamEnd code s).arg2 = s.arg2 := rfl
@[simp] theorem streamEnd_trace (code : RespCode) : (streamEnd code s).trace = s.trace := rfl
@[simp] theorem streamEnd_now (code : RespCode) : (streamEnd code s).now = s.now := rfl
@[simp] theorem streamEnd_mem (code : RespCode) : (streamEnd code s).mem = s.mem := rfl
@[simp] theorem streamEnd_raced (code : RespCode) : (streamEnd code s).raced = s.raced := rfl
@[simp] theorem streamEnd_schedule (code : RespCode) : (streamEnd code s).schedule = s.schedule := rfl
@[simp] theorem streamEnd_hostOps (code : RespCode) : (streamEnd code s).hostOps = s.hostOps := rfl
@[simp] theorem streamEnd_hostData (code : RespCode) : (streamEnd code s).hostData = s.hostData := rfl
@[simp] theorem streamEnd_ctlSlot (code : RespCode) : (streamEnd code s).ctlSlot = s.ctlSlot := rfl
@[simp] theorem streamEnd_tick (code : RespCode) : (streamEnd code s).tick = s.tick := rfl

/-! ### consume -/

@[simp] theorem consume_cfg : (consume s).cfg = s.cfg := rfl
@[simp] theorem consume_rot : (consume s).rot = s.rot := rfl
@[simp] theorem consume_effW : (consume s).effW = s.effW := rfl
@[simp] theorem consume_effH : (consume s).effH = s.effH := rfl
@[simp] theorem consume_winX0 : (consume s).winX0 = s.winX0 := rfl
@[simp] theorem consume_winY0 : (consume s).winY0 = s.winY0 := rfl
@[simp] theorem consume_winX1 : (consume s).winX1 = s.winX1 := rfl
@[simp] theorem consume_winY1 : (consume s).winY1 = s.winY1 := rfl
@[simp] theorem consume_winArmed : (consume s).winArmed = s.winArmed := rfl
@[simp] theorem consume_job : (consume s).job = consumedJob s.job := rfl
@[simp] theorem consume_asyncAvail : (consume s).asyncAvail = s.asyncAvail := rfl
@[simp] theorem consume_timeoutMs : (consume s).timeoutMs = s.timeoutMs := rfl
@[simp] theorem consume_totalPx : (consume s).totalPx = s.totalPx := rfl
@[simp] theorem consume_donePx : (consume s).donePx = s.donePx := rfl
@[simp] theorem consume_curPx : (consume s).curPx = s.curPx := rfl
@[simp] theorem consume_chunkMax : (consume s).chunkMax = s.chunkMax := rfl
@[simp] theorem consume_src : (consume s).src = s.src := rfl
@[simp] theorem consume_prefilled : (consume s).prefilled = s.prefilled := rfl
@[simp] theorem consume_tStart : (consume s).tStart = s.tStart := rfl
@[simp] theorem consume_tmo : (consume s).tmo = s.tmo := rfl
@[simp] theorem consume_completionPending : (consume s).completionPending = s.completionPending := rfl
@[simp] theorem consume_dmaActive : (consume s).dmaActive = s.dmaActive := rfl
@[simp] theorem consume_dmaLen : (consume s).dmaLen = s.dmaLen := rfl
@[simp] theorem consume_dmaSent : (consume s).dmaSent = s.dmaSent := rfl
@[simp] theorem consume_dmaFate : (consume s).dmaFate = s.dmaFate := rfl
@[simp] theorem consume_scratch : (consume s).scratch = s.scratch := rfl
@[simp] theorem consume_respValid : (consume s).respValid = false := rfl
@[simp] theorem consume_respCode : (consume s).respCode = s.respCode := rfl
@[simp] theorem consume_drop : (consume s).drop = s.drop := rfl
@[simp] theorem consume_backlight : (consume s).backlight = s.backlight := rfl
@[simp] theorem consume_resetLine : (consume s).resetLine = s.resetLine := rfl
@[simp] theorem consume_oplCmd : (consume s).oplCmd = s.oplCmd := rfl
@[simp] theorem consume_oplArg0 : (consume s).oplArg0 = s.oplArg0 := rfl
@[simp] theorem consume_oplArg1 : (consume s).oplArg1 = s.oplArg1 := rfl
@[simp] theorem consume_oplArg2 : (consume s).oplArg2 = s.oplArg2 := rfl
@[simp] theorem consume_seq : (consume s).seq = s.seq := rfl
@[simp] theorem consume_arg0 : (consume s).arg0 = s.arg0 := rfl
@[simp] theorem consume_arg1 : (consume s).arg1 = s.arg1 := rfl
@[simp] theorem consume_arg2 : (consume s).arg2 = s.arg2 := rfl
@[simp] theorem consume_trace : (consume s).trace = s.trace := rfl
@[simp] theorem consume_now : (consume s).now = s.now := rfl
@[simp] theorem consume_mem : (consume s).mem = s.mem := rfl
@[simp] theorem consume_raced : (consume s).raced = s.raced := rfl
@[simp] theorem consume_schedule : (consume s).schedule = s.schedule := rfl
@[simp] theorem consume_hostOps : (consume s).hostOps = s.hostOps := rfl
@[simp] theorem consume_hostData : (consume s).hostData = s.hostData := rfl
@[simp] theorem consume_ctlSlot : (consume s).ctlSlot = s.ctlSlot := rfl
@[simp] theorem consume_tick : (consume s).tick = s.tick := rfl

/-! ### abort -/

@[simp] theorem abort_cfg : (abort s).cfg = s.cfg := rfl
@[simp] theorem abort_rot : (abort s).rot = s.rot := rfl
@[simp] theorem abort_effW : (abort s).effW = s.effW := rfl
@[simp] theorem abort_effH : (abort s).effH = s.effH := rfl
@[simp] theorem abort_winX0 : (abort s).winX0 = s.winX0 := rfl
@[simp] theorem abort_winY0 : (abort s).winY0 = s.winY0 := rfl
@[simp] theorem abort_winX1 : (abort s).winX1 = s.winX1 := rfl
@[simp] theorem abort_winY1 : (abort s).winY1 = s.winY1 := rfl
@[simp] theorem abort_winArmed : (abort s).winArmed = s.winArmed := rfl
@[simp] theorem abort_job : (abort s).job = s.job := rfl
@[simp] theorem abort_asyncAvail : (abort s).asyncAvail = s.asyncAvail := rfl
@[simp] theorem abort_timeoutMs : (abort s).timeoutMs = s.timeoutMs := rfl
@[simp] theorem abort_totalPx : (abort s).totalPx = s.totalPx := rfl
@[simp] theorem abort_donePx : (abort s).donePx = s.donePx := rfl
@[simp] theorem abort_curPx : (abort s).curPx = s.curPx := rfl
@[simp] theorem abort_chunkMax : (abort s).chunkMax = s.chunkMax := rfl
@[simp] theorem abort_src : (abort s).src = s.src := rfl
@[simp] theorem abort_prefilled : (abort s).prefilled = s.prefilled := rfl
@[simp] theorem abort_tStart : (abort s).tStart = s.tStart := rfl
@[simp] theorem abort_tmo : (abort s).tmo = s.tmo := rfl
@[simp] theorem abort_completionPending : (abort s).completionPending = false := rfl
@[simp] theorem abort_dmaActive : (abort s).dmaActive = false := rfl
@[simp] theorem abort_dmaLen : (abort s).dmaLen = s.dmaLen := rfl
@[simp] theorem abort_dmaSent : (abort s).dmaSent = s.dmaSent := rfl
@[simp] theorem abort_dmaFate : (abort s).dmaFate = s.dmaFate := rfl
@[simp] theorem abort_scratch : (abort s).scratch = s.scratch := rfl
@[simp] theorem abort_respValid : (abort s).respValid = s.respValid := rfl
@[simp] theorem abort_respCode : (abort s).respCode = s.respCode := rfl
@[simp] theorem abort_drop : (abort s).drop = s.drop := rfl
@[simp] theorem abort_backlight : (abort s).backlight = s.backlight := rfl
@[simp] theorem abort_resetLine : (abort s).resetLine = s.resetLine := rfl
@[simp] theorem abort_oplCmd : (abort s).oplCmd = s.oplCmd := rfl
@[simp] theorem abort_oplArg0 : (abort s).oplArg0 = s.oplArg0 := rfl
@[simp] theorem abort_oplArg1 : (abort s).oplArg1 = s.oplArg1 := rfl
@[simp] theorem abort_oplArg2 : (abort s).oplArg2 = s.oplArg2 := rfl
@[simp] theorem abort_seq : (abort s).seq = s.seq := rfl
@[simp] theorem abort_arg0 : (abort s).arg0 = s.arg0 := rfl
@[simp] theorem abort_arg1 : (abort s).arg1 = s.arg1 := rfl
@[simp] theorem abort_arg2 : (abort s).arg2 = s.arg2 := rfl
@[simp] theorem abort_trace : (abort s).trace = if s.dmaActive && decide (s.dmaSent < s.dmaLen) then s.trace ++ [.endTx] else s.trace := rfl
@[simp] theorem abort_now : (abort s).now = s.now := rfl
@[simp] theorem abort_mem : (abort s).mem = s.mem := rfl
@[simp] theorem abort_raced : (abort s).raced = s.raced := rfl
@[simp] theorem abort_schedule : (abort s).schedule = s.schedule := rfl
@[simp] theorem abort_hostOps : (abort s).hostOps = s.hostOps := rfl
@[simp] theorem abort_hostData : (abort s).hostData = s.hostData := rfl
@[simp] theorem abort_ctlSlot : (abort s).ctlSlot = s.ctlSlot := rfl
@[simp] theorem abort_tick : (abort s).tick = s.tick := rfl

/-! ### asyncSetup -/

@[simp] theorem asyncSetup_cfg (n : Nat) (p : PixelSource) : (asyncSetup n p s).cfg = s.cfg := rfl
@[simp] theorem asyncSetup_rot (n : Nat) (p : PixelSource) : (asyncSetup n p s).rot = s.rot := rfl
@[simp] theorem asyncSetup_effW (n : Nat) (p : PixelSource) : (asyncSetup n p s).effW = s.effW := rfl
@[simp] theorem asyncSetup_effH (n : Nat) (p : PixelSource) : (asyncSetup n p s).effH = s.effH := rfl
@[simp] theorem asyncSetup_winX0 (n : Nat) (p : PixelSource) : (asyncSetup n p s).winX0 = s.winX0 := rfl
@[simp] theorem asyncSetup_winY0 (n : Nat) (p : PixelSource) : (asyncSetup n p s).winY0 = s.winY0 := rfl
@[simp] theorem asyncSetup_winX1 (n : Nat) (p : PixelSource) : (asyncSetup n p s).winX1 = s.winX1 := rfl
@[simp] theorem asyncSetup_winY1 (n : Nat) (p : PixelSource) : (asyncSetup n p s).winY1 = s.winY1 := rfl
@[simp] theorem asyncSetup_winArmed (n : Nat) (p : PixelSource) : (asyncSetup n p s).winArmed = s.winArmed := rfl
@[simp] theorem asyncSetup_job (n : Nat) (p : PixelSource) : (asyncSetup n p s).job = s.job := rfl
@[simp] theorem asyncSetup_asyncAvail (n : Nat) (p : PixelSource) : (asyncSetup n p s).asyncAvail = s.asyncAvail := rfl
@[simp] theorem asyncSetup_timeoutMs (n : Nat) (p : PixelSource) : (asyncSetup n p s).timeoutMs = s.timeoutMs := rfl
@[simp] theorem asyncSetup_totalPx (n : Nat) (p : PixelSource) : (asyncSetup n p s).totalPx = BitVec.ofNat 32 n := rfl
@[simp] theorem asyncSetup_donePx (n : Nat) (p : PixelSource) : (asyncSetup n p s).donePx = 0 := rfl
@[simp] theorem asyncSetup_curPx (n : Nat) (p : PixelSource) : (asyncSetup n p s).curPx = s.curPx := rfl
@[simp] theorem asyncSetup_chunkMax (n : Nat) (p : PixelSource) : (asyncSetup n p s).chunkMax = s.chunkMax := rfl
@[simp] theorem asyncSetup_src (n : Nat) (p : PixelSource) : (asyncSetup n p s).src = p := rfl
@[simp] theorem asyncSetup_prefilled (n : Nat) (p : PixelSource) : (asyncSetup n p s).prefilled = false := rfl
@[simp] theorem asyncSetup_tStart (n : Nat) (p : PixelSource) : (asyncSetup n p s).tStart = s.tStart := rfl
@[simp] theorem asyncSetup_tmo (n : Nat) (p : PixelSource) : (asyncSetup n p s).tmo = s.tmo := rfl
@[simp] theorem asyncSetup_completionPending (n : Nat) (p : PixelSource) : (asyncSetup n p s).completionPending = s.completionPending := rfl
@[simp] theorem asyncSetup_dmaActive (n : Nat) (p : PixelSource) : (asyncSetup n p s).dmaActive = s.dmaActive := rfl
@[simp] theorem asyncSetup_dmaLen (n : Nat) (p : PixelSource) : (asyncSetup n p s).dmaLen = s.dmaLen := rfl
@[simp] theorem asyncSetup_dmaSent (n : Nat) (p : PixelSource) : (asyncSetup n p s).dmaSent = s.dmaSent := rfl
@[simp] theorem asyncSetup_dmaFate (n : Nat) (p : PixelSource) : (asyncSetup n p s).dmaFate = s.dmaFate := rfl
@[simp] theorem asyncSetup_scratch (n : Nat) (p : PixelSource) : (asyncSetup n p s).scratch = s.scratch := rfl
@[simp] theorem asyncSetup_respValid (n : Nat) (p : PixelSource) : (asyncSetup n p s).respValid = s.respValid := rfl
@[simp] theorem asyncSetup_respCode (n : Nat) (p : PixelSource) : (asyncSetup n p s).respCode = s.respCode := rfl
@[simp] theorem asyncSetup_drop (n : Nat) (p : PixelSource) : (asyncSetup n p s).drop = s.drop := rfl
@[simp] theorem asyncSetup_backlight (n : Nat) (p : PixelSource) : (asyncSetup n p s).backlight = s.backlight := rfl
@[simp] theorem asyncSetup_resetLine (n : Nat) (p : PixelSource) : (asyncSetup n p s).resetLine = s.resetLine := rfl
@[simp] theorem asyncSetup_oplCmd (n : Nat) (p : PixelSource) : (asyncSetup n p s).oplCmd = s.oplCmd := rfl
@[simp] theorem asyncSetup_oplArg0 (n : Nat) (p : PixelSource) : (asyncSetup n p s).oplArg0 = s.oplArg0 := rfl
@[simp] theorem asyncSetup_oplArg1 (n : Nat) (p : PixelSource) : (asyncSetup n p s).oplArg1 = s.oplArg1 := rfl
@[simp] theorem asyncSetup_oplArg2 (n : Nat) (p : PixelSource) : (asyncSetup n p s).oplArg2 = s.oplArg2 := rfl
@[simp] theorem asyncSetup_seq (n : Nat) (p : PixelSource) : (asyncSetup n p s).seq = .stage := rfl
@[simp] theorem asyncSetup_arg0 (n : Nat) (p : PixelSource) : (asyncSetup n p s).arg0 = s.arg0 := rfl
@[simp] theorem asyncSetup_arg1 (n : Nat) (p : PixelSource) : (asyncSetup n p s).arg1 = s.arg1 := rfl
@[simp] theorem asyncSetup_arg2 (n : Nat) (p : PixelSource) : (asyncSetup n p s).arg2 = s.arg2 := rfl
@[simp] theorem asyncSetup_trace (n : Nat) (p : PixelSource) : (asyncSetup n p s).trace = s.trace := rfl
@[simp] theorem asyncSetup_now (n : Nat) (p : PixelSource) : (asyncSetup n p s).now = s.now := rfl
@[simp] theorem asyncSetup_mem (n : Nat) (p : PixelSource) : (asyncSetup n p s).mem = s.mem := rfl
@[simp] theorem asyncSetup_raced (n : Nat) (p : PixelSource) : (asyncSetup n p s).raced = s.raced := rfl
@[simp] theorem asyncSetup_schedule (n : Nat) (p : PixelSource) : (asyncSetup n p s).schedule = s.schedule := rfl
@[simp] theorem asyncSetup_hostOps (n : Nat) (p : PixelSource) : (asyncSetup n p s).hostOps = s.hostOps := rfl
@[simp] theorem asyncSetup_hostData (n : Nat) (p : PixelSource) : (asyncSetup n p s).hostData = s.hostData := rfl
@[simp] theorem asyncSetup_ctlSlot (n : Nat) (p : PixelSource) : (asyncSetup n p s).ctlSlot = s.ctlSlot := rfl
@[simp] theorem asyncSetup_tick (n : Nat) (p : PixelSource) : (asyncSetup n p s).tick = s.tick := rfl

/-! ### dmaStart -/

@[simp] theorem dmaStart_cfg (len : Word) : (dmaStart len s).cfg = s.cfg := rfl
@[simp] theorem dmaStart_rot (len : Word) : (dmaStart len s).rot = s.rot := rfl
@[simp] theorem dmaStart_effW (len : Word) : (dmaStart len s).effW = s.effW := rfl
@[simp] theorem dmaStart_effH (len : Word) : (dmaStart len s).effH = s.effH := rfl
@[simp] theorem dmaStart_winX0 (len : Word) : (dmaStart len s).winX0 = s.winX0 := rfl
@[simp] theorem dmaStart_winY0 (len : Word) : (dmaStart len s).winY0 = s.winY0 := rfl
@[simp] theorem dmaStart_winX1 (len : Word) : (dmaStart len s).winX1 = s.winX1 := rfl
@[simp] theorem dmaStart_winY1 (len : Word) : (dmaStart len s).winY1 = s.winY1 := rfl
@[simp] theorem dmaStart_winArmed (len : Word) : (dmaStart len s).winArmed = s.winArmed := rfl
@[simp] theorem dmaStart_job (len : Word) : (dmaStart len s).job = s.job := rfl
@[simp] theorem dmaStart_asyncAvail (len : Word) : (dmaStart len s).asyncAvail = s.asyncAvail := rfl
@[simp] theorem dmaStart_timeoutMs (len : Word) : (dmaStart len s).timeoutMs = s.timeoutMs := rfl
@[simp] theorem dmaStart_totalPx (len : Word) : (dmaStart len s).totalPx = s.totalPx := rfl
@[simp] theorem dmaStart_donePx (len : Word) : (dmaStart len s).donePx = s.donePx := rfl
@[simp] theorem dmaStart_curPx (len : Word) : (dmaStart len s).curPx = s.curPx := rfl
@[simp] theorem dmaStart_chunkMax (len : Word) : (dmaStart len s).chunkMax = s.chunkMax := rfl
@[simp] theorem dmaStart_src (len : Word) : (dmaStart len s).src = s.src := rfl
@[simp] theorem dmaStart_prefilled (len : Word) : (dmaStart len s).prefilled = s.prefilled := rfl
@[simp] theorem dmaStart_tStart (len : Word) : (dmaStart len s).tStart = s.tStart := rfl
@[simp] theorem dmaStart_tmo (len : Word) : (dmaStart len s).tmo = s.tmo := rfl
@[simp] theorem dmaStart_completionPending (len : Word) : (dmaStart len s).completionPending = s.completionPending := rfl
@[simp] theorem dmaStart_dmaActive (len : Word) : (dmaStart len s).dmaActive = true := rfl
@[simp] theorem dmaStart_dmaLen (len : Word) : (dmaStart len s).dmaLen = len := rfl
@[simp] theorem dmaStart_dmaSent (len : Word) : (dmaStart len s).dmaSent = 0 := rfl
@[simp] theorem dmaStart_dmaFate (len : Word) : (dmaStart len s).dmaFate = drawFate s.tick len.toNat := rfl
@[simp] theorem dmaStart_scratch (len : Word) : (dmaStart len s).scratch = s.scratch := rfl
@[simp] theorem dmaStart_respValid (len : Word) : (dmaStart len s).respValid = s.respValid := rfl
@[simp] theorem dmaStart_respCode (len : Word) : (dmaStart len s).respCode = s.respCode := rfl
@[simp] theorem dmaStart_drop (len : Word) : (dmaStart len s).drop = s.drop := rfl
@[simp] theorem dmaStart_backlight (len : Word) : (dmaStart len s).backlight = s.backlight := rfl
@[simp] theorem dmaStart_resetLine (len : Word) : (dmaStart len s).resetLine = s.resetLine := rfl
@[simp] theorem dmaStart_oplCmd (len : Word) : (dmaStart len s).oplCmd = s.oplCmd := rfl
@[simp] theorem dmaStart_oplArg0 (len : Word) : (dmaStart len s).oplArg0 = s.oplArg0 := rfl
@[simp] theorem dmaStart_oplArg1 (len : Word) : (dmaStart len s).oplArg1 = s.oplArg1 := rfl
@[simp] theorem dmaStart_oplArg2 (len : Word) : (dmaStart len s).oplArg2 = s.oplArg2 := rfl
@[simp] theorem dmaStart_seq (len : Word) : (dmaStart len s).seq = s.seq := rfl
@[simp] theorem dmaStart_arg0 (len : Word) : (dmaStart len s).arg0 = s.arg0 := rfl
@[simp] theorem dmaStart_arg1 (len : Word) : (dmaStart len s).arg1 = s.arg1 := rfl
@[simp] theorem dmaStart_arg2 (len : Word) : (dmaStart len s).arg2 = s.arg2 := rfl
@[simp] theorem dmaStart_trace (len : Word) : (dmaStart len s).trace = s.trace ++ [.beginTx] := rfl
@[simp] theorem dmaStart_now (len : Word) : (dmaStart len s).now = s.now := rfl
@[simp] theorem dmaStart_mem (len : Word) : (dmaStart len s).mem = s.mem := rfl
@[simp] theorem dmaStart_raced (len : Word) : (dmaStart len s).raced = s.raced := rfl
@[simp] theorem dmaStart_schedule (len : Word) : (dmaStart len s).schedule = s.schedule := rfl
@[simp] theorem dmaStart_hostOps (len : Word) : (dmaStart len s).hostOps = s.hostOps := rfl
@[simp] theorem dmaStart_hostData (len : Word) : (dmaStart len s).hostData = s.hostData := rfl
@[simp] theorem dmaStart_ctlSlot (len : Word) : (dmaStart len s).ctlSlot = s.ctlSlot := rfl
@[simp] theorem dmaStart_tick (len : Word) : (dmaStart len s).tick = s.tick := rfl

/-! ### advance -/

@[simp] theorem advance_cfg : (advance s).cfg = s.cfg := rfl
@[simp] theorem advance_rot : (advance s).rot = s.rot := rfl
@[simp] theorem advance_effW : (advance s).effW = s.effW := rfl
@[simp] theorem advance_effH : (advance s).effH = s.effH := rfl
@[simp] theorem advance_winX0 : (advance s).winX0 = s.winX0 := rfl
@[simp] theorem advance_winY0 : (advance s).winY0 = s.winY0 := rfl
@[simp] theorem advance_winX1 : (advance s).winX1 = s.winX1 := rfl
@[simp] theorem advance_winY1 : (advance s).winY1 = s.winY1 := rfl
@[simp] theorem advance_winArmed : (advance s).winArmed = s.winArmed := rfl
@[simp] theorem advance_job : (advance s).job = s.job := rfl
@[simp] theorem advance_asyncAvail : (advance s).asyncAvail = s.asyncAvail := rfl
@[simp] theorem advance_timeoutMs : (advance s).timeoutMs = s.timeoutMs := rfl
@[simp] theorem advance_totalPx : (advance s).totalPx = s.totalPx := rfl
@[simp] theorem advance_donePx : (advance s).donePx = s.donePx := rfl
@[simp] theorem advance_curPx : (advance s).curPx = s.curPx := rfl
@[simp] theorem advance_chunkMax : (advance s).chunkMax = s.chunkMax := rfl
@[simp] theorem advance_src : (advance s).src = s.src := rfl
@[simp] theorem advance_prefilled : (advance s).prefilled = s.prefilled := rfl
@[simp] theorem advance_tStart : (advance s).tStart = s.tStart := rfl
@[simp] theorem advance_tmo : (advance s).tmo = s.tmo := rfl
@[simp] theorem advance_completionPending : (advance s).completionPending = s.completionPending := rfl
@[simp] theorem advance_dmaActive : (advance s).dmaActive = s.dmaActive := rfl
@[simp] theorem advance_dmaLen : (advance s).dmaLen = s.dmaLen := rfl
@[simp] theorem advance_dmaSent : (advance s).dmaSent = s.dmaSent := rfl
@[simp] theorem advance_dmaFate : (advance s).dmaFate = s.dmaFate := rfl
@[simp] theorem advance_scratch : (advance s).scratch = s.scratch := rfl
@[simp] theorem advance_respValid : (advance s).respValid = s.respValid := rfl
@[simp] theorem advance_respCode : (advance s).respCode = s.respCode := rfl
@[simp] theorem advance_drop : (advance s).drop = s.drop := rfl
@[simp] theorem advance_backlight : (advance s).backlight = s.backlight := rfl
@[simp] theorem advance_resetLine : (advance s).resetLine = s.resetLine := rfl
@[simp] theorem advance_oplCmd : (advance s).oplCmd = s.oplCmd := rfl
@[simp] theorem advance_oplArg0 : (advance s).oplArg0 = s.oplArg0 := rfl
@[simp] theorem advance_oplArg1 : (advance s).oplArg1 = s.oplArg1 := rfl
@[simp] theorem advance_oplArg2 : (advance s).oplArg2 = s.oplArg2 := rfl
@[simp] theorem advance_seq : (advance s).seq = s.seq := rfl
@[simp] theorem advance_arg0 : (advance s).arg0 = s.arg0 := rfl
@[simp] theorem advance_arg1 : (advance s).arg1 = s.arg1 := rfl
@[simp] theorem advance_arg2 : (advance s).arg2 = s.arg2 := rfl
@[simp] theorem advance_trace : (advance s).trace = s.trace := rfl
@[simp] theorem advance_now : (advance s).now = s.now := rfl
@[simp] theorem advance_mem : (advance s).mem = s.mem := rfl
@[simp] theorem advance_raced : (advance s).raced = s.raced := rfl
@[simp] theorem advance_schedule : (advance s).schedule = s.schedule.tail := rfl
@[simp] theorem advance_hostOps : (advance s).hostOps = s.hostOps := rfl
@[simp] theorem advance_hostData : (advance s).hostData = s.hostData := rfl
@[simp] theorem advance_ctlSlot : (advance s).ctlSlot = s.ctlSlot := rfl
@[simp] theorem advance_tick : (advance s).tick = s.tick + 1 := rfl

/-! ### fetched -/

@[simp] theorem fetched_cfg : (fetched s).cfg = s.cfg := rfl
@[simp] theorem fetched_rot : (fetched s).rot = s.rot := rfl
@[simp] theorem fetched_effW : (fetched s).effW = s.effW := rfl
@[simp] theorem fetched_effH : (fetched s).effH = s.effH := rfl
@[simp] theorem fetched_winX0 : (fetched s).winX0 = s.winX0 := rfl
@[simp] theorem fetched_winY0 : (fetched s).winY0 = s.winY0 := rfl
@[simp] theorem fetched_winX1 : (fetched s).winX1 = s.winX1 := rfl
@[simp] theorem fetched_winY1 : (fetched s).winY1 = s.winY1 := rfl
@[simp] theorem fetched_winArmed : (fetched s).winArmed = s.winArmed := rfl
@[simp] theorem fetched_job : (fetched s).job = s.job := rfl
@[simp] theorem fetched_asyncAvail : (fetched s).asyncAvail = s.asyncAvail := rfl
@[simp] theorem fetched_timeoutMs : (fetched s).timeoutMs = s.timeoutMs := rfl
@[simp] theorem fetched_totalPx : (fetched s).totalPx = s.totalPx := rfl
@[simp] theorem fetched_donePx : (fetched s).donePx = s.donePx := rfl
@[simp] theorem fetched_curPx : (fetched s).curPx = s.curPx := rfl
@[simp] theorem fetched_chunkMax : (fetched s).chunkMax = s.chunkMax := rfl
@[simp] theorem fetched_src : (fetched s).src = s.src := rfl
@[simp] theorem fetched_prefilled : (fetched s).prefilled = s.prefilled := rfl
@[simp] theorem fetched_tStart : (fetched s).tStart = s.tStart := rfl
@[simp] theorem fetched_tmo : (fetched s).tmo = s.tmo := rfl
@[simp] theorem fetched_completionPending : (fetched s).completionPending = s.completionPending := rfl
@[simp] theorem fetched_dmaActive : (fetched s).dmaActive = s.dmaActive := rfl
@[simp] theorem fetched_dmaLen : (fetched s).dmaLen = s.dmaLen := rfl
@[simp] theorem fetched_dmaSent : (fetched s).dmaSent = s.dmaSent := rfl
@[simp] theorem fetched_dmaFate : (fetched s).dmaFate = s.dmaFate := rfl
@[simp] theorem fetched_scratch : (fetched s).scratch = s.scratch := rfl
@[simp] theorem fetched_respValid : (fetched s).respValid = s.respValid := rfl
@[simp] theorem fetched_respCode : (fetched s).respCode = s.respCode := rfl
@[simp] theorem fetched_drop : (fetched s).drop = s.drop := rfl
@[simp] theorem fetched_backlight : (fetched s).backlight = s.backlight := rfl
@[simp] theorem fetched_resetLine : (fetched s).resetLine = s.resetLine := rfl
@[simp] theorem fetched_oplCmd : (fetched s).oplCmd = s.oplCmd := rfl
@[simp] theorem fetched_oplArg0 : (fetched s).oplArg0 = s.oplArg0 := rfl
@[simp] theorem fetched_oplArg1 : (fetched s).oplArg1 = s.oplArg1 := rfl
@[simp] theorem fetched_oplArg2 : (fetched s).oplArg2 = s.oplArg2 := rfl
@[simp] theorem fetched_seq : (fetched s).seq = s.seq := rfl
@[simp] theorem fetched_arg0 : (fetched s).arg0 = s.arg0 := rfl
@[simp] theorem fetched_arg1 : (fetched s).arg1 = s.arg1 := rfl
@[simp] theorem fetched_arg2 : (fetched s).arg2 = s.arg2 := rfl
@[simp] theorem fetched_trace : (fetched s).trace = s.trace := rfl
@[simp] theorem fetched_now : (fetched s).now = s.now := rfl
@[simp] theorem fetched_mem : (fetched s).mem = s.mem := rfl
@[simp] theorem fetched_raced : (fetched s).raced = s.raced := rfl
@[simp] theorem fetched_schedule : (fetched s).schedule = s.schedule.tail := rfl
@[simp] theorem fetched_hostOps : (fetched s).hostOps = s.hostOps := rfl
@[simp] theorem fetched_hostData : (fetched s).hostData = s.hostData := rfl
@[simp] theorem fetched_ctlSlot : (fetched s).ctlSlot = none := rfl
@[simp] theorem fetched_tick : (fetched s).tick = s.tick + 1 := rfl

/-! ### turnTo -/

@[simp] theorem turnTo_cfg (r : BitVec 2) : (turnTo r s).cfg = s.cfg := rfl
@[simp] theorem turnTo_rot (r : BitVec 2) : (turnTo r s).rot = r := rfl
@[simp] theorem turnTo_effW (r : BitVec 2) : (turnTo r s).effW = (effDims s.cfg r).1 := rfl
@[simp] theorem turnTo_effH (r : BitVec 2) : (turnTo r s).effH = (effDims s.cfg r).2 := rfl
@[simp] theorem turnTo_winX0 (r : BitVec 2) : (turnTo r s).winX0 = s.winX0 := rfl
@[simp] theorem turnTo_winY0 (r : BitVec 2) : (turnTo r s).winY0 = s.winY0 := rfl
@[simp] theorem turnTo_winX1 (r : BitVec 2) : (turnTo r s).winX1 = s.winX1 := rfl
@[simp] theorem turnTo_winY1 (r : BitVec 2) : (turnTo r s).winY1 = s.winY1 := rfl
@[simp] theorem turnTo_winArmed (r : BitVec 2) : (turnTo r s).winArmed = s.winArmed := rfl
@[simp] theorem turnTo_job (r : BitVec 2) : (turnTo r s).job = s.job := rfl
@[simp] theorem turnTo_asyncAvail (r : BitVec 2) : (turnTo r s).asyncAvail = s.asyncAvail := rfl
@[simp] theorem turnTo_timeoutMs (r : BitVec 2) : (turnTo r s).timeoutMs = s.timeoutMs := rfl
@[simp] theorem turnTo_totalPx (r : BitVec 2) : (turnTo r s).totalPx = s.totalPx := rfl
@[simp] theorem turnTo_donePx (r : BitVec 2) : (turnTo r s).donePx = s.donePx := rfl
@[simp] theorem turnTo_curPx (r : BitVec 2) : (turnTo r s).curPx = s.curPx := rfl
@[simp] theorem turnTo_chunkMax (r : BitVec 2) : (turnTo r s).chunkMax = s.chunkMax := rfl
@[simp] theorem turnTo_src (r : BitVec 2) : (turnTo r s).src = s.src := rfl
@[simp] theorem turnTo_prefilled (r : BitVec 2) : (turnTo r s).prefilled = s.prefilled := rfl
@[simp] theorem turnTo_tStart (r : BitVec 2) : (turnTo r s).tStart = s.tStart := rfl
@[simp] theorem turnTo_tmo (r : BitVec 2) : (turnTo r s).tmo = s.tmo := rfl
@[simp] theorem turnTo_completionPending (r : BitVec 2) : (turnTo r s).completionPending = s.completionPending := rfl
@[simp] theorem turnTo_dmaActive (r : BitVec 2) : (turnTo r s).dmaActive = s.dmaActive := rfl
@[simp] theorem turnTo_dmaLen (r : BitVec 2) : (turnTo r s).dmaLen = s.dmaLen := rfl
@[simp] theorem turnTo_dmaSent (r : BitVec 2) : (turnTo r s).dmaSent = s.dmaSent := rfl
@[simp] theorem turnTo_dmaFate (r : BitVec 2) : (turnTo r s).dmaFate = s.dmaFate := rfl
@[simp] theorem turnTo_scratch (r : BitVec 2) : (turnTo r s).scratch = s.scratch := rfl
@[simp] theorem turnTo_respValid (r : BitVec 2) : (turnTo r s).respValid = s.respValid := rfl
@[simp] theorem turnTo_respCode (r : BitVec 2) : (turnTo r s).respCode = s.respCode := rfl
@[simp] theorem turnTo_drop (r : BitVec 2) : (turnTo r s).drop = s.drop := rfl
@[simp] theorem turnTo_backlight (r : BitVec 2) : (turnTo r s).backlight = s.backlight := rfl
@[simp] theorem turnTo_resetLine (r : BitVec 2) : (turnTo r s).resetLine = s.resetLine := rfl
@[simp] theorem turnTo_oplCmd (r : BitVec 2) : (turnTo r s).oplCmd = s.oplCmd := rfl
@[simp] theorem turnTo_oplArg0 (r : BitVec 2) : (turnTo r s).oplArg0 = s.oplArg0 := rfl
@[simp] theorem turnTo_oplArg1 (r : BitVec 2) : (turnTo r s).oplArg1 = s.oplArg1 := rfl
@[simp] theorem turnTo_oplArg2 (r : BitVec 2) : (turnTo r s).oplArg2 = s.oplArg2 := rfl
@[simp] theorem turnTo_seq (r : BitVec 2) : (turnTo r s).seq = s.seq := rfl
@[simp] theorem turnTo_arg0 (r : BitVec 2) : (turnTo r s).arg0 = s.arg0 := rfl
@[simp] theorem turnTo_arg1 (r : BitVec 2) : (turnTo r s).arg1 = s.arg1 := rfl
@[simp] theorem turnTo_arg2 (r : BitVec 2) : (turnTo r s).arg2 = s.arg2 := rfl
@[simp] theorem turnTo_trace (r : BitVec 2) : (turnTo r s).trace = s.trace := rfl
@[simp] theorem turnTo_now (r : BitVec 2) : (turnTo r s).now = s.now := rfl
@[simp] theorem turnTo_mem (r : BitVec 2) : (turnTo r s).mem = s.mem := rfl
@[simp] theorem turnTo_raced (r : BitVec 2) : (turnTo r s).raced = s.raced := rfl
@[simp] theorem turnTo_schedule (r : BitVec 2) : (turnTo r s).schedule = s.schedule := rfl
@[simp] theorem turnTo_hostOps (r : BitVec 2) : (turnTo r s).hostOps = s.hostOps := rfl
@[simp] theorem turnTo_hostData (r : BitVec 2) : (turnTo r s).hostData = s.hostData := rfl
@[simp] theorem turnTo_ctlSlot (r : BitVec 2) : (turnTo r s).ctlSlot = s.ctlSlot := rfl
@[simp] theorem turnTo_tick (r : BitVec 2) : (turnTo r s).tick = s.tick := rfl

/-! ### staged -/

@[simp] theorem staged_cfg (n : Nat) : (staged n s).cfg = s.cfg := rfl
@[simp] theorem staged_rot (n : Nat) : (staged n s).rot = s.rot := rfl
@[simp] theorem staged_effW (n : Nat) : (staged n s).effW = s.effW := rfl
@[simp] theorem staged_effH (n : Nat) : (staged n s).effH = s.effH := rfl
@[simp] theorem staged_winX0 (n : Nat) : (staged n s).winX0 = s.winX0 := rfl
@[simp] theorem staged_winY0 (n : Nat) : (staged n s).winY0 = s.winY0 := rfl
@[simp] theorem staged_winX1 (n : Nat) : (staged n s).winX1 = s.winX1 := rfl
@[simp] theorem staged_winY1 (n : Nat) : (staged n s).winY1 = s.winY1 := rfl
@[simp] theorem staged_winArmed (n : Nat) : (staged n s).winArmed = s.winArmed := rfl
@[simp] theorem staged_job (n : Nat) : (staged n s).job = .staging := rfl
@[simp] theorem staged_asyncAvail (n : Nat) : (staged n s).asyncAvail = s.asyncAvail := rfl
@[simp] theorem staged_timeoutMs (n : Nat) : (staged n s).timeoutMs = s.timeoutMs := rfl
@[simp] theorem staged_totalPx (n : Nat) : (staged n s).totalPx = s.totalPx := rfl
@[simp] theorem staged_donePx (n : Nat) : (staged n s).donePx = s.donePx := rfl
@[simp] theorem staged_curPx (n : Nat) : (staged n s).curPx = BitVec.ofNat 32 n := rfl
@[simp] theorem staged_chunkMax (n : Nat) : (staged n s).chunkMax = s.chunkMax := rfl
@[simp] theorem staged_src (n : Nat) : (staged n s).src = s.src := rfl
@[simp] theorem staged_prefilled (n : Nat) : (staged n s).prefilled = s.prefilled := rfl
@[simp] theorem staged_tStart (n : Nat) : (staged n s).tStart = s.tStart := rfl
@[simp] theorem staged_tmo (n : Nat) : (staged n s).tmo = s.tmo := rfl
@[simp] theorem staged_completionPending (n : Nat) : (staged n s).completionPending = s.completionPending := rfl
@[simp] theorem staged_dmaActive (n : Nat) : (staged n s).dmaActive = s.dmaActive := rfl
@[simp] theorem staged_dmaLen (n : Nat) : (staged n s).dmaLen = s.dmaLen := rfl
@[simp] theorem staged_dmaSent (n : Nat) : (staged n s).dmaSent = s.dmaSent := rfl
@[simp] theorem staged_dmaFate (n : Nat) : (staged n s).dmaFate = s.dmaFate := rfl
@[simp] theorem staged_scratch (n : Nat) : (staged n s).scratch = s.scratch := rfl
@[simp] theorem staged_respValid (n : Nat) : (staged n s).respValid = s.respValid := rfl
@[simp] theorem staged_respCode (n : Nat) : (staged n s).respCode = s.respCode := rfl
@[simp] theorem staged_drop (n : Nat) : (staged n s).drop = s.drop := rfl
@[simp] theorem staged_backlight (n : Nat) : (staged n s).backlight = s.backlight := rfl
@[simp] theorem staged_resetLine (n : Nat) : (staged n s).resetLine = s.resetLine := rfl
@[simp] theorem staged_oplCmd (n : Nat) : (staged n s).oplCmd = s.oplCmd := rfl
@[simp] theorem staged_oplArg0 (n : Nat) : (staged n s).oplArg0 = s.oplArg0 := rfl
@[simp] theorem staged_oplArg1 (n : Nat) : (staged n s).oplArg1 = s.oplArg1 := rfl
@[simp] theorem staged_oplArg2 (n : Nat) : (staged n s).oplArg2 = s.oplArg2 := rfl
@[simp] theorem staged_seq (n : Nat) : (staged n s).seq = .start := rfl
@[simp] theorem staged_arg0 (n : Nat) : (staged n s).arg0 = s.arg0 := rfl
@[simp] theorem staged_arg1 (n : Nat) : (staged n s).arg1 = s.arg1 := rfl
@[simp] theorem staged_arg2 (n : Nat) : (staged n s).arg2 = s.arg2 := rfl
@[simp] theorem staged_trace (n : Nat) : (staged n s).trace = s.trace := rfl
@[simp] theorem staged_now (n : Nat) : (staged n s).now = s.now := rfl
@[simp] theorem staged_mem (n : Nat) : (staged n s).mem = s.mem := rfl
@[simp] theorem staged_raced (n : Nat) : (staged n s).raced = s.raced := rfl
@[simp] theorem staged_schedule (n : Nat) : (staged n s).schedule = s.schedule := rfl
@[simp] theorem staged_hostOps (n : Nat) : (staged n s).hostOps = s.hostOps := rfl
@[simp] theorem staged_hostData (n : Nat) : (staged n s).hostData = s.hostData := rfl
@[simp] theorem staged_ctlSlot (n : Nat) : (staged n s).ctlSlot = s.ctlSlot := rfl
@[simp] theorem staged_tick (n : Nat) : (staged n s).tick = s.tick := rfl

/-! ### stagePixels -/

@[simp] theorem stagePixels_cfg (ps : List Half) : (stagePixels ps s).cfg = s.cfg := rfl
@[simp] theorem stagePixels_rot (ps : List Half) : (stagePixels ps s).rot = s.rot := rfl
@[simp] theorem stagePixels_effW (ps : List Half) : (stagePixels ps s).effW = s.effW := rfl
@[simp] theorem stagePixels_effH (ps : List Half) : (stagePixels ps s).effH = s.effH := rfl
@[simp] theorem stagePixels_winX0 (ps : List Half) : (stagePixels ps s).winX0 = s.winX0 := rfl
@[simp] theorem stagePixels_winY0 (ps : List Half) : (stagePixels ps s).winY0 = s.winY0 := rfl
@[simp] theorem stagePixels_winX1 (ps : List Half) : (stagePixels ps s).winX1 = s.winX1 := rfl
@[simp] theorem stagePixels_winY1 (ps : List Half) : (stagePixels ps s).winY1 = s.winY1 := rfl
@[simp] theorem stagePixels_winArmed (ps : List Half) : (stagePixels ps s).winArmed = s.winArmed := rfl
@[simp] theorem stagePixels_job (ps : List Half) : (stagePixels ps s).job = s.job := rfl
@[simp] theorem stagePixels_asyncAvail (ps : List Half) : (stagePixels ps s).asyncAvail = s.asyncAvail := rfl
@[simp] theorem stagePixels_timeoutMs (ps : List Half) : (stagePixels ps s).timeoutMs = s.timeoutMs := rfl
@[simp] theorem stagePixels_totalPx (ps : List Half) : (stagePixels ps s).totalPx = s.totalPx := rfl
@[simp] theorem stagePixels_donePx (ps : List Half) : (stagePixels ps s).donePx = s.donePx := rfl
@[simp] theorem stagePixels_curPx (ps : List Half) : (stagePixels ps s).curPx = s.curPx := rfl
@[simp] theorem stagePixels_chunkMax (ps : List Half) : (stagePixels ps s).chunkMax = s.chunkMax := rfl
@[simp] theorem stagePixels_src (ps : List Half) : (stagePixels ps s).src = s.src := rfl
@[simp] theorem stagePixels_prefilled (ps : List Half) : (stagePixels ps s).prefilled = s.prefilled := rfl
@[simp] theorem stagePixels_tStart (ps : List Half) : (stagePixels ps s).tStart = s.tStart := rfl
@[simp] theorem stagePixels_tmo (ps : List Half) : (stagePixels ps s).tmo = s.tmo := rfl
@[simp] theorem stagePixels_completionPending (ps : List Half) : (stagePixels ps s).completionPending = s.completionPending := rfl
@[simp] theorem stagePixels_dmaActive (ps : List Half) : (stagePixels ps s).dmaActive = s.dmaActive := rfl
@[simp] theorem stagePixels_dmaLen (ps : List Half) : (stagePixels ps s).dmaLen = s.dmaLen := rfl
@[simp] theorem stagePixels_dmaSent (ps : List Half) : (stagePixels ps s).dmaSent = s.dmaSent := rfl
@[simp] theorem stagePixels_dmaFate (ps : List Half) : (stagePixels ps s).dmaFate = s.dmaFate := rfl
@[simp] theorem stagePixels_scratch (ps : List Half) : (stagePixels ps s).scratch = Memory.writeBytes s.scratch 0 (serAll ps) := rfl
@[simp] theorem stagePixels_respValid (ps : List Half) : (stagePixels ps s).respValid = s.respValid := rfl
@[simp] theorem stagePixels_respCode (ps : List Half) : (stagePixels ps s).respCode = s.respCode := rfl
@[simp] theorem stagePixels_drop (ps : List Half) : (stagePixels ps s).drop = s.drop := rfl
@[simp] theorem stagePixels_backlight (ps : List Half) : (stagePixels ps s).backlight = s.backlight := rfl
@[simp] theorem stagePixels_resetLine (ps : List Half) : (stagePixels ps s).resetLine = s.resetLine := rfl
@[simp] theorem stagePixels_oplCmd (ps : List Half) : (stagePixels ps s).oplCmd = s.oplCmd := rfl
@[simp] theorem stagePixels_oplArg0 (ps : List Half) : (stagePixels ps s).oplArg0 = s.oplArg0 := rfl
@[simp] theorem stagePixels_oplArg1 (ps : List Half) : (stagePixels ps s).oplArg1 = s.oplArg1 := rfl
@[simp] theorem stagePixels_oplArg2 (ps : List Half) : (stagePixels ps s).oplArg2 = s.oplArg2 := rfl
@[simp] theorem stagePixels_seq (ps : List Half) : (stagePixels ps s).seq = s.seq := rfl
@[simp] theorem stagePixels_arg0 (ps : List Half) : (stagePixels ps s).arg0 = s.arg0 := rfl
@[simp] theorem stagePixels_arg1 (ps : List Half) : (stagePixels ps s).arg1 = s.arg1 := rfl
@[simp] theorem stagePixels_arg2 (ps : List Half) : (stagePixels ps s).arg2 = s.arg2 := rfl
@[simp] theorem stagePixels_trace (ps : List Half) : (stagePixels ps s).trace = s.trace := rfl
@[simp] theorem stagePixels_now (ps : List Half) : (stagePixels ps s).now = s.now := rfl
@[simp] theorem stagePixels_mem (ps : List Half) : (stagePixels ps s).mem = s.mem := rfl
@[simp] theorem stagePixels_raced (ps : List Half) : (stagePixels ps s).raced = s.raced := rfl
@[simp] theorem stagePixels_schedule (ps : List Half) : (stagePixels ps s).schedule = s.schedule := rfl
@[simp] theorem stagePixels_hostOps (ps : List Half) : (stagePixels ps s).hostOps = s.hostOps := rfl
@[simp] theorem stagePixels_hostData (ps : List Half) : (stagePixels ps s).hostData = s.hostData := rfl
@[simp] theorem stagePixels_ctlSlot (ps : List Half) : (stagePixels ps s).ctlSlot = s.ctlSlot := rfl
@[simp] theorem stagePixels_tick (ps : List Half) : (stagePixels ps s).tick = s.tick := rfl

/-! ### accept -/

@[simp] theorem accept_cfg (v : Word) : (accept v s).cfg = s.cfg := rfl
@[simp] theorem accept_rot (v : Word) : (accept v s).rot = s.rot := rfl
@[simp] theorem accept_effW (v : Word) : (accept v s).effW = s.effW := rfl
@[simp] theorem accept_effH (v : Word) : (accept v s).effH = s.effH := rfl
@[simp] theorem accept_winX0 (v : Word) : (accept v s).winX0 = s.winX0 := rfl
@[simp] theorem accept_winY0 (v : Word) : (accept v s).winY0 = s.winY0 := rfl
@[simp] theorem accept_winX1 (v : Word) : (accept v s).winX1 = s.winX1 := rfl
@[simp] theorem accept_winY1 (v : Word) : (accept v s).winY1 = s.winY1 := rfl
@[simp] theorem accept_winArmed (v : Word) : (accept v s).winArmed = s.winArmed := rfl
@[simp] theorem accept_job (v : Word) : (accept v s).job = s.job := rfl
@[simp] theorem accept_asyncAvail (v : Word) : (accept v s).asyncAvail = s.asyncAvail := rfl
@[simp] theorem accept_timeoutMs (v : Word) : (accept v s).timeoutMs = s.timeoutMs := rfl
@[simp] theorem accept_totalPx (v : Word) : (accept v s).totalPx = s.totalPx := rfl
@[simp] theorem accept_donePx (v : Word) : (accept v s).donePx = s.donePx := rfl
@[simp] theorem accept_curPx (v : Word) : (accept v s).curPx = s.curPx := rfl
@[simp] theorem accept_chunkMax (v : Word) : (accept v s).chunkMax = s.chunkMax := rfl
@[simp] theorem accept_src (v : Word) : (accept v s).src = s.src := rfl
@[simp] theorem accept_prefilled (v : Word) : (accept v s).prefilled = s.prefilled := rfl
@[simp] theorem accept_tStart (v : Word) : (accept v s).tStart = s.tStart := rfl
@[simp] theorem accept_tmo (v : Word) : (accept v s).tmo = s.tmo := rfl
@[simp] theorem accept_completionPending (v : Word) : (accept v s).completionPending = s.completionPending := rfl
@[simp] theorem accept_dmaActive (v : Word) : (accept v s).dmaActive = s.dmaActive := rfl
@[simp] theorem accept_dmaLen (v : Word) : (accept v s).dmaLen = s.dmaLen := rfl
@[simp] theorem accept_dmaSent (v : Word) : (accept v s).dmaSent = s.dmaSent := rfl
@[simp] theorem accept_dmaFate (v : Word) : (accept v s).dmaFate = s.dmaFate := rfl
@[simp] theorem accept_scratch (v : Word) : (accept v s).scratch = s.scratch := rfl
@[simp] theorem accept_respValid (v : Word) : (accept v s).respValid = s.respValid := rfl
@[simp] theorem accept_respCode (v : Word) : (accept v s).respCode = s.respCode := rfl
@[simp] theorem accept_drop (v : Word) : (accept v s).drop = s.drop := rfl
@[simp] theorem accept_backlight (v : Word) : (accept v s).backlight = s.backlight := rfl
@[simp] theorem accept_resetLine (v : Word) : (accept v s).resetLine = s.resetLine := rfl
@[simp] theorem accept_oplCmd (v : Word) : (accept v s).oplCmd = v := rfl
@[simp] theorem accept_oplArg0 (v : Word) : (accept v s).oplArg0 = s.arg0 := rfl
@[simp] theorem accept_oplArg1 (v : Word) : (accept v s).oplArg1 = s.arg1 := rfl
@[simp] theorem accept_oplArg2 (v : Word) : (accept v s).oplArg2 = s.arg2 := rfl
@[simp] theorem accept_seq (v : Word) : (accept v s).seq = .exec := rfl
@[simp] theorem accept_arg0 (v : Word) : (accept v s).arg0 = s.arg0 := rfl
@[simp] theorem accept_arg1 (v : Word) : (accept v s).arg1 = s.arg1 := rfl
@[simp] theorem accept_arg2 (v : Word) : (accept v s).arg2 = s.arg2 := rfl
@[simp] theorem accept_trace (v : Word) : (accept v s).trace = s.trace := rfl
@[simp] theorem accept_now (v : Word) : (accept v s).now = s.now := rfl
@[simp] theorem accept_mem (v : Word) : (accept v s).mem = s.mem := rfl
@[simp] theorem accept_raced (v : Word) : (accept v s).raced = false := rfl
@[simp] theorem accept_schedule (v : Word) : (accept v s).schedule = s.schedule := rfl
@[simp] theorem accept_hostOps (v : Word) : (accept v s).hostOps = s.hostOps := rfl
@[simp] theorem accept_hostData (v : Word) : (accept v s).hostData = s.hostData := rfl
@[simp] theorem accept_ctlSlot (v : Word) : (accept v s).ctlSlot = s.ctlSlot := rfl
@[simp] theorem accept_tick (v : Word) : (accept v s).tick = s.tick := rfl

/-! ### dmaCompleteStep -/

@[simp] theorem dmaCompleteStep_cfg : (dmaCompleteStep s).cfg = s.cfg := rfl
@[simp] theorem dmaCompleteStep_rot : (dmaCompleteStep s).rot = s.rot := rfl
@[simp] theorem dmaCompleteStep_effW : (dmaCompleteStep s).effW = s.effW := rfl
@[simp] theorem dmaCompleteStep_effH : (dmaCompleteStep s).effH = s.effH := rfl
@[simp] theorem dmaCompleteStep_winX0 : (dmaCompleteStep s).winX0 = s.winX0 := rfl
@[simp] theorem dmaCompleteStep_winY0 : (dmaCompleteStep s).winY0 = s.winY0 := rfl
@[simp] theorem dmaCompleteStep_winX1 : (dmaCompleteStep s).winX1 = s.winX1 := rfl
@[simp] theorem dmaCompleteStep_winY1 : (dmaCompleteStep s).winY1 = s.winY1 := rfl
@[simp] theorem dmaCompleteStep_winArmed : (dmaCompleteStep s).winArmed = s.winArmed := rfl
@[simp] theorem dmaCompleteStep_job : (dmaCompleteStep s).job = s.job := rfl
@[simp] theorem dmaCompleteStep_asyncAvail : (dmaCompleteStep s).asyncAvail = s.asyncAvail := rfl
@[simp] theorem dmaCompleteStep_timeoutMs : (dmaCompleteStep s).timeoutMs = s.timeoutMs := rfl
@[simp] theorem dmaCompleteStep_totalPx : (dmaCompleteStep s).totalPx = s.totalPx := rfl
@[simp] theorem dmaCompleteStep_donePx : (dmaCompleteStep s).donePx = s.donePx := rfl
@[simp] theorem dmaCompleteStep_curPx : (dmaCompleteStep s).curPx = s.curPx := rfl
@[simp] theorem dmaCompleteStep_chunkMax : (dmaCompleteStep s).chunkMax = s.chunkMax := rfl
@[simp] theorem dmaCompleteStep_src : (dmaCompleteStep s).src = s.src := rfl
@[simp] theorem dmaCompleteStep_prefilled : (dmaCompleteStep s).prefilled = s.prefilled := rfl
@[simp] theorem dmaCompleteStep_tStart : (dmaCompleteStep s).tStart = s.tStart := rfl
@[simp] theorem dmaCompleteStep_tmo : (dmaCompleteStep s).tmo = s.tmo := rfl
@[simp] theorem dmaCompleteStep_completionPending : (dmaCompleteStep s).completionPending = true := rfl
@[simp] theorem dmaCompleteStep_dmaActive : (dmaCompleteStep s).dmaActive = false := rfl
@[simp] theorem dmaCompleteStep_dmaLen : (dmaCompleteStep s).dmaLen = s.dmaLen := rfl
@[simp] theorem dmaCompleteStep_dmaSent : (dmaCompleteStep s).dmaSent = s.dmaSent := rfl
@[simp] theorem dmaCompleteStep_dmaFate : (dmaCompleteStep s).dmaFate = s.dmaFate := rfl
@[simp] theorem dmaCompleteStep_scratch : (dmaCompleteStep s).scratch = s.scratch := rfl
@[simp] theorem dmaCompleteStep_respValid : (dmaCompleteStep s).respValid = s.respValid := rfl
@[simp] theorem dmaCompleteStep_respCode : (dmaCompleteStep s).respCode = s.respCode := rfl
@[simp] theorem dmaCompleteStep_drop : (dmaCompleteStep s).drop = s.drop := rfl
@[simp] theorem dmaCompleteStep_backlight : (dmaCompleteStep s).backlight = s.backlight := rfl
@[simp] theorem dmaCompleteStep_resetLine : (dmaCompleteStep s).resetLine = s.resetLine := rfl
@[simp] theorem dmaCompleteStep_oplCmd : (dmaCompleteStep s).oplCmd = s.oplCmd := rfl
@[simp] theorem dmaCompleteStep_oplArg0 : (dmaCompleteStep s).oplArg0 = s.oplArg0 := rfl
@[simp] theorem dmaCompleteStep_oplArg1 : (dmaCompleteStep s).oplArg1 = s.oplArg1 := rfl
@[simp] theorem dmaCompleteStep_oplArg2 : (dmaCompleteStep s).oplArg2 = s.oplArg2 := rfl
@[simp] theorem dmaCompleteStep_seq : (dmaCompleteStep s).seq = s.seq := rfl
@[simp] theorem dmaCompleteStep_arg0 : (dmaCompleteStep s).arg0 = s.arg0 := rfl
@[simp] theorem dmaCompleteStep_arg1 : (dmaCompleteStep s).arg1 = s.arg1 := rfl
@[simp] theorem dmaCompleteStep_arg2 : (dmaCompleteStep s).arg2 = s.arg2 := rfl
@[simp] theorem dmaCompleteStep_trace : (dmaCompleteStep s).trace = s.trace := rfl
@[simp] theorem dmaCompleteStep_now : (dmaCompleteStep s).now = s.now := rfl
@[simp] theorem dmaCompleteStep_mem : (dmaCompleteStep s).mem = s.mem := rfl
@[simp] theorem dmaCompleteStep_raced : (dmaCompleteStep s).raced = s.raced := rfl
@[simp] theorem dmaCompleteStep_schedule : (dmaCompleteStep s).schedule = s.schedule := rfl
@[simp] theorem dmaCompleteStep_hostOps : (dmaCompleteStep s).hostOps = s.hostOps := rfl
@[simp] theorem dmaCompleteStep_hostData : (dmaCompleteStep s).hostData = s.hostData := rfl
@[simp] theorem dmaCompleteStep_ctlSlot : (dmaCompleteStep s).ctlSlot = s.ctlSlot := rfl
@[simp] theorem dmaCompleteStep_tick : (dmaCompleteStep s).tick = s.tick := rfl

/-! ### clockStep -/

@[simp] theorem clockStep_cfg : (clockStep s).cfg = s.cfg := rfl
@[simp] theorem clockStep_rot : (clockStep s).rot = s.rot := rfl
@[simp] theorem clockStep_effW : (clockStep s).effW = s.effW := rfl
@[simp] theorem clockStep_effH : (clockStep s).effH = s.effH := rfl
@[simp] theorem clockStep_winX0 : (clockStep s).winX0 = s.winX0 := rfl
@[simp] theorem clockStep_winY0 : (clockStep s).winY0 = s.winY0 := rfl
@[simp] theorem clockStep_winX1 : (clockStep s).winX1 = s.winX1 := rfl
@[simp] theorem clockStep_winY1 : (clockStep s).winY1 = s.winY1 := rfl
@[simp] theorem clockStep_winArmed : (clockStep s).winArmed = s.winArmed := rfl
@[simp] theorem clockStep_job : (clockStep s).job = s.job := rfl
@[simp] theorem clockStep_asyncAvail : (clockStep s).asyncAvail = s.asyncAvail := rfl
@[simp] theorem clockStep_timeoutMs : (clockStep s).timeoutMs = s.timeoutMs := rfl
@[simp] theorem clockStep_totalPx : (clockStep s).totalPx = s.totalPx := rfl
@[simp] theorem clockStep_donePx : (clockStep s).donePx = s.donePx := rfl
@[simp] theorem clockStep_curPx : (clockStep s).curPx = s.curPx := rfl
@[simp] theorem clockStep_chunkMax : (clockStep s).chunkMax = s.chunkMax := rfl
@[simp] theorem clockStep_src : (clockStep s).src = s.src := rfl
@[simp] theorem clockStep_prefilled : (clockStep s).prefilled = s.prefilled := rfl
@[simp] theorem clockStep_tStart : (clockStep s).tStart = s.tStart := rfl
@[simp] theorem clockStep_tmo : (clockStep s).tmo = s.tmo := rfl
@[simp] theorem clockStep_completionPending : (clockStep s).completionPending = s.completionPending := rfl
@[simp] theorem clockStep_dmaActive : (clockStep s).dmaActive = s.dmaActive := rfl
@[simp] theorem clockStep_dmaLen : (clockStep s).dmaLen = s.dmaLen := rfl
@[simp] theorem clockStep_dmaSent : (clockStep s).dmaSent = s.dmaSent := rfl
@[simp] theorem clockStep_dmaFate : (clockStep s).dmaFate = s.dmaFate := rfl
@[simp] theorem clockStep_scratch : (clockStep s).scratch = s.scratch := rfl
@[simp] theorem clockStep_respValid : (clockStep s).respValid = s.respValid := rfl
@[simp] theorem clockStep_respCode : (clockStep s).respCode = s.respCode := rfl
@[simp] theorem clockStep_drop : (clockStep s).drop = s.drop := rfl
@[simp] theorem clockStep_backlight : (clockStep s).backlight = s.backlight := rfl
@[simp] theorem clockStep_resetLine : (clockStep s).resetLine = s.resetLine := rfl
@[simp] theorem clockStep_oplCmd : (clockStep s).oplCmd = s.oplCmd := rfl
@[simp] theorem clockStep_oplArg0 : (clockStep s).oplArg0 = s.oplArg0 := rfl
@[simp] theorem clockStep_oplArg1 : (clockStep s).oplArg1 = s.oplArg1 := rfl
@[simp] theorem clockStep_oplArg2 : (clockStep s).oplArg2 = s.oplArg2 := rfl
@[simp] theorem clockStep_seq : (clockStep s).seq = s.seq := rfl
@[simp] theorem clockStep_arg0 : (clockStep s).arg0 = s.arg0 := rfl
@[simp] theorem clockStep_arg1 : (clockStep s).arg1 = s.arg1 := rfl
@[simp] theorem clockStep_arg2 : (clockStep s).arg2 = s.arg2 := rfl
@[simp] theorem clockStep_trace : (clockStep s).trace = s.trace := rfl
@[simp] theorem clockStep_now : (clockStep s).now = s.now + 1 := rfl
@[simp] theorem clockStep_mem : (clockStep s).mem = s.mem := rfl
@[simp] theorem clockStep_raced : (clockStep s).raced = s.raced := rfl
@[simp] theorem clockStep_schedule : (clockStep s).schedule = s.schedule := rfl
@[simp] theorem clockStep_hostOps : (clockStep s).hostOps = s.hostOps := rfl
@[simp] theorem clockStep_hostData : (clockStep s).hostData = s.hostData := rfl
@[simp] theorem clockStep_ctlSlot : (clockStep s).ctlSlot = s.ctlSlot := rfl
@[simp] theorem clockStep_tick : (clockStep s).tick = s.tick := rfl

/-! ### emitResetPin -/

@[simp] theorem emitResetPin_cfg (level : Bool) : (emitResetPin level s).cfg = s.cfg := rfl
@[simp] theorem emitResetPin_rot (level : Bool) : (emitResetPin level s).rot = s.rot := rfl
@[simp] theorem emitResetPin_effW (level : Bool) : (emitResetPin level s).effW = s.effW := rfl
@[simp] theorem emitResetPin_effH (level : Bool) : (emitResetPin level s).effH = s.effH := rfl
@[simp] theorem emitResetPin_winX0 (level : Bool) : (emitResetPin level s).winX0 = s.winX0 := rfl
@[simp] theorem emitResetPin_winY0 (level : Bool) : (emitResetPin level s).winY0 = s.winY0 := rfl
@[simp] theorem emitResetPin_winX1 (level : Bool) : (emitResetPin level s).winX1 = s.winX1 := rfl
@[simp] theorem emitResetPin_winY1 (level : Bool) : (emitResetPin level s).winY1 = s.winY1 := rfl
@[simp] theorem emitResetPin_winArmed (level : Bool) : (emitResetPin level s).winArmed = s.winArmed := rfl
@[simp] theorem emitResetPin_job (level : Bool) : (emitResetPin level s).job = s.job := rfl
@[simp] theorem emitResetPin_asyncAvail (level : Bool) : (emitResetPin level s).asyncAvail = s.asyncAvail := rfl
@[simp] theorem emitResetPin_timeoutMs (level : Bool) : (emitResetPin level s).timeoutMs = s.timeoutMs := rfl
@[simp] theorem emitResetPin_totalPx (level : Bool) : (emitResetPin level s).totalPx = s.totalPx := rfl
@[simp] theorem emitResetPin_donePx (level : Bool) : (emitResetPin level s).donePx = s.donePx := rfl
@[simp] theorem emitResetPin_curPx (level : Bool) : (emitResetPin level s).curPx = s.curPx := rfl
@[simp] theorem emitResetPin_chunkMax (level : Bool) : (emitResetPin level s).chunkMax = s.chunkMax := rfl
@[simp] theorem emitResetPin_src (level : Bool) : (emitResetPin level s).src = s.src := rfl
@[simp] theorem emitResetPin_prefilled (level : Bool) : (emitResetPin level s).prefilled = s.prefilled := rfl
@[simp] theorem emitResetPin_tStart (level : Bool) : (emitResetPin level s).tStart = s.tStart := rfl
@[simp] theorem emitResetPin_tmo (level : Bool) : (emitResetPin level s).tmo = s.tmo := rfl
@[simp] theorem emitResetPin_completionPending (level : Bool) : (emitResetPin level s).completionPending = s.completionPending := rfl
@[simp] theorem emitResetPin_dmaActive (level : Bool) : (emitResetPin level s).dmaActive = s.dmaActive := rfl
@[simp] theorem emitResetPin_dmaLen (level : Bool) : (emitResetPin level s).dmaLen = s.dmaLen := rfl
@[simp] theorem emitResetPin_dmaSent (level : Bool) : (emitResetPin level s).dmaSent = s.dmaSent := rfl
@[simp] theorem emitResetPin_dmaFate (level : Bool) : (emitResetPin level s).dmaFate = s.dmaFate := rfl
@[simp] theorem emitResetPin_scratch (level : Bool) : (emitResetPin level s).scratch = s.scratch := rfl
@[simp] theorem emitResetPin_respValid (level : Bool) : (emitResetPin level s).respValid = s.respValid := rfl
@[simp] theorem emitResetPin_respCode (level : Bool) : (emitResetPin level s).respCode = s.respCode := rfl
@[simp] theorem emitResetPin_drop (level : Bool) : (emitResetPin level s).drop = s.drop := rfl
@[simp] theorem emitResetPin_backlight (level : Bool) : (emitResetPin level s).backlight = s.backlight := rfl
@[simp] theorem emitResetPin_resetLine (level : Bool) : (emitResetPin level s).resetLine = level := rfl
@[simp] theorem emitResetPin_oplCmd (level : Bool) : (emitResetPin level s).oplCmd = s.oplCmd := rfl
@[simp] theorem emitResetPin_oplArg0 (level : Bool) : (emitResetPin level s).oplArg0 = s.oplArg0 := rfl
@[simp] theorem emitResetPin_oplArg1 (level : Bool) : (emitResetPin level s).oplArg1 = s.oplArg1 := rfl
@[simp] theorem emitResetPin_oplArg2 (level : Bool) : (emitResetPin level s).oplArg2 = s.oplArg2 := rfl
@[simp] theorem emitResetPin_seq (level : Bool) : (emitResetPin level s).seq = s.seq := rfl
@[simp] theorem emitResetPin_arg0 (level : Bool) : (emitResetPin level s).arg0 = s.arg0 := rfl
@[simp] theorem emitResetPin_arg1 (level : Bool) : (emitResetPin level s).arg1 = s.arg1 := rfl
@[simp] theorem emitResetPin_arg2 (level : Bool) : (emitResetPin level s).arg2 = s.arg2 := rfl
@[simp] theorem emitResetPin_trace (level : Bool) : (emitResetPin level s).trace = s.trace ++ [.pin .reset level] := rfl
@[simp] theorem emitResetPin_now (level : Bool) : (emitResetPin level s).now = s.now := rfl
@[simp] theorem emitResetPin_mem (level : Bool) : (emitResetPin level s).mem = s.mem := rfl
@[simp] theorem emitResetPin_raced (level : Bool) : (emitResetPin level s).raced = s.raced := rfl
@[simp] theorem emitResetPin_schedule (level : Bool) : (emitResetPin level s).schedule = s.schedule := rfl
@[simp] theorem emitResetPin_hostOps (level : Bool) : (emitResetPin level s).hostOps = s.hostOps := rfl
@[simp] theorem emitResetPin_hostData (level : Bool) : (emitResetPin level s).hostData = s.hostData := rfl
@[simp] theorem emitResetPin_ctlSlot (level : Bool) : (emitResetPin level s).ctlSlot = s.ctlSlot := rfl
@[simp] theorem emitResetPin_tick (level : Bool) : (emitResetPin level s).tick = s.tick := rfl

/-! ### emitBacklightPin -/

@[simp] theorem emitBacklightPin_cfg (level : Bool) : (emitBacklightPin level s).cfg = s.cfg := rfl
@[simp] theorem emitBacklightPin_rot (level : Bool) : (emitBacklightPin level s).rot = s.rot := rfl
@[simp] theorem emitBacklightPin_effW (level : Bool) : (emitBacklightPin level s).effW = s.effW := rfl
@[simp] theorem emitBacklightPin_effH (level : Bool) : (emitBacklightPin level s).effH = s.effH := rfl
@[simp] theorem emitBacklightPin_winX0 (level : Bool) : (emitBacklightPin level s).winX0 = s.winX0 := rfl
@[simp] theorem emitBacklightPin_winY0 (level : Bool) : (emitBacklightPin level s).winY0 = s.winY0 := rfl
@[simp] theorem emitBacklightPin_winX1 (level : Bool) : (emitBacklightPin level s).winX1 = s.winX1 := rfl
@[simp] theorem emitBacklightPin_winY1 (level : Bool) : (emitBacklightPin level s).winY1 = s.winY1 := rfl
@[simp] theorem emitBacklightPin_winArmed (level : Bool) : (emitBacklightPin level s).winArmed = s.winArmed := rfl
@[simp] theorem emitBacklightPin_job (level : Bool) : (emitBacklightPin level s).job = s.job := rfl
@[simp] theorem emitBacklightPin_asyncAvail (level : Bool) : (emitBacklightPin level s).asyncAvail = s.asyncAvail := rfl
@[simp] theorem emitBacklightPin_timeoutMs (level : Bool) : (emitBacklightPin level s).timeoutMs = s.timeoutMs := rfl
@[simp] theorem emitBacklightPin_totalPx (level : Bool) : (emitBacklightPin level s).totalPx = s.totalPx := rfl
@[simp] theorem emitBacklightPin_donePx (level : Bool) : (emitBacklightPin level s).donePx = s.donePx := rfl
@[simp] theorem emitBacklightPin_curPx (level : Bool) : (emitBacklightPin level s).curPx = s.curPx := rfl
@[simp] theorem emitBacklightPin_chunkMax (level : Bool) : (emitBacklightPin level s).chunkMax = s.chunkMax := rfl
@[simp] theorem emitBacklightPin_src (level : Bool) : (emitBacklightPin level s).src = s.src := rfl
@[simp] theorem emitBacklightPin_prefilled (level : Bool) : (emitBacklightPin level s).prefilled = s.prefilled := rfl
@[simp] theorem emitBacklightPin_tStart (level : Bool) : (emitBacklightPin level s).tStart = s.tStart := rfl
@[simp] theorem emitBacklightPin_tmo (level : Bool) : (emitBacklightPin level s).tmo = s.tmo := rfl
@[simp] theorem emitBacklightPin_completionPending (level : Bool) : (emitBacklightPin level s).completionPending = s.completionPending := rfl
@[simp] theorem emitBacklightPin_dmaActive (level : Bool) : (emitBacklightPin level s).dmaActive = s.dmaActive := rfl
@[simp] theorem emitBacklightPin_dmaLen (level : Bool) : (emitBacklightPin level s).dmaLen = s.dmaLen := rfl
@[simp] theorem emitBacklightPin_dmaSent (level : Bool) : (emitBacklightPin level s).dmaSent = s.dmaSent := rfl
@[simp] theorem emitBacklightPin_dmaFate (level : Bool) : (emitBacklightPin level s).dmaFate = s.dmaFate := rfl
@[simp] theorem emitBacklightPin_scratch (level : Bool) : (emitBacklightPin level s).scratch = s.scratch := rfl
@[simp] theorem emitBacklightPin_respValid (level : Bool) : (emitBacklightPin level s).respValid = s.respValid := rfl
@[simp] theorem emitBacklightPin_respCode (level : Bool) : (emitBacklightPin level s).respCode = s.respCode := rfl
@[simp] theorem emitBacklightPin_drop (level : Bool) : (emitBacklightPin level s).drop = s.drop := rfl
@[simp] theorem emitBacklightPin_backlight (level : Bool) : (emitBacklightPin level s).backlight = level := rfl
@[simp] theorem emitBacklightPin_resetLine (level : Bool) : (emitBacklightPin level s).resetLine = s.resetLine := rfl
@[simp] theorem emitBacklightPin_oplCmd (level : Bool) : (emitBacklightPin level s).oplCmd = s.oplCmd := rfl
@[simp] theorem emitBacklightPin_oplArg0 (level : Bool) : (emitBacklightPin level s).oplArg0 = s.oplArg0 := rfl
@[simp] theorem emitBacklightPin_oplArg1 (level : Bool) : (emitBacklightPin level s).oplArg1 = s.oplArg1 := rfl
@[simp] theorem emitBacklightPin_oplArg2 (level : Bool) : (emitBacklightPin level s).oplArg2 = s.oplArg2 := rfl
@[simp] theorem emitBacklightPin_seq (level : Bool) : (emitBacklightPin level s).seq = s.seq := rfl
@[simp] theorem emitBacklightPin_arg0 (level : Bool) : (emitBacklightPin level s).arg0 = s.arg0 := rfl
@[simp] theorem emitBacklightPin_arg1 (level : Bool) : (emitBacklightPin level s).arg1 = s.arg1 := rfl
@[simp] theorem emitBacklightPin_arg2 (level : Bool) : (emitBacklightPin level s).arg2 = s.arg2 := rfl
@[simp] theorem emitBacklightPin_trace (level : Bool) : (emitBacklightPin level s).trace = s.trace ++ [.pin .backlight level] := rfl
@[simp] theorem emitBacklightPin_now (level : Bool) : (emitBacklightPin level s).now = s.now := rfl
@[simp] theorem emitBacklightPin_mem (level : Bool) : (emitBacklightPin level s).mem = s.mem := rfl
@[simp] theorem emitBacklightPin_raced (level : Bool) : (emitBacklightPin level s).raced = s.raced := rfl
@[simp] theorem emitBacklightPin_schedule (level : Bool) : (emitBacklightPin level s).schedule = s.schedule := rfl
@[simp] theorem emitBacklightPin_hostOps (level : Bool) : (emitBacklightPin level s).hostOps = s.hostOps := rfl
@[simp] theorem emitBacklightPin_hostData (level : Bool) : (emitBacklightPin level s).hostData = s.hostData := rfl
@[simp] theorem emitBacklightPin_ctlSlot (level : Bool) : (emitBacklightPin level s).ctlSlot = s.ctlSlot := rfl
@[simp] theorem emitBacklightPin_tick (level : Bool) : (emitBacklightPin level s).tick = s.tick := rfl

/-! ### timeoutEnd -/

@[simp] theorem timeoutEnd_cfg : (timeoutEnd s).cfg = s.cfg := rfl
@[simp] theorem timeoutEnd_rot : (timeoutEnd s).rot = s.rot := rfl
@[simp] theorem timeoutEnd_effW : (timeoutEnd s).effW = s.effW := rfl
@[simp] theorem timeoutEnd_effH : (timeoutEnd s).effH = s.effH := rfl
@[simp] theorem timeoutEnd_winX0 : (timeoutEnd s).winX0 = s.winX0 := rfl
@[simp] theorem timeoutEnd_winY0 : (timeoutEnd s).winY0 = s.winY0 := rfl
@[simp] theorem timeoutEnd_winX1 : (timeoutEnd s).winX1 = s.winX1 := rfl
@[simp] theorem timeoutEnd_winY1 : (timeoutEnd s).winY1 = s.winY1 := rfl
@[simp] theorem timeoutEnd_winArmed : (timeoutEnd s).winArmed = false := rfl
@[simp] theorem timeoutEnd_job : (timeoutEnd s).job = .timedOut := rfl
@[simp] theorem timeoutEnd_asyncAvail : (timeoutEnd s).asyncAvail = s.asyncAvail := rfl
@[simp] theorem timeoutEnd_timeoutMs : (timeoutEnd s).timeoutMs = s.timeoutMs := rfl
@[simp] theorem timeoutEnd_totalPx : (timeoutEnd s).totalPx = s.totalPx := rfl
@[simp] theorem timeoutEnd_donePx : (timeoutEnd s).donePx = s.donePx := rfl
@[simp] theorem timeoutEnd_curPx : (timeoutEnd s).curPx = s.curPx := rfl
@[simp] theorem timeoutEnd_chunkMax : (timeoutEnd s).chunkMax = s.chunkMax := rfl
@[simp] theorem timeoutEnd_src : (timeoutEnd s).src = s.src := rfl
@[simp] theorem timeoutEnd_prefilled : (timeoutEnd s).prefilled = s.prefilled := rfl
@[simp] theorem timeoutEnd_tStart : (timeoutEnd s).tStart = s.tStart := rfl
@[simp] theorem timeoutEnd_tmo : (timeoutEnd s).tmo = s.tmo := rfl
@[simp] theorem timeoutEnd_completionPending : (timeoutEnd s).completionPending = false := rfl
@[simp] theorem timeoutEnd_dmaActive : (timeoutEnd s).dmaActive = false := rfl
@[simp] theorem timeoutEnd_dmaLen : (timeoutEnd s).dmaLen = s.dmaLen := rfl
@[simp] theorem timeoutEnd_dmaSent : (timeoutEnd s).dmaSent = s.dmaSent := rfl
@[simp] theorem timeoutEnd_dmaFate : (timeoutEnd s).dmaFate = s.dmaFate := rfl
@[simp] theorem timeoutEnd_scratch : (timeoutEnd s).scratch = s.scratch := rfl
@[simp] theorem timeoutEnd_respValid : (timeoutEnd s).respValid = true := rfl
@[simp] theorem timeoutEnd_respCode : (timeoutEnd s).respCode = .timeout := rfl
@[simp] theorem timeoutEnd_drop : (timeoutEnd s).drop = s.drop := rfl
@[simp] theorem timeoutEnd_backlight : (timeoutEnd s).backlight = s.backlight := rfl
@[simp] theorem timeoutEnd_resetLine : (timeoutEnd s).resetLine = s.resetLine := rfl
@[simp] theorem timeoutEnd_oplCmd : (timeoutEnd s).oplCmd = s.oplCmd := rfl
@[simp] theorem timeoutEnd_oplArg0 : (timeoutEnd s).oplArg0 = s.oplArg0 := rfl
@[simp] theorem timeoutEnd_oplArg1 : (timeoutEnd s).oplArg1 = s.oplArg1 := rfl
@[simp] theorem timeoutEnd_oplArg2 : (timeoutEnd s).oplArg2 = s.oplArg2 := rfl
@[simp] theorem timeoutEnd_seq : (timeoutEnd s).seq = .idle := rfl
@[simp] theorem timeoutEnd_arg0 : (timeoutEnd s).arg0 = s.arg0 := rfl
@[simp] theorem timeoutEnd_arg1 : (timeoutEnd s).arg1 = s.arg1 := rfl
@[simp] theorem timeoutEnd_arg2 : (timeoutEnd s).arg2 = s.arg2 := rfl
@[simp] theorem timeoutEnd_trace : (timeoutEnd s).trace = (abort s).trace := rfl
@[simp] theorem timeoutEnd_now : (timeoutEnd s).now = s.now := rfl
@[simp] theorem timeoutEnd_mem : (timeoutEnd s).mem = s.mem := rfl
@[simp] theorem timeoutEnd_raced : (timeoutEnd s).raced = s.raced := rfl
@[simp] theorem timeoutEnd_schedule : (timeoutEnd s).schedule = s.schedule := rfl
@[simp] theorem timeoutEnd_hostOps : (timeoutEnd s).hostOps = s.hostOps := rfl
@[simp] theorem timeoutEnd_hostData : (timeoutEnd s).hostData = s.hostData := rfl
@[simp] theorem timeoutEnd_ctlSlot : (timeoutEnd s).ctlSlot = s.ctlSlot := rfl
@[simp] theorem timeoutEnd_tick : (timeoutEnd s).tick = s.tick := rfl

/-! ### startStep -/

@[simp] theorem startStep_cfg : (startStep s).cfg = s.cfg := rfl
@[simp] theorem startStep_rot : (startStep s).rot = s.rot := rfl
@[simp] theorem startStep_effW : (startStep s).effW = s.effW := rfl
@[simp] theorem startStep_effH : (startStep s).effH = s.effH := rfl
@[simp] theorem startStep_winX0 : (startStep s).winX0 = s.winX0 := rfl
@[simp] theorem startStep_winY0 : (startStep s).winY0 = s.winY0 := rfl
@[simp] theorem startStep_winX1 : (startStep s).winX1 = s.winX1 := rfl
@[simp] theorem startStep_winY1 : (startStep s).winY1 = s.winY1 := rfl
@[simp] theorem startStep_winArmed : (startStep s).winArmed = s.winArmed := rfl
@[simp] theorem startStep_job : (startStep s).job = .active := rfl
@[simp] theorem startStep_asyncAvail : (startStep s).asyncAvail = s.asyncAvail := rfl
@[simp] theorem startStep_timeoutMs : (startStep s).timeoutMs = s.timeoutMs := rfl
@[simp] theorem startStep_totalPx : (startStep s).totalPx = s.totalPx := rfl
@[simp] theorem startStep_donePx : (startStep s).donePx = s.donePx := rfl
@[simp] theorem startStep_curPx : (startStep s).curPx = s.curPx := rfl
@[simp] theorem startStep_chunkMax : (startStep s).chunkMax = s.chunkMax := rfl
@[simp] theorem startStep_src : (startStep s).src = s.src := rfl
@[simp] theorem startStep_prefilled : (startStep s).prefilled = s.prefilled := rfl
@[simp] theorem startStep_tStart : (startStep s).tStart = s.now := rfl
@[simp] theorem startStep_tmo : (startStep s).tmo = s.timeoutMs := rfl
@[simp] theorem startStep_completionPending : (startStep s).completionPending = false := rfl
@[simp] theorem startStep_dmaActive : (startStep s).dmaActive = true := rfl
@[simp] theorem startStep_dmaLen : (startStep s).dmaLen = 2 * s.curPx := rfl
@[simp] theorem startStep_dmaSent : (startStep s).dmaSent = 0 := rfl
@[simp] theorem startStep_dmaFate : (startStep s).dmaFate = drawFate s.tick (2 * s.curPx).toNat := rfl
@[simp] theorem startStep_scratch : (startStep s).scratch = s.scratch := rfl
@[simp] theorem startStep_respValid : (startStep s).respValid = s.respValid := rfl
@[simp] theorem startStep_respCode : (startStep s).respCode = s.respCode := rfl
@[simp] theorem startStep_drop : (startStep s).drop = s.drop := rfl
@[simp] theorem startStep_backlight : (startStep s).backlight = s.backlight := rfl
@[simp] theorem startStep_resetLine : (startStep s).resetLine = s.resetLine := rfl
@[simp] theorem startStep_oplCmd : (startStep s).oplCmd = s.oplCmd := rfl
@[simp] theorem startStep_oplArg0 : (startStep s).oplArg0 = s.oplArg0 := rfl
@[simp] theorem startStep_oplArg1 : (startStep s).oplArg1 = s.oplArg1 := rfl
@[simp] theorem startStep_oplArg2 : (startStep s).oplArg2 = s.oplArg2 := rfl
@[simp] theorem startStep_seq : (startStep s).seq = .wait := rfl
@[simp] theorem startStep_arg0 : (startStep s).arg0 = s.arg0 := rfl
@[simp] theorem startStep_arg1 : (startStep s).arg1 = s.arg1 := rfl
@[simp] theorem startStep_arg2 : (startStep s).arg2 = s.arg2 := rfl
@[simp] theorem startStep_trace : (startStep s).trace = s.trace ++ [.beginTx] := rfl
@[simp] theorem startStep_now : (startStep s).now = s.now := rfl
@[simp] theorem startStep_mem : (startStep s).mem = s.mem := rfl
@[simp] theorem startStep_raced : (startStep s).raced = s.raced := rfl
@[simp] theorem startStep_schedule : (startStep s).schedule = s.schedule := rfl
@[simp] theorem startStep_hostOps : (startStep s).hostOps = s.hostOps := rfl
@[simp] theorem startStep_hostData : (startStep s).hostData = s.hostData := rfl
@[simp] theorem startStep_ctlSlot : (startStep s).ctlSlot = s.ctlSlot := rfl
@[simp] theorem startStep_tick : (startStep s).tick = s.tick := rfl

/-! ### dmaByteStep -/

@[simp] theorem dmaByteStep_cfg : (dmaByteStep s).cfg = s.cfg := rfl
@[simp] theorem dmaByteStep_rot : (dmaByteStep s).rot = s.rot := rfl
@[simp] theorem dmaByteStep_effW : (dmaByteStep s).effW = s.effW := rfl
@[simp] theorem dmaByteStep_effH : (dmaByteStep s).effH = s.effH := rfl
@[simp] theorem dmaByteStep_winX0 : (dmaByteStep s).winX0 = s.winX0 := rfl
@[simp] theorem dmaByteStep_winY0 : (dmaByteStep s).winY0 = s.winY0 := rfl
@[simp] theorem dmaByteStep_winX1 : (dmaByteStep s).winX1 = s.winX1 := rfl
@[simp] theorem dmaByteStep_winY1 : (dmaByteStep s).winY1 = s.winY1 := rfl
@[simp] theorem dmaByteStep_winArmed : (dmaByteStep s).winArmed = s.winArmed := rfl
@[simp] theorem dmaByteStep_job : (dmaByteStep s).job = s.job := rfl
@[simp] theorem dmaByteStep_asyncAvail : (dmaByteStep s).asyncAvail = s.asyncAvail := rfl
@[simp] theorem dmaByteStep_timeoutMs : (dmaByteStep s).timeoutMs = s.timeoutMs := rfl
@[simp] theorem dmaByteStep_totalPx : (dmaByteStep s).totalPx = s.totalPx := rfl
@[simp] theorem dmaByteStep_donePx : (dmaByteStep s).donePx = s.donePx := rfl
@[simp] theorem dmaByteStep_curPx : (dmaByteStep s).curPx = s.curPx := rfl
@[simp] theorem dmaByteStep_chunkMax : (dmaByteStep s).chunkMax = s.chunkMax := rfl
@[simp] theorem dmaByteStep_src : (dmaByteStep s).src = s.src := rfl
@[simp] theorem dmaByteStep_prefilled : (dmaByteStep s).prefilled = s.prefilled := rfl
@[simp] theorem dmaByteStep_tStart : (dmaByteStep s).tStart = s.tStart := rfl
@[simp] theorem dmaByteStep_tmo : (dmaByteStep s).tmo = s.tmo := rfl
@[simp] theorem dmaByteStep_completionPending : (dmaByteStep s).completionPending = s.completionPending := rfl
@[simp] theorem dmaByteStep_dmaActive : (dmaByteStep s).dmaActive = s.dmaActive := rfl
@[simp] theorem dmaByteStep_dmaLen : (dmaByteStep s).dmaLen = s.dmaLen := rfl
@[simp] theorem dmaByteStep_dmaSent : (dmaByteStep s).dmaSent = s.dmaSent + 1 := rfl
@[simp] theorem dmaByteStep_dmaFate : (dmaByteStep s).dmaFate = s.dmaFate := rfl
@[simp] theorem dmaByteStep_scratch : (dmaByteStep s).scratch = s.scratch := rfl
@[simp] theorem dmaByteStep_respValid : (dmaByteStep s).respValid = s.respValid := rfl
@[simp] theorem dmaByteStep_respCode : (dmaByteStep s).respCode = s.respCode := rfl
@[simp] theorem dmaByteStep_drop : (dmaByteStep s).drop = s.drop := rfl
@[simp] theorem dmaByteStep_backlight : (dmaByteStep s).backlight = s.backlight := rfl
@[simp] theorem dmaByteStep_resetLine : (dmaByteStep s).resetLine = s.resetLine := rfl
@[simp] theorem dmaByteStep_oplCmd : (dmaByteStep s).oplCmd = s.oplCmd := rfl
@[simp] theorem dmaByteStep_oplArg0 : (dmaByteStep s).oplArg0 = s.oplArg0 := rfl
@[simp] theorem dmaByteStep_oplArg1 : (dmaByteStep s).oplArg1 = s.oplArg1 := rfl
@[simp] theorem dmaByteStep_oplArg2 : (dmaByteStep s).oplArg2 = s.oplArg2 := rfl
@[simp] theorem dmaByteStep_seq : (dmaByteStep s).seq = s.seq := rfl
@[simp] theorem dmaByteStep_arg0 : (dmaByteStep s).arg0 = s.arg0 := rfl
@[simp] theorem dmaByteStep_arg1 : (dmaByteStep s).arg1 = s.arg1 := rfl
@[simp] theorem dmaByteStep_arg2 : (dmaByteStep s).arg2 = s.arg2 := rfl
@[simp] theorem dmaByteStep_trace : (dmaByteStep s).trace = s.trace ++ .byte .data (scratchByte s s.dmaSent.toNat)
      :: (if s.dmaSent + 1 = s.dmaLen then [.endTx] else []) := rfl
@[simp] theorem dmaByteStep_now : (dmaByteStep s).now = s.now := rfl
@[simp] theorem dmaByteStep_mem : (dmaByteStep s).mem = s.mem := rfl
@[simp] theorem dmaByteStep_raced : (dmaByteStep s).raced = s.raced := rfl
@[simp] theorem dmaByteStep_schedule : (dmaByteStep s).schedule = s.schedule := rfl
@[simp] theorem dmaByteStep_hostOps : (dmaByteStep s).hostOps = s.hostOps := rfl
@[simp] theorem dmaByteStep_hostData : (dmaByteStep s).hostData = s.hostData := rfl
@[simp] theorem dmaByteStep_ctlSlot : (dmaByteStep s).ctlSlot = s.ctlSlot := rfl
@[simp] theorem dmaByteStep_tick : (dmaByteStep s).tick = s.tick := rfl

/-! ### hostStore -/

@[simp] theorem hostStore_cfg (addr : Word) (b : Byte) : (hostStore addr b s).cfg = s.cfg := rfl
@[simp] theorem hostStore_rot (addr : Word) (b : Byte) : (hostStore addr b s).rot = s.rot := rfl
@[simp] theorem hostStore_effW (addr : Word) (b : Byte) : (hostStore addr b s).effW = s.effW := rfl
@[simp] theorem hostStore_effH (addr : Word) (b : Byte) : (hostStore addr b s).effH = s.effH := rfl
@[simp] theorem hostStore_winX0 (addr : Word) (b : Byte) : (hostStore addr b s).winX0 = s.winX0 := rfl
@[simp] theorem hostStore_winY0 (addr : Word) (b : Byte) : (hostStore addr b s).winY0 = s.winY0 := rfl
@[simp] theorem hostStore_winX1 (addr : Word) (b : Byte) : (hostStore addr b s).winX1 = s.winX1 := rfl
@[simp] theorem hostStore_winY1 (addr : Word) (b : Byte) : (hostStore addr b s).winY1 = s.winY1 := rfl
@[simp] theorem hostStore_winArmed (addr : Word) (b : Byte) : (hostStore addr b s).winArmed = s.winArmed := rfl
@[simp] theorem hostStore_job (addr : Word) (b : Byte) : (hostStore addr b s).job = s.job := rfl
@[simp] theorem hostStore_asyncAvail (addr : Word) (b : Byte) : (hostStore addr b s).asyncAvail = s.asyncAvail := rfl
@[simp] theorem hostStore_timeoutMs (addr : Word) (b : Byte) : (hostStore addr b s).timeoutMs = s.timeoutMs := rfl
@[simp] theorem hostStore_totalPx (addr : Word) (b : Byte) : (hostStore addr b s).totalPx = s.totalPx := rfl
@[simp] theorem hostStore_donePx (addr : Word) (b : Byte) : (hostStore addr b s).donePx = s.donePx := rfl
@[simp] theorem hostStore_curPx (addr : Word) (b : Byte) : (hostStore addr b s).curPx = s.curPx := rfl
@[simp] theorem hostStore_chunkMax (addr : Word) (b : Byte) : (hostStore addr b s).chunkMax = s.chunkMax := rfl
@[simp] theorem hostStore_src (addr : Word) (b : Byte) : (hostStore addr b s).src = s.src := rfl
@[simp] theorem hostStore_prefilled (addr : Word) (b : Byte) : (hostStore addr b s).prefilled = s.prefilled := rfl
@[simp] theorem hostStore_tStart (addr : Word) (b : Byte) : (hostStore addr b s).tStart = s.tStart := rfl
@[simp] theorem hostStore_tmo (addr : Word) (b : Byte) : (hostStore addr b s).tmo = s.tmo := rfl
@[simp] theorem hostStore_completionPending (addr : Word) (b : Byte) : (hostStore addr b s).completionPending = s.completionPending := rfl
@[simp] theorem hostStore_dmaActive (addr : Word) (b : Byte) : (hostStore addr b s).dmaActive = s.dmaActive := rfl
@[simp] theorem hostStore_dmaLen (addr : Word) (b : Byte) : (hostStore addr b s).dmaLen = s.dmaLen := rfl
@[simp] theorem hostStore_dmaSent (addr : Word) (b : Byte) : (hostStore addr b s).dmaSent = s.dmaSent := rfl
@[simp] theorem hostStore_dmaFate (addr : Word) (b : Byte) : (hostStore addr b s).dmaFate = s.dmaFate := rfl
@[simp] theorem hostStore_scratch (addr : Word) (b : Byte) : (hostStore addr b s).scratch = s.scratch := rfl
@[simp] theorem hostStore_respValid (addr : Word) (b : Byte) : (hostStore addr b s).respValid = s.respValid := rfl
@[simp] theorem hostStore_respCode (addr : Word) (b : Byte) : (hostStore addr b s).respCode = s.respCode := rfl
@[simp] theorem hostStore_drop (addr : Word) (b : Byte) : (hostStore addr b s).drop = s.drop := rfl
@[simp] theorem hostStore_backlight (addr : Word) (b : Byte) : (hostStore addr b s).backlight = s.backlight := rfl
@[simp] theorem hostStore_resetLine (addr : Word) (b : Byte) : (hostStore addr b s).resetLine = s.resetLine := rfl
@[simp] theorem hostStore_oplCmd (addr : Word) (b : Byte) : (hostStore addr b s).oplCmd = s.oplCmd := rfl
@[simp] theorem hostStore_oplArg0 (addr : Word) (b : Byte) : (hostStore addr b s).oplArg0 = s.oplArg0 := rfl
@[simp] theorem hostStore_oplArg1 (addr : Word) (b : Byte) : (hostStore addr b s).oplArg1 = s.oplArg1 := rfl
@[simp] theorem hostStore_oplArg2 (addr : Word) (b : Byte) : (hostStore addr b s).oplArg2 = s.oplArg2 := rfl
@[simp] theorem hostStore_seq (addr : Word) (b : Byte) : (hostStore addr b s).seq = s.seq := rfl
@[simp] theorem hostStore_arg0 (addr : Word) (b : Byte) : (hostStore addr b s).arg0 = s.arg0 := rfl
@[simp] theorem hostStore_arg1 (addr : Word) (b : Byte) : (hostStore addr b s).arg1 = s.arg1 := rfl
@[simp] theorem hostStore_arg2 (addr : Word) (b : Byte) : (hostStore addr b s).arg2 = s.arg2 := rfl
@[simp] theorem hostStore_trace (addr : Word) (b : Byte) : (hostStore addr b s).trace = s.trace := rfl
@[simp] theorem hostStore_now (addr : Word) (b : Byte) : (hostStore addr b s).now = s.now := rfl
@[simp] theorem hostStore_mem (addr : Word) (b : Byte) : (hostStore addr b s).mem = Memory.write s.mem addr.toNat b := rfl
@[simp] theorem hostStore_raced (addr : Word) (b : Byte) : (hostStore addr b s).raced = (s.raced || (busy s && currentReads s addr)) := rfl
@[simp] theorem hostStore_schedule (addr : Word) (b : Byte) : (hostStore addr b s).schedule = s.schedule := rfl
@[simp] theorem hostStore_hostOps (addr : Word) (b : Byte) : (hostStore addr b s).hostOps = s.hostOps := rfl
@[simp] theorem hostStore_hostData (addr : Word) (b : Byte) : (hostStore addr b s).hostData = s.hostData := rfl
@[simp] theorem hostStore_ctlSlot (addr : Word) (b : Byte) : (hostStore addr b s).ctlSlot = s.ctlSlot := rfl
@[simp] theorem hostStore_tick (addr : Word) (b : Byte) : (hostStore addr b s).tick = s.tick := rfl

end Sys2Proof.Machine
end

