-- ==== Sys2Proof/Laws/Ops.lean ====
section
/-! SUPPORT. One lemma per shared operation that says everything it can do: the composite operations as their primitive
updates, the reads of a source, the sync and async paths, and what a plain update keeps of the stores. -/

namespace Sys2Proof.Machine

/-! ### Outcomes -/

@[simp] theorem orStuck_some (s t : State) : orStuck s (some t) = t := rfl
@[simp] theorem orStuck_none (s : State) : orStuck s none = s := rfl

/-- Either the part reaches its state, or it is stuck and nothing changes (R215). -/
theorem orStuck_cases (s : State) (o : Option State) : o = some (orStuck s o) ∨ (o = none ∧ orStuck s o = s) := by
  cases o <;> simp

/-! ### Composite operations -/

@[simp] theorem emitCmd_eq (b : Byte) (s : State) : emitCmd b s = emit (cmdEvents b) s := rfl
@[simp] theorem emitData_eq (bs : List Byte) (s : State) : emitData bs s = emit (dataEvents bs) s := rfl
@[simp] theorem sendController_eq (cmd : Byte) (payload : List Byte) (s : State) :
    sendController cmd payload s = emit (controllerEvents cmd payload) s := rfl
@[simp] theorem arm_eq (x0 y0 x1 y1 : Int) (s : State) : arm x0 y0 x1 y1 s =
    openWindow (clampedHalf s.effW x0) (clampedHalf s.effH y0) (clampedHalf s.effW x1) (clampedHalf s.effH y1) s := rfl

/-! ### Geometry -/

/-- Clamping lands in the panel (R120). -/
theorem clampTo_range {dim : Half} (h : 1 ≤ dim.toNat) (v : Int) : 0 ≤ clampTo dim v ∧ clampTo dim v < dim.toNat := by
  simp only [clampTo, clamp]; omega

/-- Clamping a value in the panel leaves it. -/
theorem clampTo_of_mem {dim : Half} {v : Int} (h0 : 0 ≤ v) (h1 : v < dim.toNat) : clampTo dim v = v := by
  simp only [clampTo, clamp]; omega

theorem toNat_ofInt_half {v : Int} (h0 : 0 ≤ v) (h1 : v < 65536) : ((BitVec.ofInt 16 v).toNat : Int) = v := by
  rw [BitVec.toNat_ofInt]; omega

/-- The 16-bit value sent is the clamped coordinate. -/
theorem clampedHalf_toNat {dim : Half} (h : 1 ≤ dim.toNat) (v : Int) :
    ((clampedHalf dim v).toNat : Int) = clampTo dim v := by
  have := clampTo_range h v
  have := dim.isLt
  exact toNat_ofInt_half (by omega) (by omega)

theorem clampedHalf_lt {dim : Half} (h : 1 ≤ dim.toNat) (v : Int) : clampedHalf dim v < dim := by
  have h1 := clampedHalf_toNat h v
  have h2 := clampTo_range h v
  rw [BitVec.lt_def]; omega

theorem clampedHalf_of_mem {dim : Half} {v : Int} (h0 : 0 ≤ v) (h1 : v < dim.toNat) :
    clampedHalf dim v = BitVec.ofInt 16 v := by rw [clampedHalf, clampTo_of_mem h0 h1]

/-- Under a legal configuration the effective dimensions are between 1 and 32767 (R6, R117). -/
theorem effDims_range {c : Config} (h : configLegal c = true) (r : BitVec 2) :
    (1 ≤ (effDims c r).1.toNat ∧ (effDims c r).1.toNat ≤ 32767)
      ∧ (1 ≤ (effDims c r).2.toNat ∧ (effDims c r).2.toNat ≤ 32767) := by
  simp only [configLegal, Bool.and_eq_true, decide_eq_true_eq] at h
  obtain ⟨⟨⟨⟨h1, h2⟩, h3⟩, h4⟩, -⟩ := h
  unfold effDims
  split <;> simp only [BitVec.toNat_ofNat] <;> omega

/-- WTB's block is the 64 addresses from WTB_BASE (R62). -/
theorem inBlock_iff (c : Config) (addr : Word) :
    inBlock c addr = true ↔ ∃ k < 64, addr = portBase c + BitVec.ofNat 32 k := by
  simp only [inBlock, decide_eq_true_eq]
  constructor
  · intro h
    exact ⟨_, h, by rw [BitVec.ofNat_toNat, BitVec.setWidth_eq, add_sub_cancel]⟩
  · rintro ⟨k, hk, rfl⟩
    rw [add_sub_cancel_left, BitVec.toNat_ofNat]
    omega

/-! ### Reads of a source -/

theorem hostByte_not_raced {s : State} (h : s.raced = false) (a : Nat) :
    hostByte s a = Memory.read s.mem (a % 2 ^ 32) := by
  simp [hostByte, h]

/-- A raced source byte is the free value of its address (R59, I8). -/
theorem hostByte_raced {s : State} (h : s.raced = true) {a : Nat} {b : Byte}
    (hb : Memory.read s.mem (a % 2 ^ 32) = some b) : hostByte s a = some (Config.racedByte s.tick (a % 2 ^ 32)) := by
  simp only [hostByte, hb, h, Option.map_some, if_true]

theorem hostByte_isSome (s : State) (a : Nat) : (hostByte s a).isSome = (Memory.read s.mem (a % 2 ^ 32)).isSome := by
  simp [hostByte]

/-- A pixel is the little-endian join of its two bytes (R56). -/
theorem hostPixel_eq_some {s : State} {a : Nat} {p : Half} :
    hostPixel s a = some p ↔ ∃ lo hi, hostByte s a = some lo ∧ hostByte s (a + 1) = some hi ∧ p = hi ++ lo := by
  unfold hostPixel
  cases h1 : hostByte s a <;> cases h2 : hostByte s (a + 1) <;> simp [eq_comm]

theorem sourcePixels_color (s : State) (c : Half) (start n : Nat) :
    sourcePixels s (.color c) start n = some (List.replicate n c) := by
  rw [sourcePixels, collect_eq_some]
  exact ⟨by simp, fun j hj => by simp [sourcePixel]⟩

theorem sourcePixels_length {s : State} {p : PixelSource} {start n : Nat} {ps : List Half}
    (h : sourcePixels s p start n = some ps) : ps.length = n := collect_length h

theorem hostBytes_length {s : State} {a : Word} {n : Nat} {bs : List Byte} (h : hostBytes s a n = some bs) :
    bs.length = n := collect_length h

/-! ### The sync and async paths -/

/-- SYNC_STREAM sends the pixels it reads, and changes the trace only (R135). -/
theorem syncStream_eq_some {n : Nat} {p : PixelSource} {s t : State} :
    syncStream n p s = some t ↔ ∃ ps, sourcePixels s p 0 n = some ps ∧ t = emit (dataEvents (serAll ps)) s := by
  simp [syncStream, eq_comm]

/-- SYNC_BYTES sends the bytes it reads, and changes the trace only (R136). -/
theorem syncBytes_eq_some {a : Word} {n : Nat} {s t : State} :
    syncBytes a n s = some t ↔ ∃ bs, hostBytes s a n = some bs ∧ t = emit (dataEvents bs) s := by
  simp [syncBytes, eq_comm]

/-- Everything STREAM can do when it is not stuck (R140). -/
theorem stream_eq_some {n : Nat} {p : PixelSource} {s t : State} (h : stream n p s = some t) :
    (n = 0 ∧ t = streamEnd .ok s) ∨ (n ≠ 0 ∧ s.asyncAvail = true ∧ t = asyncSetup n p s) ∨
      (n ≠ 0 ∧ s.asyncAvail = false ∧
        ∃ ps, sourcePixels s p 0 n = some ps ∧ t = streamEnd .ok (emit (dataEvents (serAll ps)) s)) := by
  unfold stream at h
  split at h
  · rename_i h0
    exact .inl ⟨h0, by injection h with h; exact h.symm⟩
  · rename_i h0
    split at h
    · rename_i h1
      exact .inr (.inl ⟨h0, h1, by injection h with h; exact h.symm⟩)
    · rename_i h1
      obtain ⟨u, hu, rfl⟩ := Option.map_eq_some_iff.mp h
      obtain ⟨ps, hps, rfl⟩ := syncStream_eq_some.mp hu
      exact .inr (.inr ⟨h0, by simpa using h1, ps, hps, rfl⟩)

/-- STREAM is stuck only on the sync path, on a read that is not admitted (R57, R140). -/
theorem stream_eq_none {n : Nat} {p : PixelSource} {s : State} (h : stream n p s = none) :
    n ≠ 0 ∧ s.asyncAvail = false ∧ sourcePixels s p 0 n = none := by
  unfold stream at h
  split at h
  · cases h
  · split at h
    · cases h
    · rename_i h0 h1
      exact ⟨h0, by simpa using h1, by simpa [syncStream] using h⟩

/-- STREAM of no pixel ends at once (R140). -/
theorem stream_zero (p : PixelSource) (s : State) : stream 0 p s = some (streamEnd .ok s) := rfl

/-- STREAM on the async path (R140, R141). -/
theorem stream_async {n : Nat} (p : PixelSource) {s : State} (h0 : n ≠ 0) (h : s.asyncAvail = true) :
    stream n p s = some (asyncSetup n p s) := by simp [stream, h0, h]

/-- STREAM on the sync path, every pixel read (R135, R140). -/
theorem stream_sync {n : Nat} {p : PixelSource} {s : State} {ps : List Half} (h0 : n ≠ 0) (h : s.asyncAvail = false)
    (hp : sourcePixels s p 0 n = some ps) :
    stream n p s = some (streamEnd .ok (emit (dataEvents (serAll ps)) s)) := by
  simp [stream, h0, h, syncStream, hp]

/-- STREAM of a colour is never stuck (R134). -/
theorem stream_color_ne_none (n : Nat) (c : Half) (s : State) : stream n (.color c) s ≠ none := fun h => by
  have := (stream_eq_none h).2.2
  rw [sourcePixels_color] at this
  cases this

/-- The fate drawn for a chunk is DELIVER or STALL(k) with k at most the length (R150). -/
theorem drawFate_cases (tick len : Nat) : drawFate tick len = .deliver ∨ ∃ k ≤ len, drawFate tick len = .stall k := by
  unfold drawFate
  split
  · exact .inl rfl
  · rename_i k _
    exact .inr ⟨k.val, by omega, rfl⟩

/-! ### The stores -/

/-- A state with the same stores, parameters and CHUNK_MAX keeps them canonical. -/
theorem StoresCanonical.of_eq {s t : State} (h : StoresCanonical s) (hm : t.mem = s.mem) (hs : t.scratch = s.scratch)
    (hc : t.cfg = s.cfg) (hx : t.chunkMax = s.chunkMax) : StoresCanonical t := by
  unfold StoresCanonical at *; rw [hm, hs, hc, hx]; exact h

/-- A byte written outside WTB's block leaves memory outside it (R62). -/
theorem OutsideBlock.write {c : Config} {m : Memory} {addr : Word} (v : Byte) (h : OutsideBlock c m)
    (ha : inBlock c addr = false) : OutsideBlock c (Memory.write m addr.toNat v) := fun p hp => by
  rcases Memory.mem_write hp with rfl | hp
  · simpa using ha
  · exact h p hp

/-- A host store outside WTB's block keeps the stores canonical. -/
theorem storesCanonical_hostStore {s : State} {addr : Word} (b : Byte) (h : StoresCanonical s)
    (ha : inBlock s.cfg addr = false) : StoresCanonical (hostStore addr b s) := by
  obtain ⟨h1, h2, h3, h4, h5, h6⟩ := h
  exact ⟨Memory.write_wf _ _ h1, Memory.write_within _ h2 addr.isLt, h3, h4, h5, h6.write b ha⟩

/-- Reset leaves both stores canonical. -/
theorem storesCanonical_resetWith (c : Config) (d : ResetDraws) : StoresCanonical (State.resetWith c d) :=
  ⟨.nil, nofun, .nil, nofun, rfl, nofun⟩

/-- After reset memory lists nothing and has its canonical form. -/
theorem reset_mem_wf : Memory.wf State.reset.mem := .nil

end Sys2Proof.Machine
end

