-- ==== Sys2Proof/Laws/Step.lean ====
section
/-! SUPPORT. What each agent's turn can do, said once: the Sequencer's later steps, the channel, the host, and the step
that chooses among them. -/

namespace Sys2Proof.Machine

/-! ### The instructions -/

/-- Everything SETROT can do (R118). -/
theorem exec_setrot (r : BitVec 2) (s : State) : exec (.setrot r) s =
    if dimsChange r s = true then
      .next (respond .ok (armFullPanel (emit (controllerEvents 0x36 [madctl r]) (turnTo r s))))
    else .next (streamEnd .ok (emit (controllerEvents 0x36 [madctl r]) (turnTo r s))) := by
  simp only [exec, execSetrot, sendController_eq]

/-- Everything a stream instruction on the sync byte path can do (R158). -/
theorem exec_wrsync_next {a : Word} {n : Nat} {s t : State} (h : exec (.wrsync a n) s = .next t) :
    (s.winArmed = false ∧ t = respond .rejected s) ∨
      (s.winArmed = true ∧ ∃ bs, hostBytes s a n = some bs ∧ t = streamEnd .ok (emit (dataEvents bs) s)) ∨
      (s.winArmed = true ∧ hostBytes s a n = none ∧ t = s) := by
  simp only [exec, execWrsync] at h
  split at h
  · rename_i hw
    cases h
    rw [syncBytes, Option.map_map]
    cases hb : hostBytes s a n with
    | none => exact .inr (.inr ⟨hw, rfl, rfl⟩)
    | some bs => exact .inr (.inl ⟨hw, bs, rfl, rfl⟩)
  · rename_i hw
    injection h with h
    exact .inl ⟨by simpa using hw, h.symm⟩

/-- Everything SENDCMD can do (R183). -/
theorem exec_sendcmd_next {cb : Byte} {a : Word} {n : Nat} {s t : State} (h : exec (.sendcmd cb a n) s = .next t) :
    (mapperOwned cb = true ∧ t = respond .rejected s) ∨
      (mapperOwned cb = false ∧ ∃ bs, hostBytes s a n = some bs ∧
        t = streamEnd .ok (emit (dataEvents bs) (emit (cmdEvents cb) s))) ∨
      (mapperOwned cb = false ∧ hostBytes s a n = none ∧ t = s) := by
  simp only [exec, execSendcmd] at h
  split at h
  · rename_i hw
    injection h with h
    exact .inl ⟨hw, h.symm⟩
  · rename_i hw
    cases h
    have hs : hostBytes (emitCmd cb s) a n = hostBytes s a n := rfl
    rw [syncBytes, Option.map_map, hs]
    cases hb : hostBytes s a n with
    | none => exact .inr (.inr ⟨by simpa using hw, rfl, rfl⟩)
    | some bs => exact .inr (.inl ⟨by simpa using hw, bs, rfl, rfl⟩)

/-- Everything PIXEL can do (R172). -/
theorem exec_pixel (x y : Int) (c : Half) (s : State) : exec (.pixel x y c) s =
    if inPanel s.effW s.effH x y = true then
      .next (streamEnd .ok (emit (dataEvents [hiByte c, loByte c]) (arm x y x y s)))
    else .next (streamEnd .ok s) := by
  simp only [exec, execPixel]
  split
  · simp [syncStream, sourcePixels_color]
  · rfl

/-! ### The Sequencer's later steps -/

/-- Everything the STAGE step can do (R144). -/
theorem stageStep_cases (s : State) :
    (∃ c, s.src = .color c ∧ stageStep s = staged (chunkPixels s) (prefill c s)) ∨
      ((∀ c, s.src ≠ .color c) ∧
        ((∃ ps, sourcePixels s s.src s.donePx.toNat (chunkPixels s) = some ps ∧
            stageStep s = staged (chunkPixels s) (stagePixels ps s)) ∨
          (sourcePixels s s.src s.donePx.toNat (chunkPixels s) = none ∧ stageStep s = s))) := by
  unfold stageStep
  split
  · exact .inl ⟨_, ‹_›, rfl⟩
  · rename_i a hc
    refine .inr ⟨by simp [hc], ?_⟩
    rw [hc]
    cases hp : sourcePixels s (.buf a) s.donePx.toNat (chunkPixels s) <;> simp
  · rename_i a w sx sy cw hc
    refine .inr ⟨by simp [hc], ?_⟩
    rw [hc]
    cases hp : sourcePixels s (.blit a w sx sy cw) s.donePx.toNat (chunkPixels s) <;> simp

/-- Everything the WAIT step can do (R146, R147, R149). -/
theorem waitStep_cases (s : State) :
    (s.completionPending = true ∧ waitStep s = completeStep s) ∨
      (s.completionPending = false ∧ s.tmo ≤ elapsed s ∧ waitStep s = timeoutEnd s) ∨
      (s.completionPending = false ∧ ¬ s.tmo ≤ elapsed s ∧ waitStep s = s) := by
  unfold waitStep
  split
  · rename_i h; exact .inl ⟨h, rfl⟩
  · rename_i h
    split
    · rename_i h2; exact .inr (.inl ⟨by simpa using h, h2, rfl⟩)
    · rename_i h2; exact .inr (.inr ⟨by simpa using h, h2, rfl⟩)

/-- Everything the channel's turn can do (R151, R152). -/
theorem dmaStep_cases (s : State) :
    (s.dmaActive = true ∧ s.dmaSent.toNat < dmaLimit s ∧ dmaStep s = dmaByteStep s) ∨
      (s.dmaActive = true ∧ s.dmaFate = .deliver ∧ s.dmaSent = s.dmaLen ∧ dmaStep s = dmaCompleteStep s) ∨
      dmaStep s = s := by
  unfold dmaStep
  split
  · rename_i h; exact .inl ⟨h.1, h.2, rfl⟩
  · split
    · rename_i h; exact .inr (.inl ⟨h.1, by simpa [dmaDeliver] using h.2.1, h.2.2, rfl⟩)
    · exact .inr (.inr rfl)

/-! ### The host -/

/-- What a register write can do (R102 to R106, R112). -/
theorem portWrite_cases (off : Nat) (v : Word) (s : State) :
    portWrite off v s = s ∨ (∃ w, w ≠ 0 ∧ portWrite off v s = { s with timeoutMs := w }) ∨
      portWrite off v s = { s with arg0 := v } ∨ portWrite off v s = { s with arg1 := v } ∨
      portWrite off v s = { s with arg2 := v } ∨ portWrite off v s = submit v s ∨ portWrite off v s = writeResp v s := by
  unfold portWrite
  split
  · refine .inr (.inl ⟨_, ?_, rfl⟩)
    split
    · decide
    · assumption
  · exact .inr (.inr (.inl rfl))
  · exact .inr (.inr (.inr (.inl rfl)))
  · exact .inr (.inr (.inr (.inr (.inl rfl))))
  · exact .inr (.inr (.inr (.inr (.inr (.inl rfl)))))
  · exact .inr (.inr (.inr (.inr (.inr (.inr rfl)))))
  · exact .inl rfl

/-- Everything the host's turn can do (R100): nothing, a read, a register write, or a store to its own memory. -/
theorem hostStep_next {s t : State} (h : hostStep s = .next t) :
    t = s ∨ (∃ v ops, t = { s with hostData := v, hostOps := ops }) ∨
      (∃ off v ops, t = portWrite off v { s with hostOps := ops }) ∨
      (∃ addr b ops, inBlock s.cfg addr = false ∧ t = hostStore addr b { s with hostOps := ops }) := by
  unfold hostStep at h
  split at h
  · injection h with h; exact .inl h.symm
  · split at h
    · injection h with h; exact .inr (.inl ⟨_, _, h.symm⟩)
    · simp at h
  · split at h
    · injection h with h; exact .inr (.inr (.inl ⟨_, _, _, h.symm⟩))
    · simp at h
  · split at h
    · injection h with h; exact .inr (.inl ⟨_, _, h.symm⟩)
    · simp at h
  · split at h
    · simp at h
    · rename_i hb
      injection h with h
      exact .inr (.inr (.inr ⟨_, _, _, by simpa using hb, h.symm⟩))

/-! ### One step -/

/-- Everything one turn can do (R209). -/
theorem turnOf_next {a : Agent} {s t : State} (h : turnOf a s = .next t) :
    (a = .host ∧ hostStep (advance s) = .next t) ∨
      (a = .dma ∧ t = dmaStep (advance s)) ∨
      (a = .clock ∧ t = clockStep (advance s)) ∨
      (a = .sequencer ∧
        ((∃ i, seqAction s = .run i ∧ exec i (fetched s) = .next t) ∨
          (seqAction s = .reject ∧ t = respond .rejected (advance s)) ∨
          (seqAction s = .stage ∧ t = stageStep (advance s)) ∨
          (seqAction s = .start ∧ t = startStep (advance s)) ∨
          (seqAction s = .wait ∧ t = waitStep (advance s)) ∨
          (seqAction s = .hold ∧ t = advance s))) := by
  cases a
  · exact .inl ⟨rfl, h⟩
  · refine .inr (.inr (.inr ⟨rfl, ?_⟩))
    simp only [turnOf, sequencerTurn] at h
    split at h
    · rename_i i hi; exact .inl ⟨i, hi, h⟩
    · rename_i hi; exact .inr (.inl ⟨hi, by injection h with h; exact h.symm⟩)
    · rename_i hi; exact .inr (.inr (.inl ⟨hi, by injection h with h; exact h.symm⟩))
    · rename_i hi; exact .inr (.inr (.inr (.inl ⟨hi, by injection h with h; exact h.symm⟩)))
    · rename_i hi; exact .inr (.inr (.inr (.inr (.inl ⟨hi, by injection h with h; exact h.symm⟩))))
    · rename_i hi; exact .inr (.inr (.inr (.inr (.inr ⟨hi, by injection h with h; exact h.symm⟩))))
    · simp at h
  · exact .inr (.inl ⟨rfl, by injection h with h; exact h.symm⟩)
  · exact .inr (.inr (.inl ⟨rfl, by injection h with h; exact h.symm⟩))

/-- Everything one step can do (R209): the turn of the agent that moves next. -/
theorem step_next {s t : State} (h : step s = .next t) :
    (nextAgent s = .host ∧ hostStep (advance s) = .next t) ∨
      (nextAgent s = .dma ∧ t = dmaStep (advance s)) ∨
      (nextAgent s = .clock ∧ t = clockStep (advance s)) ∨
      (nextAgent s = .sequencer ∧
        ((∃ i, seqAction s = .run i ∧ exec i (fetched s) = .next t) ∨
          (seqAction s = .reject ∧ t = respond .rejected (advance s)) ∨
          (seqAction s = .stage ∧ t = stageStep (advance s)) ∨
          (seqAction s = .start ∧ t = startStep (advance s)) ∨
          (seqAction s = .wait ∧ t = waitStep (advance s)) ∨
          (seqAction s = .hold ∧ t = advance s))) := turnOf_next h

/-- With the bus slot empty the Sequencer's turn is what SEQ says (R38). -/
theorem seqAction_of_slot {s : State} (h : s.ctlSlot = none) :
    seqAction s = match s.seq with
      | .idle => .hold
      | .exec =>
        match latchedRequest s with
        | .ok i => .run i
        | .error _ => .reject
      | .stage => .stage
      | .start => .start
      | .wait => .wait := by
  cases s
  cases h
  rfl

end Sys2Proof.Machine
end

