-- ==== Sys2Proof/Laws/Exec.lean ====
section
/-! SUPPORT. Every next state an instruction can have, said once, so that a claim over all instructions is a case split
over `ExecEffect` and not over the meanings. -/

namespace Sys2Proof.Machine

/-! ### Clipping -/

/-- A rectangle that meets the panel clips to its visible part (R170). -/
theorem clip_some {effW effH : Half} {x y w h : Int} (hw : 0 < w) (hh : 0 < h)
    (h1 : max x 0 ≤ min (x + w - 1) ((effW.toNat : Int) - 1))
    (h2 : max y 0 ≤ min (y + h - 1) ((effH.toNat : Int) - 1)) :
    clip effW effH x y w h = some
      { cx0 := max x 0, cy0 := max y 0, cx1 := min (x + w - 1) ((effW.toNat : Int) - 1),
        cy1 := min (y + h - 1) ((effH.toNat : Int) - 1), sx := (max x 0 - x).toNat, sy := (max y 0 - y).toNat,
        cw := (min (x + w - 1) ((effW.toNat : Int) - 1) - max x 0 + 1).toNat,
        ch := (min (y + h - 1) ((effH.toNat : Int) - 1) - max y 0 + 1).toNat } := by
  unfold clip
  simp only
  rw [if_neg (by omega), if_neg (by omega)]

/-- A clipped rectangle has at least one column and one row, none beyond the panel's or the rectangle's (R170). -/
theorem clip_extent {effW effH : Half} {x y w h : Int} {r : Clip} (hr : clip effW effH x y w h = some r) :
    0 < r.cw ∧ 0 < r.ch ∧ r.cw ≤ effW.toNat ∧ r.ch ≤ effH.toNat ∧ r.sx + r.cw ≤ w.toNat ∧ r.sy + r.ch ≤ h.toNat := by
  unfold clip at hr
  simp only at hr
  split at hr
  · cases hr
  · split at hr
    · cases hr
    · cases hr
      dsimp only
      omega

/-! ### The effects -/

/-- The next states of each instruction. -/
inductive ExecEffect (s : State) : Instr → State → Prop
  | setrotArmed (r : BitVec 2) (h : dimsChange r s = true) : ExecEffect s (.setrot r)
      (respond .ok (armFullPanel (emit (controllerEvents 0x36 [madctl r]) (turnTo r s))))
  | setrotSame (r : BitVec 2) (h : dimsChange r s = false) : ExecEffect s (.setrot r)
      (streamEnd .ok (emit (controllerEvents 0x36 [madctl r]) (turnTo r s)))
  | armwin (x0 y0 x1 y1 : Int) : ExecEffect s (.armwin x0 y0 x1 y1) (respond .ok (arm x0 y0 x1 y1 s))
  | wrsyncRejected (a : Word) (n : Nat) (h : s.winArmed = false) : ExecEffect s (.wrsync a n) (respond .rejected s)
  | wrsyncStuck (a : Word) (n : Nat) (h : s.winArmed = true) (hb : hostBytes s a n = none) :
      ExecEffect s (.wrsync a n) s
  | wrasyncRejected (a : Word) (n : Nat) (h : s.winArmed = false) : ExecEffect s (.wrasync a n) (respond .rejected s)
  | fillRejected (n : Nat) (c : Half) (h : s.winArmed = false) : ExecEffect s (.fill n c) (respond .rejected s)
  | sendcmdRejected (cb : Byte) (a : Word) (n : Nat) (h : mapperOwned cb = true) :
      ExecEffect s (.sendcmd cb a n) (respond .rejected s)
  | wrsync (a : Word) (n : Nat) (bs : List Byte) (h : s.winArmed = true) (hb : hostBytes s a n = some bs) :
      ExecEffect s (.wrsync a n) (streamEnd .ok (emit (dataEvents bs) s))
  | wrasyncEmpty (a : Word) (n : Nat) (h : s.winArmed = true) : ExecEffect s (.wrasync a n) (streamEnd .ok s)
  | wrasyncSetup (a : Word) (n : Nat) (h : s.winArmed = true) (ha : s.asyncAvail = true) (hn : n ≠ 0) :
      ExecEffect s (.wrasync a n) (asyncSetup n (.buf a) s)
  | wrasyncSync (a : Word) (n : Nat) (ps : List Half) (h : s.winArmed = true)
      (hp : sourcePixels s (.buf a) 0 n = some ps) :
      ExecEffect s (.wrasync a n) (streamEnd .ok (emit (dataEvents (serAll ps)) s))
  | wrasyncStuck (a : Word) (n : Nat) (h : s.winArmed = true) (ha : s.asyncAvail = false)
      (hp : sourcePixels s (.buf a) 0 n = none) : ExecEffect s (.wrasync a n) s
  | fillEmpty (n : Nat) (c : Half) (h : s.winArmed = true) : ExecEffect s (.fill n c) (streamEnd .ok s)
  | fillSetup (n : Nat) (c : Half) (h : s.winArmed = true) (ha : s.asyncAvail = true) (hn : n ≠ 0) :
      ExecEffect s (.fill n c) (asyncSetup n (.color c) s)
  | fillSync (n : Nat) (c : Half) (ps : List Half) (h : s.winArmed = true) :
      ExecEffect s (.fill n c) (streamEnd .ok (emit (dataEvents (serAll ps)) s))
  | pixel (x y : Int) (c : Half) (h : inPanel s.effW s.effH x y = true) : ExecEffect s (.pixel x y c)
      (streamEnd .ok (emit (dataEvents [hiByte c, loByte c]) (arm x y x y s)))
  | pixelOutside (x y : Int) (c : Half) : ExecEffect s (.pixel x y c) (streamEnd .ok s)
  | fillrectEmpty (x y w h : Int) (c : Half) : ExecEffect s (.fillrect x y w h c) (streamEnd .ok s)
  | fillrectSetup (x y w h : Int) (c : Half) (r : Clip) (hr : clip s.effW s.effH x y w h = some r)
      (ha : s.asyncAvail = true) : ExecEffect s (.fillrect x y w h c)
        (asyncSetup (r.cw * r.ch) (.color c) (arm r.cx0 r.cy0 r.cx1 r.cy1 s))
  | fillrectSync (x y w h : Int) (c : Half) (r : Clip) (ps : List Half) (hr : clip s.effW s.effH x y w h = some r) :
      ExecEffect s (.fillrect x y w h c)
        (streamEnd .ok (emit (dataEvents (serAll ps)) (arm r.cx0 r.cy0 r.cx1 r.cy1 s)))
  | blitEmpty (x y w h : Int) (a : Word) : ExecEffect s (.blit x y w h a) (streamEnd .ok s)
  | blitSetup (x y w h : Int) (a : Word) (r : Clip) (hr : clip s.effW s.effH x y w h = some r)
      (ha : s.asyncAvail = true) : ExecEffect s (.blit x y w h a)
        (asyncSetup (r.cw * r.ch) (.blit a w.toNat r.sx r.sy r.cw) (arm r.cx0 r.cy0 r.cx1 r.cy1 s))
  | blitSync (x y w h : Int) (a : Word) (r : Clip) (ps : List Half) (hr : clip s.effW s.effH x y w h = some r) :
      ExecEffect s (.blit x y w h a)
        (streamEnd .ok (emit (dataEvents (serAll ps)) (arm r.cx0 r.cy0 r.cx1 r.cy1 s)))
  | blitStuck (x y w h : Int) (a : Word) (r : Clip) (hr : clip s.effW s.effH x y w h = some r)
      (ha : s.asyncAvail = false) (hp : sourcePixels s (.blit a w.toNat r.sx r.sy r.cw) 0 (r.cw * r.ch) = none) :
      ExecEffect s (.blit x y w h a) s
  | sendcmdStuck (cb : Byte) (a : Word) (n : Nat) (h : mapperOwned cb = false) (hb : hostBytes s a n = none) :
      ExecEffect s (.sendcmd cb a n) s
  | sendcmd (cb : Byte) (a : Word) (n : Nat) (bs : List Byte) (h : mapperOwned cb = false) :
      ExecEffect s (.sendcmd cb a n) (streamEnd .ok (emit (dataEvents bs) (emit (cmdEvents cb) s)))
  | backlight (l : Bool) : ExecEffect s (.backlight l) (respond .ok (emitBacklightPin l s))
  | panelrst (l : Bool) : ExecEffect s (.panelrst l) (streamEnd .ok (emitResetPin l s))
  | controller (i : Instr) (cmd : Byte) (payload : List Byte) (h : isRequest i = false) :
      ExecEffect s i (emit (controllerEvents cmd payload) s)

/-- Every next state of an instruction is one of its effects. -/
theorem exec_effect {i : Instr} {s t : State} (h : exec i s = .next t) : ExecEffect s i t := by
  cases i
  case setrot r =>
    rw [exec_setrot] at h
    split at h
    · cases h; exact .setrotArmed r ‹_›
    · rename_i hh; cases h; exact .setrotSame r (by simpa using hh)
  case armwin => cases h; exact .armwin ..
  case wrsync =>
    rcases exec_wrsync_next h with ⟨h1, rfl⟩ | ⟨h1, bs, hb, rfl⟩ | ⟨h1, hb, rfl⟩
    · exact .wrsyncRejected _ _ h1
    · exact .wrsync _ _ _ h1 hb
    · exact .wrsyncStuck _ _ h1 hb
  case wrasync a n =>
    simp only [exec, execWrasync] at h
    split at h
    · rename_i h1
      cases h
      cases ho : stream n (.buf a) s with
      | none => exact .wrasyncStuck _ _ h1 (stream_eq_none ho).2.1 (stream_eq_none ho).2.2
      | some t =>
        rcases stream_eq_some ho with ⟨-, rfl⟩ | ⟨hn, ha, rfl⟩ | ⟨-, -, ps, hp, rfl⟩
        · exact .wrasyncEmpty _ _ h1
        · exact .wrasyncSetup _ _ h1 ha hn
        · exact .wrasyncSync _ _ _ h1 hp
    · rename_i h1; cases h; exact .wrasyncRejected _ _ (by simpa using h1)
  case fill n c =>
    simp only [exec, execFill] at h
    split at h
    · rename_i h1
      cases h
      cases ho : stream n (.color c) s with
      | none => exact absurd ho (stream_color_ne_none n c s)
      | some t =>
        rcases stream_eq_some ho with ⟨-, rfl⟩ | ⟨hn, ha, rfl⟩ | ⟨-, -, ps, -, rfl⟩
        · exact .fillEmpty _ _ h1
        · exact .fillSetup _ _ h1 ha hn
        · exact .fillSync _ _ _ h1
    · rename_i h1; cases h; exact .fillRejected _ _ (by simpa using h1)
  case pixel =>
    rw [exec_pixel] at h
    split at h
    · cases h; exact .pixel _ _ _ ‹_›
    · cases h; exact .pixelOutside ..
  case fillrect x y w h c =>
    simp only [exec, execFillrect] at h
    split at h
    · cases h; exact .fillrectEmpty ..
    · rename_i r hr
      have hp := clip_extent hr
      cases h
      unfold streamClip
      cases ho : stream (r.cw * r.ch) (.color c) (arm r.cx0 r.cy0 r.cx1 r.cy1 s) with
      | none => exact absurd ho (stream_color_ne_none _ c _)
      | some t =>
        rcases stream_eq_some ho with ⟨hn, rfl⟩ | ⟨-, ha, rfl⟩ | ⟨-, -, ps, -, rfl⟩
        · exact absurd hn (Nat.mul_ne_zero (by omega) (by omega))
        · exact .fillrectSetup _ _ _ _ _ r hr ha
        · exact .fillrectSync _ _ _ _ _ r ps hr
  case blit =>
    simp only [exec, execBlit] at h
    split at h
    · cases h; exact .blitEmpty ..
    · rename_i r hr
      have hp := clip_extent hr
      cases h
      unfold streamClip
      cases ho : stream (r.cw * r.ch) _ (arm r.cx0 r.cy0 r.cx1 r.cy1 s) with
      | none => exact .blitStuck _ _ _ _ _ r hr (stream_eq_none ho).2.1 (stream_eq_none ho).2.2
      | some t =>
        rcases stream_eq_some ho with ⟨hn, rfl⟩ | ⟨-, ha, rfl⟩ | ⟨-, -, ps, -, rfl⟩
        · exact absurd hn (Nat.mul_ne_zero (by omega) (by omega))
        · exact .blitSetup _ _ _ _ _ r hr ha
        · exact .blitSync _ _ _ _ _ r ps hr
  case sendcmd =>
    rcases exec_sendcmd_next h with ⟨h1, rfl⟩ | ⟨h1, bs, -, rfl⟩ | ⟨h1, hb, rfl⟩
    · exact .sendcmdRejected _ _ _ h1
    · exact .sendcmd _ _ _ _ h1
    · exact .sendcmdStuck _ _ _ h1 hb
  case backlight => cases h; exact .backlight ..
  case panelrst => cases h; exact .panelrst ..
  all_goals (cases h; exact .controller _ _ _ rfl)

/-! ### What the Sequencer runs -/

/-- What the operand latches decode to is a request. -/
theorem latchedRequest_isRequest {s : State} {i : Instr} (h : latchedRequest s = .ok i) : isRequest i = true := by
  simp only [latchedRequest, decodeRequest] at h
  split at h <;> (first | (obtain ⟨-, rfl⟩ := checkHeader_ok.mp h) | cases h) <;> rfl

/-- An instruction runs only in EXEC, and it is the latched request, while the bus slot is empty. -/
theorem seqAction_run {s : State} {i : Instr} (hc : s.ctlSlot = none) (h : seqAction s = .run i) :
    s.seq = .exec ∧ latchedRequest s = .ok i := by
  rw [seqAction_of_slot hc] at h
  cases hs : s.seq <;> rw [hs] at h <;> simp only at h
  case exec =>
    refine ⟨rfl, ?_⟩
    split at h
    · cases h; assumption
    · cases h
  all_goals cases h

/-- Every other turn of the Sequencer tells what SEQ is, while the bus slot is empty. -/
theorem seqAction_seq {s : State} (hc : s.ctlSlot = none) :
    (seqAction s = .reject → s.seq = .exec) ∧ (seqAction s = .stage → s.seq = .stage) ∧
      (seqAction s = .start → s.seq = .start) ∧ (seqAction s = .wait → s.seq = .wait) ∧
      (seqAction s = .hold → s.seq = .idle) := by
  rw [seqAction_of_slot hc]
  cases hs : s.seq <;> simp only <;> (try simp)
  split <;> simp

/-! ### Named ways to the end of a chunk -/

/-- The last of `n + 1` channel turns comes after the first `n`. -/
theorem dmaTurns_succ (n : Nat) (s : State) : dmaTurns (n + 1) s = dmaStep (dmaTurns n s) := by
  induction n generalizing s with
  | zero => rfl
  | succ n ih => rw [dmaTurns, ih]; rfl

/-- A staged pixel list reads back at bytes 2j and 2j+1, and leaves every later byte (R144). -/
theorem read_staged (m : Memory) (ps : List Half) :
    (∀ j (h : j < ps.length), Memory.read (Memory.writeBytes m 0 (serAll ps)) (2 * j) = some (hiByte ps[j]) ∧
      Memory.read (Memory.writeBytes m 0 (serAll ps)) (2 * j + 1) = some (loByte ps[j])) ∧
    ∀ k, 2 * ps.length ≤ k → Memory.read (Memory.writeBytes m 0 (serAll ps)) k = Memory.read m k := by
  refine ⟨fun j h => ?_, fun k hk => ?_⟩
  · obtain ⟨a, b⟩ := serAll_getElem? ps j
    have hl := serAll_length ps
    rw [List.getElem?_eq_getElem (by omega), List.getElem?_eq_getElem h] at a b
    simp only [Option.map_some, Option.some.injEq] at a b
    rw [Memory.read_writeBytes, Memory.read_writeBytes, dif_pos (by omega), dif_pos (by omega)]
    exact ⟨congrArg some a, congrArg some b⟩
  · rw [Memory.read_writeBytes, dif_neg]
    rw [serAll_length]; omega

end Sys2Proof.Machine
end

