-- ==== Sys2Proof/Laws/Observer.lean ====
section
/-! SUPPORT. What the observer of the bus trace makes of the events that WTB's operations append. -/

namespace Sys2Proof.Machine

@[simp] theorem observeAll_nil (p : PanelView) : observeAll p [] = p := rfl
@[simp] theorem observeAll_cons (p : PanelView) (e : BusEvent) (es : List BusEvent) :
    observeAll p (e :: es) = observeAll (observe p e) es := rfl

/-- The observer reads a trace piece by piece. -/
theorem observeAll_append (p : PanelView) (xs ys : List BusEvent) :
    observeAll p (xs ++ ys) = observeAll (observeAll p xs) ys := List.foldl_append

/-- A command transaction is its command byte. -/
theorem observeAll_cmdEvents (p : PanelView) (b : Byte) : observeAll p (cmdEvents b) = observeCommand b p := rfl

/-- A data burst is its bytes: Begin and End say nothing to the observer. -/
theorem observeAll_dataEvents (p : PanelView) (bs : List Byte) :
    observeAll p (dataEvents bs) = bs.foldl (fun q v => observeData v q) p := by
  cases bs with
  | nil => rfl
  | cons b bs =>
    rw [dataEvents_of_ne_nil (by simp), observeAll_cons, observeAll_append]
    show observe (observeAll p ((b :: bs).map (BusEvent.byte .data))) .endTx = _
    rw [observeAll, List.foldl_map]
    rfl

/-- Where the format is known, the end of a command changes nothing. -/
theorem observeEnd_of_sixteen {p : PanelView} (h : p.sixteen = true) : observeEnd p = p := by simp [observeEnd, h]

/-- The end of a command other than 0x3A changes nothing. -/
theorem observeEnd_of_cmd {p : PanelView} (h : p.cmd ≠ 0x3A) : observeEnd p = p := if_neg fun hc => h hc.1

/-- A command of the table that is neither a reset nor a pixel format only ends the command before it. -/
theorem observeCommand_listed {b : Byte} (h : listedCommand b = true) (h1 : b ≠ 0x01) (h2 : b ≠ 0x3A) (p : PanelView) :
    observeCommand b p = { observeEnd p with cmd := b, data := [], half := none, count := 0 } := by
  simp only [observeCommand]
  rw [if_neg (not_or.mpr ⟨h1, by simp [h]⟩), if_neg h2]

/-- A command byte keeps the ranges or loses both. -/
theorem observeCommand_ranges (b : Byte) (p : PanelView) :
    ((observeCommand b p).col = p.col ∧ (observeCommand b p).row = p.row) ∨
      ((observeCommand b p).col = none ∧ (observeCommand b p).row = none) := by
  unfold observeCommand observeEnd
  split
  · exact .inr ⟨rfl, rfl⟩
  · split <;> split <;> first | exact .inl ⟨rfl, rfl⟩ | exact .inr ⟨rfl, rfl⟩

/-- A data byte outside a range set keeps the ranges or loses both, and the command stays. -/
theorem observeData_ranges {p : PanelView} (h1 : p.cmd ≠ 0x2A) (h2 : p.cmd ≠ 0x2B) (v : Byte) :
    (observeData v p).cmd = p.cmd ∧
      (((observeData v p).col = p.col ∧ (observeData v p).row = p.row) ∨
        ((observeData v p).col = none ∧ (observeData v p).row = none)) := by
  unfold observeData
  rw [if_neg h1, if_neg h2]
  split
  · exact ⟨rfl, .inl ⟨rfl, rfl⟩⟩
  · split
    · unfold observePixelByte
      split
      · split <;> exact ⟨rfl, .inl ⟨rfl, rfl⟩⟩
      · exact ⟨rfl, .inl ⟨rfl, rfl⟩⟩
    · split
      · simp only [observeFormat]
        split
        · exact ⟨rfl, .inl ⟨rfl, rfl⟩⟩
        · exact ⟨rfl, .inr ⟨rfl, rfl⟩⟩
      · exact ⟨rfl, .inr ⟨rfl, rfl⟩⟩

/-- The second byte of a pixel lands it, under the format 0x55 (R132, R191). -/
theorem observeData_pixel {p : PanelView} (hc : p.cmd = 0x2C) (hs : p.sixteen = true) (hh : p.half = none) (c : Half) :
    observeData (loByte c) (observeData (hiByte c) p) =
      { p with count := p.count + 1, landed := p.landed ++ [.pixel p.place c] } := by
  have h1 : observeData (hiByte c) p = { p with half := some (hiByte c) } := by
    simp [observeData, observePixelByte, hc, hs, hh]
  rw [h1]
  simp [observeData, observePixelByte, hc, hs, hh, hiByte_append_loByte, PanelView.place]

/-- The arm procedure leaves the observer at the start of a memory write, with both ranges of the window; the
orientation, the format and what has landed are those the end of the command before it leaves (R121, R129). -/
theorem observeAll_windowEvents (p : PanelView) (x0 y0 x1 y1 : Half) :
    observeAll p (windowEvents x0 y0 x1 y1) =
      { observeEnd p with cmd := 0x2C, data := [], half := none, count := 0,
                             col := some (x0.toNat, x1.toNat), row := some (y0.toNat, y1.toNat) } := by
  simp only [windowEvents, controllerEvents, rangePayload, ser, List.cons_append, List.nil_append, observeAll_append,
    observeAll_cmdEvents, observeAll_dataEvents, List.foldl_cons, List.foldl_nil]
  rw [observeCommand_listed rfl (by decide) (by decide), observeCommand_listed rfl (by decide) (by decide),
    observeCommand_listed rfl (by decide) (by decide)]
  simp [observeEnd_of_cmd, observeData, rangeOf, hiByte_append_loByte]

end Sys2Proof.Machine
end

