-- ==== Sys2Proof/Laws/PerInstr.lean ====
section
/-! SUPPORT. One statement per instruction, about its encoding alone: the first word of the encoding lies in the
instruction's row of spec/opcode_table.json (R79 to R81, R89). -/

namespace Sys2Proof.Laws.OpcodeRow

open Sys2Proof Sys2Proof.Machine

/-- The command byte of a controller command (R89); a request has none. -/
def controllerRow : Instr → Option Byte
  | .setrot _ => none
  | .armwin _ _ _ _ => none
  | .wrsync _ _ => none
  | .wrasync _ _ => none
  | .fill _ _ => none
  | .pixel _ _ _ => none
  | .fillrect _ _ _ _ _ => none
  | .blit _ _ _ _ _ => none
  | .sendcmd _ _ _ => none
  | .backlight _ => none
  | .panelrst _ => none
  | .ctlSwreset => some 0x01
  | .ctlSlpout => some 0x11
  | .ctlPixfmt _ => some 0x3A
  | .ctlOrient _ => some 0x36
  | .ctlCaset _ _ => some 0x2A
  | .ctlRaset _ _ => some 0x2B
  | .ctlRamwr => some 0x2C
  | .ctlInvon => some 0x21
  | .ctlDispon => some 0x29

/-- The header of a request agrees with its row under the row's mask; a controller command begins with its row's byte. -/
def Statement (i : Instr) : Prop :=
  match encode i with
  | .request cmd _ _ _ => ∃ r, requestRow i = some r ∧ cmd &&& r.2 = r.1
  | .controller w => controllerRow i = some (ctlByte w 0)

theorem setrot (rot : BitVec 2) : Statement (.setrot rot) :=
  ⟨_, rfl, by revert rot; decide⟩

theorem armwin (x0 y0 x1 y1 : Int) : Statement (.armwin x0 y0 x1 y1) :=
  ⟨_, rfl, by decide⟩

theorem wrsync (addr : Word) (count : Nat) : Statement (.wrsync addr count) :=
  ⟨_, rfl, by decide⟩

theorem wrasync (addr : Word) (count : Nat) : Statement (.wrasync addr count) :=
  ⟨_, rfl, by decide⟩

theorem fill (count : Nat) (color : Half) : Statement (.fill count color) :=
  ⟨_, rfl, by decide⟩

theorem pixel (x y : Int) (color : Half) : Statement (.pixel x y color) :=
  ⟨_, rfl, by decide⟩

theorem fillrect (x y w h : Int) (color : Half) : Statement (.fillrect x y w h color) :=
  ⟨_, rfl, by decide⟩

theorem blit (x y w h : Int) (addr : Word) : Statement (.blit x y w h addr) :=
  ⟨_, rfl, by decide⟩

theorem sendcmd (cb : Byte) (addr : Word) (count : Nat) : Statement (.sendcmd cb addr count) :=
  ⟨_, rfl, by revert cb; decide⟩

theorem backlight (lvl : Bool) : Statement (.backlight lvl) :=
  ⟨_, rfl, by revert lvl; decide⟩

theorem panelrst (lvl : Bool) : Statement (.panelrst lvl) :=
  ⟨_, rfl, by revert lvl; decide⟩

theorem ctlSwreset : Statement .ctlSwreset :=
  congrArg some (ctlByte_ctlWord_0 _ _ _ _ _).symm

theorem ctlSlpout : Statement .ctlSlpout :=
  congrArg some (ctlByte_ctlWord_0 _ _ _ _ _).symm

theorem ctlPixfmt (fmt : Byte) : Statement (.ctlPixfmt fmt) :=
  congrArg some (ctlByte_ctlWord_0 _ _ _ _ _).symm

theorem ctlOrient (code : Byte) : Statement (.ctlOrient code) :=
  congrArg some (ctlByte_ctlWord_0 _ _ _ _ _).symm

theorem ctlCaset (x0 x1 : Half) : Statement (.ctlCaset x0 x1) :=
  congrArg some (ctlByte_ctlWord_0 _ _ _ _ _).symm

theorem ctlRaset (y0 y1 : Half) : Statement (.ctlRaset y0 y1) :=
  congrArg some (ctlByte_ctlWord_0 _ _ _ _ _).symm

theorem ctlRamwr : Statement .ctlRamwr :=
  congrArg some (ctlByte_ctlWord_0 _ _ _ _ _).symm

theorem ctlInvon : Statement .ctlInvon :=
  congrArg some (ctlByte_ctlWord_0 _ _ _ _ _).symm

theorem ctlDispon : Statement .ctlDispon :=
  congrArg some (ctlByte_ctlWord_0 _ _ _ _ _).symm

end Sys2Proof.Laws.OpcodeRow
end

