-- ==== Sys2Proof/Tests/Slice0.lean ====
section
/-! SUPPORT. Tests of the model against the vectors of 95_test_vectors.md and words written out from 30_encoding.md, and a
witness for the hypotheses of each obligation. -/

namespace Sys2Proof.Tests

open Sys2Proof Sys2Proof.Machine

/-! ### Ill-formed terms: WellFormed refuses each -/

theorem test_wf_armwin_x0_too_large : (Instr.armwin 32768 0 0 0).wellFormed = false := by decide
theorem test_wf_armwin_y0_too_small : (Instr.armwin 0 (-32769) 0 0).wellFormed = false := by decide
theorem test_wf_armwin_x1_too_small : (Instr.armwin 0 0 (-32769) 0).wellFormed = false := by decide
theorem test_wf_armwin_y1_too_large : (Instr.armwin 0 0 0 32768).wellFormed = false := by decide
theorem test_wf_wrsync_count : (Instr.wrsync 0 (2 ^ 32)).wellFormed = false := by decide
theorem test_wf_wrasync_count : (Instr.wrasync 0 (2 ^ 32)).wellFormed = false := by decide
theorem test_wf_fill_count : (Instr.fill (2 ^ 32) 0).wellFormed = false := by decide
theorem test_wf_pixel_x : (Instr.pixel 32768 0 0).wellFormed = false := by decide
theorem test_wf_pixel_y : (Instr.pixel 0 (-32769) 0).wellFormed = false := by decide
theorem test_wf_fillrect_x : (Instr.fillrect (-32769) 0 1 1 0).wellFormed = false := by decide
theorem test_wf_fillrect_y : (Instr.fillrect 0 32768 1 1 0).wellFormed = false := by decide
theorem test_wf_fillrect_w : (Instr.fillrect 0 0 32768 1 0).wellFormed = false := by decide
theorem test_wf_fillrect_h : (Instr.fillrect 0 0 1 (-32769) 0).wellFormed = false := by decide
theorem test_wf_blit_x : (Instr.blit 32768 0 1 1 0).wellFormed = false := by decide
theorem test_wf_blit_y : (Instr.blit 0 (-32769) 1 1 0).wellFormed = false := by decide
theorem test_wf_blit_w : (Instr.blit 0 0 (-32769) 1 0).wellFormed = false := by decide
theorem test_wf_blit_h : (Instr.blit 0 0 1 32768 0).wellFormed = false := by decide
theorem test_wf_sendcmd_count : (Instr.sendcmd 0x29 0 (2 ^ 32)).wellFormed = false := by decide
theorem test_wf_orient_code : (Instr.ctlOrient 0x61).wellFormed = false := by decide
theorem test_wf_limits : (Instr.blit (-32768) 32767 32767 (-32768) 0).wellFormed = true ∧
    (Instr.wrsync 0 (2 ^ 32 - 1)).wellFormed = true := by decide

/-! ### Decoding: words written out bit by bit from 30_encoding.md R79, R81 and R89 -/

theorem test_decode_setrot : decodeTableWord 32 0b00000000000000000000001000000001 = some (.setrot 2) := by decide
theorem test_decode_armwin : decodeTableWord 96 0x80007FFF_FFFF0005_00000002
    = some (.armwin 5 (-1) 32767 (-32768)) := by decide
theorem test_decode_wrsync : decodeTableWord 96 0xFFFFFFFF_00000100_00000003
    = some (.wrsync 0x100 4294967295) := by decide
theorem test_decode_wrasync : decodeTableWord 96 0x00000002_00000201_00000004 = some (.wrasync 0x201 2) := by decide
theorem test_decode_fill : decodeTableWord 96 0xABCD1234_00000003_00000005 = some (.fill 3 0x1234) := by decide
theorem test_decode_pixel : decodeTableWord 96 0x0000F800_FFFF0005_00000006 = some (.pixel 5 (-1) 0xF800) := by decide
theorem test_decode_fillrect : decodeTableWord 128 0xABCD1234_0002FFFD_80007FFF_00000007
    = some (.fillrect 32767 (-32768) (-3) 2 0x1234) := by decide
theorem test_decode_blit : decodeTableWord 128 0x00002000_00020004_0000FFFE_00000008
    = some (.blit (-2) 0 4 2 0x2000) := by decide
theorem test_decode_sendcmd : decodeTableWord 96 0x00000001_00000400_003A0009
    = some (.sendcmd 0x3A 0x400 1) := by decide
theorem test_decode_backlight : decodeTableWord 32 0b00000000000000000000010000001010
    = some (.backlight true) := by decide
theorem test_decode_panelrst : decodeTableWord 32 0b00000000000000000000000000001011
    = some (.panelrst false) := by decide
theorem test_decode_ctlSwreset : decodeTableWord 8 0b00000001 = some .ctlSwreset := by decide
theorem test_decode_ctlSlpout : decodeTableWord 8 0b00010001 = some .ctlSlpout := by decide
theorem test_decode_ctlPixfmt : decodeTableWord 16 0b01010101_00111010 = some (.ctlPixfmt 0x55) := by decide
theorem test_decode_ctlOrient : decodeTableWord 16 0b10100000_00110110 = some (.ctlOrient 0xA0) := by decide
theorem test_decode_ctlCaset : decodeController 0x3F01EF002A = .ok (.ctlCaset 0x00EF 0x013F) := rfl
theorem test_decode_ctlRaset : decodeController 0x3F010A002B = .ok (.ctlRaset 0x000A 0x013F) := rfl
theorem test_decode_ctlRamwr : decodeTableWord 8 0b00101100 = some .ctlRamwr := by decide
theorem test_decode_ctlInvon : decodeTableWord 8 0b00100001 = some .ctlInvon := by decide
theorem test_decode_ctlDispon : decodeTableWord 8 0b00101001 = some .ctlDispon := by decide

/-- V-DEC-3, V-DEC-5, V-DEC-11, V-DEC-12, V-DEC-13: a bit outside the operation's fields. -/
theorem test_decode_reserved_bits :
    decodeRequest 0x00000401 0 0 0 = .error .reservedBits ∧ decodeRequest 0x0000010A 0 0 0 = .error .reservedBits ∧
    decodeRequest 0x01000002 0 0 0 = .error .reservedBits ∧ decodeRequest 0x00000802 0 0 0 = .error .reservedBits ∧
    decodeRequest 0x00010002 0 0 0 = .error .reservedBits := ⟨rfl, rfl, rfl, rfl, rfl⟩

/-- V-DEC-6, V-DEC-7, V-DEC-8: a reserved OP. -/
theorem test_decode_reserved_op :
    decodeRequest 0x00000000 0 0 0 = .error (.reservedOp 0x00) ∧
    decodeRequest 0x0000000C 0 0 0 = .error (.reservedOp 0x0C) ∧
    decodeRequest 0x000000FF 0 0 0 = .error (.reservedOp 0xFF) := ⟨rfl, rfl, rfl⟩

/-- R89: a byte outside the table, an orientation code outside the four, and a byte the command does not have. -/
theorem test_decode_controller_refused :
    decodeController 0xB2 = .error (.unlistedByte 0xB2) ∧ decodeController 0x6136 = .error (.orientationCode 0x61) ∧
    decodeController 0x5511 = .error .payloadBits := ⟨rfl, rfl, rfl⟩

/-! ### One step: the vectors of 95_test_vectors.md section 2 -/

/-- A command transaction as 95_test_vectors.md writes it. -/
def cmdTx (b : Byte) : List BusEvent := [.beginTx, .byte .command b, .endTx]

/-- A data burst as 95_test_vectors.md writes it. -/
def dataTx (bs : List Byte) : List BusEvent := .beginTx :: (bs.map (.byte .data) ++ [.endTx])

/-- The trace of a window with the given range payloads. -/
def windowTx (col row : List Byte) : List BusEvent :=
  cmdTx 0x2A ++ dataTx col ++ cmdTx 0x2B ++ dataTx row ++ cmdTx 0x2C

/-- The default start of 95_test_vectors.md: 240×320, ASYNC_AVAIL = 0. -/
def syncStart : State := State.resetWith { Config.platform with asyncEn := false } Config.platformDraws

/-- The default start with an armed window and host memory as given. -/
def armedStart (m : Memory) : State := { syncStart with winArmed := true, mem := m }

/-- The next state of an outcome, if it is one. -/
def nextOf : Result → Option State
  | .next t => some t
  | .fault _ => none
  | .refused _ => none

/-- What a request leaves of interest: the trace, the response and WIN_ARMED. -/
def seen (t : State) : List BusEvent × Bool × RespCode × Bool := (t.trace, t.respValid, t.respCode, t.winArmed)

/-- V-ROT-3. -/
theorem test_setrot_rearms : (nextOf (exec (.setrot 1) syncStart)).map (fun t => (seen t, t.effW, t.effH, t.winX1, t.winY1))
    = some ((cmdTx 0x36 ++ dataTx [0x60] ++ windowTx [0, 0, 1, 0x3F] [0, 0, 0, 0xEF], true, .ok, true),
        320, 240, 319, 239) := by decide

/-- V-ROT-5: same dimensions, no window. -/
theorem test_setrot_same_dims :
    (nextOf (exec (.setrot 3) { syncStart with rot := 1, effW := 320, effH := 240, winArmed := true })).map
      (fun t => (seen t, t.rot)) = some ((cmdTx 0x36 ++ dataTx [0xA0], true, .ok, false), 3) := by decide

/-- V-ARM-5. -/
theorem test_armwin_clamps : (nextOf (exec (.armwin (-5) 10 500 400) syncStart)).map seen
    = some (windowTx [0, 0, 0, 0xEF] [0, 0x0A, 1, 0x3F], true, .ok, true) := by decide

/-- V-ARM-6: an unordered window is sent as it is. -/
theorem test_armwin_unordered : (nextOf (exec (.armwin 10 20 5 8) syncStart)).map seen
    = some (windowTx [0, 0x0A, 0, 5] [0, 0x14, 0, 8], true, .ok, true) := by decide

/-- V-ST-2. -/
theorem test_wrsync_bytes :
    (nextOf (exec (.wrsync 0x100 3) (armedStart [(0x100, 0xAB), (0x101, 0xCD), (0x102, 0xEF)]))).map seen
      = some (dataTx [0xAB, 0xCD, 0xEF], true, .ok, false) := by decide

/-- V-ST-9: the address wraps. -/
theorem test_wrsync_wraps :
    (nextOf (exec (.wrsync 0xFFFFFFFF 2) (armedStart [(0, 0x22), (0xFFFFFFFF, 0x11)]))).map seen
      = some (dataTx [0x11, 0x22], true, .ok, false) := by decide

/-- V-ST-6: pixels are little-endian in memory, high byte first on the bus. -/
theorem test_wrasync_byte_order :
    (nextOf (exec (.wrasync 0x200 2)
      (armedStart [(0x200, 0x34), (0x201, 0x12), (0x202, 0x78), (0x203, 0x56)]))).map seen
      = some (dataTx [0x12, 0x34, 0x56, 0x78], true, .ok, false) := by decide

/-- V-CH-9, its EXEC row: the async path goes to STAGE and sends nothing. -/
theorem test_wrasync_sets_up :
    (nextOf (exec (.wrasync 0x1000 5) { State.reset with winArmed := true })).map
      (fun t => (t.seq, t.job, t.trace, t.totalPx, t.donePx)) = some (.stage, .idle, [], 5, 0) := by decide

/-- V-ST-4. -/
theorem test_fill_sync : (nextOf (exec (.fill 3 0xF800) (armedStart []))).map seen
    = some (dataTx [0xF8, 0, 0xF8, 0, 0xF8, 0], true, .ok, false) := by decide

/-- V-ST-5: no pixel, OK at once. -/
theorem test_fill_none : (nextOf (exec (.fill 0 0x1234) (armedStart []))).map seen
    = some ([], true, .ok, false) := by decide

/-- V-PX-2. -/
theorem test_pixel_last : (nextOf (exec (.pixel 239 319 0xFFFF) syncStart)).map seen
    = some (windowTx [0, 0xEF, 0, 0xEF] [1, 0x3F, 1, 0x3F] ++ dataTx [0xFF, 0xFF], true, .ok, false) := by decide

/-- V-PX-3: outside, not clamped. -/
theorem test_pixel_outside : (nextOf (exec (.pixel 240 0 0xFFFF) (armedStart []))).map seen
    = some ([], true, .ok, false) := by decide

/-- V-FR-1. -/
theorem test_fillrect_inside : (nextOf (exec (.fillrect 10 20 3 2 0xF800) syncStart)).map seen
    = some (windowTx [0, 0x0A, 0, 0x0C] [0, 0x14, 0, 0x15]
        ++ dataTx [0xF8, 0, 0xF8, 0, 0xF8, 0, 0xF8, 0, 0xF8, 0, 0xF8, 0], true, .ok, false) := by decide

/-- V-FR-5 on the async path: the clipped window, 25 pixels to come. -/
theorem test_fillrect_clipped :
    (nextOf (exec (.fillrect 235 315 10 10 0x1234) State.reset)).map (fun t => (t.trace, t.totalPx, t.seq))
      = some (windowTx [0, 0xEB, 0, 0xEF] [1, 0x3B, 1, 0x3F], 25, .stage) := by decide

/-- The image of 95_test_vectors.md section 2.10, its first nine pixels. -/
def image : Memory :=
  [(0x2000, 0x00), (0x2001, 0x11), (0x2002, 0x01), (0x2003, 0x11), (0x2004, 0x02), (0x2005, 0x11), (0x2006, 0x03),
   (0x2007, 0x11), (0x2008, 0x04), (0x2009, 0x11), (0x200A, 0x05), (0x200B, 0x11), (0x200C, 0x06), (0x200D, 0x11),
   (0x200E, 0x07), (0x200F, 0x11), (0x2010, 0x08), (0x2011, 0x11)]

/-- V-BL-1, with only the bytes it reads admitted. -/
theorem test_blit_left_clip :
    (nextOf (exec (.blit (-2) 0 4 2 0x2000)
      { syncStart with mem := [(0x2004, 0x02), (0x2005, 0x11), (0x2006, 0x03), (0x2007, 0x11),
                               (0x200C, 0x06), (0x200D, 0x11), (0x200E, 0x07), (0x200F, 0x11)] })).map seen
      = some (windowTx [0, 0, 0, 1] [0, 0, 0, 1]
          ++ dataTx [0x11, 0x02, 0x11, 0x03, 0x11, 0x06, 0x11, 0x07], true, .ok, false) := by decide

/-- V-BL-3: clipped at the top and the left. -/
theorem test_blit_corner_clip :
    (nextOf (exec (.blit (-1) (-1) 3 3 0x2000) { syncStart with mem := image })).map seen
      = some (windowTx [0, 0, 0, 1] [0, 0, 0, 1]
          ++ dataTx [0x11, 0x04, 0x11, 0x05, 0x11, 0x07, 0x11, 0x08], true, .ok, false) := by decide

/-- V-PC-6. -/
theorem test_sendcmd_payload :
    (nextOf (exec (.sendcmd 0xB2 0x500 2) { syncStart with mem := [(0x500, 1), (0x501, 2)] })).map seen
      = some (cmdTx 0xB2 ++ dataTx [1, 2], true, .ok, false) := by decide

/-- V-PC-4: a mapper-owned byte. -/
theorem test_sendcmd_mapper_owned : (nextOf (exec (.sendcmd 0x2B 0x400 4) (armedStart []))).map seen
    = some ([], true, .rejected, true) := by decide

/-- V-PC-8: the pin event comes again. -/
theorem test_backlight_again :
    (nextOf (exec (.backlight true) { syncStart with backlight := true, winArmed := true })).map
      (fun t => (seen t, t.backlight)) = some (([.pin .backlight true], true, .ok, true), true) := by decide

/-- V-PC-9. -/
theorem test_panelrst_spends_window :
    (nextOf (exec (.panelrst true) (armedStart []))).map (fun t => (seen t, t.resetLine, t.rot))
      = some (([.pin .reset true], true, .ok, false), true, 0) := by decide

theorem test_ctlSwreset : (nextOf (exec .ctlSwreset syncStart)).map (·.trace) = some (cmdTx 0x01) := by decide
theorem test_ctlSlpout : (nextOf (exec .ctlSlpout syncStart)).map (·.trace) = some (cmdTx 0x11) := by decide
theorem test_ctlPixfmt : (nextOf (exec (.ctlPixfmt 0x55) syncStart)).map (·.trace)
    = some (cmdTx 0x3A ++ dataTx [0x55]) := by decide
theorem test_ctlOrient : (nextOf (exec (.ctlOrient 0xC0) syncStart)).map (·.trace)
    = some (cmdTx 0x36 ++ dataTx [0xC0]) := by decide
theorem test_ctlCaset : (nextOf (exec (.ctlCaset 0x00EF 0x013F) syncStart)).map (·.trace)
    = some (cmdTx 0x2A ++ dataTx [0x00, 0xEF, 0x01, 0x3F]) := by decide
theorem test_ctlRaset : (nextOf (exec (.ctlRaset 0x000A 0x013F) syncStart)).map (·.trace)
    = some (cmdTx 0x2B ++ dataTx [0x00, 0x0A, 0x01, 0x3F]) := by decide
theorem test_ctlRamwr : (nextOf (exec .ctlRamwr syncStart)).map (·.trace) = some (cmdTx 0x2C) := by decide
theorem test_ctlInvon : (nextOf (exec .ctlInvon syncStart)).map (·.trace) = some (cmdTx 0x21) := by decide
theorem test_ctlDispon : (nextOf (exec .ctlDispon syncStart)).map (·.trace) = some (cmdTx 0x29) := by decide

/-- A placed request runs as the first instruction after reset (V-DEC-4). -/
theorem test_step_runs_placed_request :
    (nextOf (step (State.reset.withFetchWord 32 0x0000040A))).map (fun t => (t.trace, t.seq))
      = some ([.pin .backlight true], .idle) := by decide

/-- A placed controller command is sent as the first thing after reset. -/
theorem test_step_sends_placed_command :
    (nextOf (step (State.reset.withFetchWord 8 0x11))).map (·.trace) = some (cmdTx 0x11) := by decide

/-- A read that is not admitted leaves the Sequencer stuck: it takes no step, BUSY stays 1 (R57, R215). -/
theorem test_not_admitted_is_stuck :
    (nextOf (step { armedStart [(0x100, 1), (0x101, 2)] with
        seq := .exec, oplCmd := 3, oplArg0 := 0x100, oplArg1 := 3, schedule := [.sequencer] })).map
      (fun t => (seen t, t.seq)) = some (([], false, .ok, true), .exec) := by decide

/-- V-CH-10, its first STAGE: SCRATCH[0..7] filled once. -/
theorem test_stage_prefill :
    (fun t : State => (t.scratch.map (·.2), t.curPx, t.prefilled, t.job))
        (stageStep { State.reset with chunkMax := 4, totalPx := 10, src := .color 0x07E0, seq := .stage })
      = ([0x07, 0xE0, 0x07, 0xE0, 0x07, 0xE0, 0x07, 0xE0], 4, true, .staging) := by decide

/-- V-CH-9, its second STAGE: one pixel is left of five. -/
theorem test_stage_last_chunk :
    (fun t : State => (t.scratch.map (·.2), t.curPx, t.seq))
        (stageStep { State.reset with chunkMax := 4, totalPx := 5, donePx := 4, src := .buf 0x1FFC, seq := .stage,
                                      mem := image }) = ([0x11, 0x02], 1, .start) := by decide

/-- V-TO-1's chunk in WAIT: STALL(3), its three bytes sent. -/
def stalled (now : Word) : State :=
  { State.reset with
    seq := .wait, job := .active, totalPx := 4, curPx := 4, tStart := 100, tmo := 5, now := now
    dmaActive := true, dmaLen := 8, dmaSent := 3, dmaFate := .stall 3
    trace := [.beginTx, .byte .data 1, .byte .data 2, .byte .data 3] }

/-- V-TO-1: the timeout step is not enabled at 104. -/
theorem test_timeout_not_yet : waitStep (stalled 104) = stalled 104 := by decide

/-- V-TO-1: at 105 it aborts; RESP reads 0x3 and STATUS 0x12. -/
theorem test_timeout_aborts :
    (waitStep (stalled 105)).trace = dataTx [1, 2, 3] ∧ (waitStep (stalled 105)).job = .timedOut ∧
    portRead (waitStep (stalled 105)) 0x34 = 0x3 ∧ portRead (waitStep (stalled 105)) 0x00 = 0x12 := by decide

/-- V-TO-3: elapsed is taken mod 2^32. -/
theorem test_timeout_wraps :
    (waitStep { stalled 3 with tStart := 0xFFFFFFFE }).seq = .idle ∧
    (waitStep { stalled 2 with tStart := 0xFFFFFFFE }).seq = .wait := by decide

/-- V-TO-5: the whole chunk was sent and its completion step not taken, so the abort appends nothing. -/
theorem test_timeout_after_last_byte :
    (waitStep { stalled 105 with dmaSent := 8, dmaFate := .deliver, trace := dataTx [1, 2, 3, 4, 5, 6, 7, 8] }).trace
      = dataTx [1, 2, 3, 4, 5, 6, 7, 8] := by decide

/-- R151: the last byte of a chunk is followed by End. -/
theorem test_dma_last_byte :
    (dmaStep { stalled 100 with dmaSent := 7, dmaFate := .deliver, scratch := [(7, 0xAA)], trace := [] }).trace
      = [.byte .data 0xAA, .endTx] := by decide

/-- V-HP-1. -/
theorem test_port_after_reset :
    [0x00, 0x04, 0x08, 0x0C, 0x10, 0x14, 0x18, 0x1C, 0x20, 0x30, 0x34, 0x2C].map (portRead State.reset)
      = [0x00000000, 0x014000F0, 0x014000F0, 0x000003E8, 0x00000003, 0x00000040, 0, 0, 0, 0, 0, 0] := by decide

/-- V-HP-2. -/
theorem test_port_after_reset_rotated :
    [0x00, 0x04].map (portRead (State.resetWith { Config.platform with initRot := 1 } Config.platformDraws))
      = [0x00000020, 0x00F00140] := by decide

/-- V-HP-4: STATUS and RESP after V-ROT-3. -/
theorem test_port_after_setrot :
    (nextOf (exec (.setrot 1) syncStart)).map (fun t => (portRead t 0x00, portRead t 0x34))
      = some (0x000000A2, 0x00000001) := by decide

/-- V-HP-8: not consumed, so the request is dropped. -/
theorem test_submit_dropped :
    (portWrite 0x30 0x0000040A { State.reset with respValid := true }).drop = true ∧
    (portWrite 0x30 0x0000040A { State.reset with respValid := true }).seq = .idle := by decide

/-- V-HP-9. -/
theorem test_drop_cleared :
    (portWrite 0x34 0x2 { State.reset with respValid := true, drop := true }).drop = false ∧
    (portWrite 0x34 0x2 { State.reset with respValid := true, drop := true }).respValid = true := by decide

/-- V-HP-11: a 16-bit access at 0x02, and a 32-bit access at 0x06; and a byte store into the block (R61, R62). -/
theorem test_port_refuses :
    hostStep { State.reset with hostOps := [.read 0x80000002 16] } = .refused .portAccess ∧
    hostStep { State.reset with hostOps := [.read 0x80000006 32] } = .refused .portAccess ∧
    hostStep { State.reset with hostOps := [.store 0x8000003F 1] } = .refused .portAccess := ⟨rfl, rfl, rfl⟩

/-- R95: WAITRESP's POLL reads STATUS = 0 and stays pending, reads 0x2 with a response posted and is done. -/
theorem test_poll :
    (∃ t, hostStep { State.reset with hostOps := [.poll 0x80000000 0x2 0x2] } = .next t ∧ t.hostData = 0 ∧
      t.hostOps = [.poll 0x80000000 0x2 0x2]) ∧
    (∃ t, hostStep { State.reset with respValid := true, hostOps := [.poll 0x80000000 0x2 0x2] } = .next t ∧
      t.hostData = 0x2 ∧ t.hostOps = []) := ⟨⟨_, rfl, by decide, by decide⟩, ⟨_, rfl, by decide, by decide⟩⟩

/-- V-TO-8. -/
theorem test_timeout_register_of_zero : portRead (portWrite 0x0C 0 State.reset) 0x0C = 1 := by decide

/-- V-COL-2, V-COL-5, V-COL-6, V-COL-7. -/
theorem test_pack : [pack 255 0 0, pack 7 3 7, pack 8 4 8, pack 128 128 128] = [0xF800, 0x0000, 0x0821, 0x8410] := by
  decide

/-- P1: the register writes of its FILLRECT line. -/
theorem test_assemble_fillrect :
    assembleRequest Config.platform (.fillrect 10 20 3 2 0xF800)
      = some [.write 0x80000020 32 0x0014000A, .write 0x80000024 32 0x00020003, .write 0x80000028 32 0x0000F800,
          .write 0x80000030 32 0x00000007] := by decide

/-- P4: the register writes of its SENDCMD0 line. -/
theorem test_assemble_sendcmd0 :
    assemble Config.platform [.sendcmd0 0x11]
      = some [.write 0x80000020 32 0, .write 0x80000024 32 0, .write 0x80000030 32 0x00110009] := by decide

/-- P4 (R231): each request of the bring-up is followed by WAITRESP; step 7 is left out where the host chooses so. -/
theorem test_bringUp :
    (bringUp 0 0x400 true ⟨1, 2, 3, 4⟩).map (·.1) =
      [.request (.panelrst true), .waitresp, .request (.panelrst false), .waitresp, .sendcmd0 0x01, .waitresp,
       .sendcmd0 0x11, .waitresp, .request (.sendcmd 0x3A 0x400 1), .waitresp, .request (.setrot 0), .waitresp,
       .sendcmd0 0x21, .waitresp, .sendcmd0 0x29, .waitresp, .request (.backlight true), .waitresp] ∧
    (AsmLine.sendcmd0 0x21, 0) ∉ bringUp 0 0x400 false ⟨1, 2, 3, 4⟩ := by decide

/-- P1's window and four of its pixels. -/
def windowAndPixels : List BusEvent :=
  windowTx [0, 0x0A, 0, 0x0C] [0, 0x14, 0, 0x15] ++ dataTx [0xF8, 0, 0xF8, 0, 0xF8, 0, 0xF8, 0]

/-- The places of those pixels (R129). -/
def windowLandings : List Landing :=
  [.pixel (some (10, 20)) 0xF800, .pixel (some (11, 20)) 0xF800, .pixel (some (12, 20)) 0xF800, .pixel (some (10, 21)) 0xF800]

/-- P1: where its pixels land after SETROT. -/
theorem test_landing :
    (observeAll PanelView.fresh (cmdTx 0x36 ++ dataTx [0x60] ++ windowAndPixels)).landed = windowLandings := by decide

/-- P3: its stream lands from WTB's reset, with no SETROT. -/
theorem test_landing_from_reset :
    (observeAll PanelView.fresh (windowTx [0, 0, 0, 1] [0, 0, 0, 1] ++ dataTx [0x11, 2, 0x11, 3, 0x11, 6, 0x11, 7])).landed
      = [.pixel (some (0, 0)) 0x1102, .pixel (some (1, 0)) 0x1103, .pixel (some (0, 1)) 0x1106,
         .pixel (some (1, 1)) 0x1107] := by decide

/-- R234: between a controller reset, by its line or by 0x01, and the next SETROT no pixel has a place. -/
theorem test_landing_after_reset :
    ∀ evs ∈ [[BusEvent.pin .reset true, .pin .reset false], cmdTx 0x01],
      (observeAll PanelView.fresh (evs ++ cmdTx 0x3A ++ dataTx [0x55] ++ windowAndPixels)).landed
        = List.replicate 4 (.pixel none 0xF800) ∧
      (observeAll PanelView.fresh (evs ++ cmdTx 0x3A ++ dataTx [0x55] ++ cmdTx 0x36 ++ dataTx [0] ++ windowAndPixels)).landed
        = windowLandings := by decide

/-- R191, R235: under a payload of 0x3A other than 0x55 no byte has a meaning, until 0x55 is sent. -/
theorem test_landing_other_format :
    (∀ payload ∈ [[], [0x66], [0x55, 0x55]],
      (observeAll PanelView.fresh (cmdTx 0x3A ++ (if payload = [] then [] else dataTx payload) ++ windowAndPixels)).landed
        = List.replicate 8 .unspecified) ∧
    (observeAll PanelView.fresh (cmdTx 0x3A ++ dataTx [0x55] ++ windowAndPixels)).landed = windowLandings := by decide

/-- R184, I7: after a 0x3A with no payload, or with one the table does not list, the orientation is lost too, so that no
pixel has a place until SETROT, though 0x3A 0x55 is sent again. -/
theorem test_landing_unlisted_payload :
    ∀ payload ∈ [[], [0x66], [0x55, 0x55]],
      let evs := cmdTx 0x3A ++ (if payload = [] then [] else dataTx payload) ++ cmdTx 0x3A ++ dataTx [0x55]
      (observeAll PanelView.fresh (evs ++ windowAndPixels)).landed = List.replicate 4 (.pixel none 0xF800) ∧
      (observeAll PanelView.fresh (evs ++ cmdTx 0x36 ++ dataTx [0] ++ windowAndPixels)).landed = windowLandings := by
  decide

/-- R129, I5: a memory write before any range has no place. -/
theorem test_landing_without_window :
    (observeAll PanelView.fresh (cmdTx 0x2C ++ dataTx [0xF8, 0])).landed = [.pixel none 0xF800] := by decide

/-- R113, R245: a run with an operation pending, a request executing, or a response not consumed is not over. -/
theorem test_runOver : runOver State.reset = true ∧
    runOver { State.reset with hostOps := [.read 0x80000000 32] } = false ∧
    runOver { State.reset with seq := .exec } = false ∧ runOver { State.reset with respValid := true } = false := by decide

/-! ### Witnesses: a concrete case of the hypotheses of each obligation, clause by clause -/

/-- The default start on the Sequencer's turn. -/
def turn (q : Seq) : State := { syncStart with schedule := [.sequencer], seq := q }

/-- A chunk of two bytes in flight, on the given agent's turn. -/
def inFlight (a : Agent) : State :=
  { State.reset with
    schedule := [a], seq := .wait, job := .active, totalPx := 1, curPx := 1, tmo := 5, dmaActive := true, dmaLen := 2
    scratch := [(0, 0x12), (1, 0x34)], trace := [.beginTx] }

theorem witness_DecodeOfEncodeIsTheInstruction :
    ∀ i ∈ [Instr.setrot 3, .armwin (-32768) 32767 0 (-1), .wrsync 0xFFFFFFFF (2 ^ 32 - 1), .wrasync 0 0, .fill 1 0xFFFF,
        .pixel 32767 (-32768) 1, .fillrect (-1) (-1) 32767 1 2, .blit 0 0 1 (-32768) 3, .sendcmd 0xFF 0 1,
        .backlight true, .panelrst false, .ctlSwreset, .ctlSlpout, .ctlPixfmt 0x55, .ctlOrient 0xA0,
        .ctlCaset 0 0xFFFF, .ctlRaset 0xFFFF 0, .ctlRamwr, .ctlInvon, .ctlDispon], i.wellFormed = true := by decide

theorem witness_EncodeOfDecodedKeepsTheHeader :
    decode (.request 0x00000301 1 2 3) = .ok (.setrot 3) ∧ decode (.request 0x00FF0009 0 0xFFFFFFFF 9)
      = .ok (.sendcmd 0xFF 0 0xFFFFFFFF) ∧ decode (.controller 0x2C) = .ok .ctlRamwr := ⟨rfl, rfl, rfl⟩

theorem witness_HeadersDecodeByTheirTableRow :
    (0x00000301 : Word) &&& 0xFFFFFCFF = 0x01 ∧ (0x00000002 : Word) &&& 0xFFFFFFFF = 0x02 ∧
    (0x00FF0009 : Word) &&& 0xFF00FFFF = 0x09 ∧ (0x0000040A : Word) &&& 0xFFFFFBFF = 0x0A ∧
    (0x0000040B : Word) &&& 0xFFFFFBFF = 0x0B ∧ (∀ r ∈ requestRows, (0x0000000C : Word) &&& r.2 ≠ r.1) ∧
    (∀ r ∈ requestRows, (0x00000401 : Word) &&& r.2 ≠ r.1) := by
  simp [requestRows]

theorem witness_RejectedHeaderChangesOnlyTheResponse :
    nextAgent (turn .exec) = .sequencer ∧ (turn .exec).ctlSlot = none ∧ (turn .exec).seq = .exec ∧
    (turn .exec).oplCmd.extractLsb' 0 8 = 0x00 ∧
    0x0C ≤ (({ turn .exec with oplCmd := 0x0C } : State).oplCmd.extractLsb' 0 8).toNat ∧
    (∃ op fields : Word, (op, fields) ∈ ([(0x01, 0x300), (0x02, 0), (0x03, 0), (0x04, 0), (0x05, 0), (0x06, 0),
          (0x07, 0), (0x08, 0), (0x09, 0xFF0000), (0x0A, 0x400), (0x0B, 0x400)] : List (Word × Word)) ∧
        (0x00000401 : Word) &&& 0xFF = op ∧ (0x00000401 : Word) &&& ~~~(fields ||| 0xFF) ≠ 0) :=
  ⟨rfl, rfl, rfl, rfl, by decide, 0x01, 0x300, by decide⟩

theorem witness_StepExecutesTheDecodedInstruction :
    (nextAgent (turn .exec) = .sequencer ∧ (turn .exec).ctlSlot = none ∧ (turn .exec).seq = .exec ∧
      decode (.request 0x0000000A 0 0 0) = .ok (.backlight false)) ∧
    nextAgent ({ turn .idle with ctlSlot := some 0x29 } : State) = .sequencer ∧
    decode (.controller 0x29) = .ok .ctlDispon := ⟨⟨rfl, rfl, rfl, rfl⟩, rfl, rfl⟩

theorem witness_StepExecutesTheDecodedInstruction_request :
    decode (.request ({ turn .exec with oplCmd := 0x0A } : State).oplCmd (turn .exec).oplArg0 (turn .exec).oplArg1
      (turn .exec).oplArg2) = .ok (.backlight false) := rfl

theorem witness_PlacedWordIsExecutedNext : decodeTableWord 32 0x00000301 = some (.setrot 3) ∧
    decodeTableWord 8 0x29 = some .ctlDispon := by decide

theorem witness_EachTurnIsItsAgentsStep :
    nextAgent (inFlight .host) = .host ∧ nextAgent (inFlight .dma) = .dma ∧ nextAgent (inFlight .clock) = .clock ∧
    (∀ q ∈ [Seq.idle, .stage, .start, .wait],
      nextAgent (turn q) = .sequencer ∧ (turn q).ctlSlot = none ∧ (turn q).seq = q) := by decide

theorem witness_SetrotResult : configLegal syncStart.cfg = true ∧
    configLegal { Config.platform with nativeW := 1, nativeH := 32767, initRot := 3 } = true ∧
    (0x00000301 : Word).extractLsb' 0 8 = 0x01 := by decide

theorem witness_SquarePanelNeverRearms :
    let s := State.resetWith { Config.platform with nativeH := 240 } Config.platformDraws
    s.cfg.nativeW = s.cfg.nativeH ∧ DimsAgree s := by
  exact ⟨rfl, rfl⟩

theorem witness_ArmwinResult :
    (1 ≤ syncStart.effW.toNat ∧ syncStart.effW.toNat ≤ 32767 ∧ 1 ≤ syncStart.effH.toNat ∧
      syncStart.effH.toNat ≤ 32767) ∧ (0x00000402 : Word).extractLsb' 0 8 = 0x02 := by decide

/-- A prefix that ends after the first of the two ranges, clamped to the panel. -/
theorem witness_SentRangesStayInThePanel :
    isRequest (.armwin 0 0 500 500) = true ∧ configLegal syncStart.cfg = true ∧ DimsAgree syncStart ∧
    (∃ t evs rest, exec (.armwin 0 0 500 500) syncStart = .next t ∧ t.trace = syncStart.trace ++ evs ++ rest ∧
      (observeAll PanelView.fresh evs).col = some (0, 239) ∧ rest ≠ []) ∧
    PanelView.fresh.cmd ≠ 0x2A ∧ PanelView.fresh.cmd ≠ 0x2B :=
  ⟨rfl, rfl, rfl, ⟨_, controllerEvents 0x2A (rangePayload 0 239),
    controllerEvents 0x2B (rangePayload 0 319) ++ cmdEvents 0x2C, rfl, by decide, by decide, by decide⟩,
    by decide, by decide⟩

theorem witness_StreamWithoutWindowIsRejected : syncStart.winArmed = false := rfl

/-- No byte, and a source at the top of the address space. -/
theorem witness_WrsyncResult :
    let s := armedStart [(0, 0x22), (0xFFFFFFFF, 0x11)]
    (s.winArmed = true ∧ s.raced = false ∧
      ∀ j (h : j < [(0x11 : Byte), 0x22].length),
        Memory.read s.mem ((((0xFFFFFFFF : Word)).toNat + j) % 2 ^ 32) = some [(0x11 : Byte), 0x22][j]) ∧
    syncStart.winArmed = false ∧ (0x00000103 : Word).extractLsb' 0 8 = 0x03 := by decide

theorem witness_WrsyncResult_noByte : ∀ j (h : j < ([] : List Byte).length),
    Memory.read (armedStart []).mem (((0x100 : Word).toNat + j) % 2 ^ 32) = some ([] : List Byte)[j] := by decide

/-- A byte source of two bytes, a pixel source of one pixel, and a BLIT of the panel's first pixel, across the top of
the address space. -/
theorem witness_RacedSourceBytesAreFree :
    let s := { armedStart [(0, 0x22), (0xFFFFFFFF, 0x11)] with raced := true }
    let admitted (k : Nat) : Prop := ∃ b, Memory.read s.mem (k % 2 ^ 32) = some b
    s.winArmed = true ∧ s.raced = true ∧ s.asyncAvail = false ∧ (∀ j < 2, admitted ((0xFFFFFFFF : Word).toNat + j)) ∧
    (0x3A : Byte) ∉ ([0x36, 0x2A, 0x2B, 0x2C] : List Byte) ∧
    (0 : Int) < 1 ∧ max (0 : Int) 0 ≤ min (0 + 1 - 1) ((s.effW.toNat : Int) - 1) ∧
    max (0 : Int) 0 ≤ min (0 + 1 - 1) ((s.effH.toNat : Int) - 1) ∧ 1 = ((0 - 0 + 1) * (0 - 0 + 1) : Int).toNat ∧
    ∀ k < 1, admitted ((0xFFFFFFFF : Word).toNat + 2 * ((0 + k / 1) * 1 + 0 + k % 1)) ∧
      admitted ((0xFFFFFFFF : Word).toNat + 2 * ((0 + k / 1) * 1 + 0 + k % 1) + 1) := by
  refine ⟨rfl, rfl, rfl, fun j hj => ?_, by decide, by decide, by decide, by decide, by decide, fun k hk => ?_⟩
  · match j, hj with
    | 0, _ => exact ⟨0x11, rfl⟩
    | 1, _ => exact ⟨0x22, rfl⟩
  · match k, hk with
    | 0, _ => exact ⟨⟨0x11, rfl⟩, ⟨0x22, rfl⟩⟩

theorem witness_WrasyncResult :
    let s := armedStart [(0, 0x12), (0xFFFFFFFF, 0x34)]
    (s.winArmed = true ∧ [(0x1234 : Half)] ≠ [] ∧ s.asyncAvail = false ∧ s.raced = false ∧
      ∀ j (h : j < [(0x1234 : Half)].length),
        Memory.read s.mem (((0xFFFFFFFF : Word).toNat + 2 * j) % 2 ^ 32) = some (loByte [(0x1234 : Half)][j]) ∧
        Memory.read s.mem (((0xFFFFFFFF : Word).toNat + 2 * j + 1) % 2 ^ 32) = some (hiByte [(0x1234 : Half)][j])) ∧
    (({ State.reset with winArmed := true } : State).winArmed = true ∧ State.reset.asyncAvail = true) ∧
    (0xFFFFFF04 : Word).extractLsb' 0 8 = 0x04 := by decide

theorem witness_FillResult : (armedStart []).winArmed = true ∧ (armedStart []).asyncAvail = false ∧
    State.reset.asyncAvail = true ∧ (0x00000005 : Word).extractLsb' 0 8 = 0x05 := by decide

theorem witness_PixelResult :
    ((0 : Int) ≤ 239 ∧ (239 : Int) < syncStart.effW.toNat ∧ (0 : Int) ≤ 0 ∧ (0 : Int) < syncStart.effH.toNat) ∧
    (-1 : Int) < 0 ∧ (syncStart.effW.toNat : Int) ≤ 240 ∧ (syncStart.effH.toNat : Int) ≤ 320 ∧
    (0x00000106 : Word).extractLsb' 0 8 = 0x06 := by decide

theorem witness_ClippedWindowIsInThePanel : clip 240 320 (-2) 0 4 2 = some
    { cx0 := 0, cy0 := 0, cx1 := 1, cy1 := 1, sx := 2, sy := 0, cw := 2, ch := 2 } := by decide

/-- The corner pixel alone, on either path. -/
theorem witness_FillrectResult :
    (0 : Int) < 10 ∧ max (239 : Int) 0 ≤ min (239 + 10 - 1) ((syncStart.effW.toNat : Int) - 1) ∧
    max (319 : Int) 0 ≤ min (319 + 10 - 1) ((syncStart.effH.toNat : Int) - 1) ∧
    syncStart.asyncAvail = false ∧ State.reset.asyncAvail = true ∧ (0x00000007 : Word).extractLsb' 0 8 = 0x07 := by decide

/-- V-BL-1's rectangle with the pixels its stream sends. -/
theorem witness_BlitResult :
    let s : State := { syncStart with mem := image }
    let ps : List Half := [0x1102, 0x1103, 0x1106, 0x1107]
    (0 : Int) < 4 ∧ (0 : Int) < 2 ∧ max (-2 : Int) 0 ≤ min (-2 + 4 - 1) ((s.effW.toNat : Int) - 1) ∧
    max (0 : Int) 0 ≤ min (0 + 2 - 1) ((s.effH.toNat : Int) - 1) ∧ ps.length = ((1 - 0 + 1) * (1 - 0 + 1) : Int).toNat ∧
    s.asyncAvail = false ∧ s.raced = false ∧
    (∀ k (hk : k < ps.length),
      Memory.read s.mem ((0x2000 + 2 * ((0 + k / 2) * 4 + 2 + k % 2)) % 2 ^ 32) = some (loByte ps[k]) ∧
      Memory.read s.mem ((0x2000 + 2 * ((0 + k / 2) * 4 + 2 + k % 2) + 1) % 2 ^ 32) = some (hiByte ps[k])) ∧
    State.reset.asyncAvail = true ∧ (0x00000008 : Word).extractLsb' 0 8 = 0x08 := by decide

theorem witness_OutsideRectangleTransfersNothing : (0 : Int) ≤ 0 ∧ (-5 : Int) + 5 ≤ 0 ∧
    (syncStart.effW.toNat : Int) ≤ 240 ∧ (syncStart.effH.toNat : Int) ≤ 320 := by decide

theorem witness_SendcmdResult :
    (0x2A : Byte) ∈ ([0x36, 0x2A, 0x2B, 0x2C] : List Byte) ∧ (0x29 : Byte) ∉ ([0x36, 0x2A, 0x2B, 0x2C] : List Byte) ∧
    (armedStart [(0x400, 0x55)]).raced = false ∧
    (∀ j (h : j < [(0x55 : Byte)].length),
      Memory.read (armedStart [(0x400, 0x55)]).mem (((0x400 : Word).toNat + j) % 2 ^ 32) = some [(0x55 : Byte)][j]) ∧
    (0x003A0109 : Word).extractLsb' 0 8 = 0x09 := by decide

theorem witness_PinRequestResults :
    (0x0000040A : Word).extractLsb' 0 8 = 0x0A ∧ (0x0000010B : Word).extractLsb' 0 8 = 0x0B := by decide

/-- A rotation, a window, a stream set up and a command: each has its next state. -/
theorem witness_InstructionFrame : (∃ t, exec (.setrot 1) syncStart = .next t) ∧
    (∃ t, exec (.fill 3 1) { State.reset with winArmed := true } = .next t) ∧ ∃ t, exec .ctlRamwr syncStart = .next t :=
  ⟨⟨_, rfl⟩, ⟨_, rfl⟩, ⟨_, rfl⟩⟩

theorem witness_OnlyTheNamedInstructionsWrite : (∃ t, exec (.backlight true) syncStart = .next t) ∧
    (∀ r, Instr.backlight true ≠ .setrot r) ∧ isRequest .ctlRamwr = false ∧ ∃ t, exec .ctlRamwr syncStart = .next t :=
  ⟨⟨_, rfl⟩, nofun, rfl, ⟨_, rfl⟩⟩

theorem witness_RequestRespondsOrStages : isRequest (.fill 3 1) = true ∧
    (∃ t, exec (.fill 3 1) { State.reset with winArmed := true } = .next t) ∧
    (∃ t, exec (.fill 3 1) syncStart = .next t) ∧ exec (.wrsync 0x100 1) (armedStart []) = .next (armedStart []) :=
  ⟨rfl, ⟨_, rfl⟩, ⟨_, rfl⟩, rfl⟩

theorem witness_RejectionHasItsCauseAndNoEffect :
    (∃ t, isRequest (.wrsync 0 0) = true ∧ (turn .exec).seq = .exec ∧ exec (.wrsync 0 0) (turn .exec) = .next t ∧
      t.seq = .idle ∧ t.respCode = .rejected) ∧
    ∃ t, isRequest (.sendcmd 0x2C 0 0) = true ∧ (turn .exec).seq = .exec ∧
      exec (.sendcmd 0x2C 0 0) (turn .exec) = .next t ∧ t.seq = .idle ∧ t.respCode = .rejected :=
  ⟨⟨_, rfl, rfl, rfl, rfl, rfl⟩, ⟨_, rfl, rfl, rfl, rfl, rfl⟩⟩

theorem witness_PanelControlLeavesTheScheduler : (∃ t, exec (.sendcmd 0x29 0 0) syncStart = .next t) ∧
    exec (.sendcmd 0x3A 0x400 1) syncStart = .next syncStart ∧ Memory.read syncStart.mem 0x400 = none ∧
    (∃ t, exec (.backlight false) syncStart = .next t) ∧ ∃ t, exec (.panelrst true) syncStart = .next t :=
  ⟨⟨_, rfl⟩, rfl, rfl, ⟨_, rfl⟩, ⟨_, rfl⟩⟩

/-- An instruction that reads nothing, and one whose only source byte is admitted. -/
theorem witness_AdmittedBytesDecideCompletion :
    (isRequest (.setrot 1) = true ∧ (Instr.setrot 1).wellFormed = true ∧
      ∀ a : Word, readsByte syncStart.effW syncStart.effH a (.setrot 1) = true →
        ∃ b, Memory.read syncStart.mem a.toNat = some b) ∧
    isRequest (.wrsync 0xFFFFFFFF 1) = true ∧ (Instr.wrsync 0xFFFFFFFF 1).wellFormed = true ∧
      ∀ a : Word, readsByte syncStart.effW syncStart.effH a (.wrsync 0xFFFFFFFF 1) = true →
        ∃ b, Memory.read (armedStart [(0xFFFFFFFF, 0x11)]).mem a.toNat = some b := by
  refine ⟨⟨rfl, rfl, fun a h => by simp [readsByte] at h⟩, rfl, rfl, fun a h => ⟨0x11, ?_⟩⟩
  have ha : a = 0xFFFFFFFF := by simp only [readsByte, decide_eq_true_eq] at h; bv_omega
  subst ha
  rfl

/-- The last byte of each source is not admitted. -/
theorem witness_AdmittedBytesDecideCompletion_stuck :
    let s := armedStart [(0x100, 1), (0x101, 2)]
    readsByte s.effW s.effH 0x102 (.wrsync 0x100 3) = true ∧ readsByte s.effW s.effH 0x103 (.wrasync 0x100 2) = true ∧
    readsByte s.effW s.effH 0x107 (.blit (-1) 0 2 2 0x100) = true ∧
    readsByte s.effW s.effH 0x102 (.sendcmd 0x3A 0x100 3) = true ∧
    Memory.read s.mem 0x102 = none ∧ Memory.read s.mem 0x103 = none ∧ Memory.read s.mem 0x107 = none ∧
    s.winArmed = true ∧ s.asyncAvail = false := by decide

theorem witness_StatusReadsItsFields : (turn .idle).seq = .idle ∧ (turn .exec).seq ≠ .idle ∧
    configLegal { Config.platform with nativeW := 1, nativeH := 32767, initRot := 3 } = true := by decide

theorem witness_HostReadsReturnTheRegisters :
    ∀ off ∈ [0x00, 0x04, 0x08, 0x0C, 0x10, 0x14, 0x18, 0x1C, 0x20, 0x24, 0x28, 0x2C, 0x30, 0x34, 0x38, 0x3C],
      off < 64 ∧ off % 4 = 0 ∧
      ({ syncStart with hostOps := [.read (0x80000000 + BitVec.ofNat 32 off) 32] } : State).hostOps
        = .read (portBase syncStart.cfg + BitVec.ofNat 32 off) 32 :: [] ∧
      ({ syncStart with hostOps := [.poll (0x80000000 + BitVec.ofNat 32 off) 0x2 0x2] } : State).hostOps
        = .poll (portBase syncStart.cfg + BitVec.ofNat 32 off) 0x2 0x2 :: [] := by decide

theorem witness_HostWritesStoreTheirRegister :
    ∀ off ∈ [0x00, 0x04, 0x08, 0x0C, 0x10, 0x14, 0x18, 0x1C, 0x20, 0x24, 0x28, 0x2C, 0x38, 0x3C],
      off < 64 ∧ off % 4 = 0 ∧ off ≠ 0x30 ∧ off ≠ 0x34 ∧
      ({ syncStart with hostOps := [.write (0x80000000 + BitVec.ofNat 32 off) 32 0] } : State).hostOps
        = .write (portBase syncStart.cfg + BitVec.ofNat 32 off) 32 0 :: [] := by decide

/-- The host operation of a CMD write, on a READY block, on a busy one, and with a response posted. -/
theorem witness_CommandWriteIsAcceptedOrDropped :
    ({ syncStart with hostOps := [.write 0x80000030 32 0x0A] } : State).hostOps
      = .write (portBase syncStart.cfg + 0x30) 32 0x0A :: [] ∧
    syncStart.seq = .idle ∧ syncStart.respValid = false ∧ (turn .wait).seq ≠ .idle ∧
    ({ syncStart with respValid := true } : State).respValid = true := by decide

theorem witness_ResponseWriteConsumes :
    let s : State := { syncStart with respValid := true, job := .complete, drop := true, hostOps := [.write 0x80000034 32 0x3] }
    s.hostOps = .write (portBase s.cfg + 0x34) 32 0x3 :: [] ∧ (0x3 : Word).getLsbD 0 = true ∧ s.respValid = true ∧
    s.job = .complete ∧ (0x3 : Word).getLsbD 1 = true := by decide

theorem witness_OnlyAlignedWordAccessesAreAdmitted :
    (32 = 32 ∧ ∃ k < 16, (0x8000003C : Word) = portBase syncStart.cfg + BitVec.ofNat 32 (4 * k)) ∧
    ¬ (32 = 32 ∧ ∃ k < 16, (0x80000040 : Word) = portBase syncStart.cfg + BitVec.ofNat 32 (4 * k)) ∧
    ¬ (16 = 32 ∧ ∃ k < 16, (0x80000000 : Word) = portBase syncStart.cfg + BitVec.ofNat 32 (4 * k)) ∧
    (∃ k < 16, (0x80000000 : Word) = portBase syncStart.cfg + BitVec.ofNat 32 (4 * k)) ∧
    ¬ (∃ k < 16, (0x80000002 : Word) = portBase syncStart.cfg + BitVec.ofNat 32 (4 * k)) ∧
    ¬ (32 = 32 ∧ ∃ k < 16, (0x80000006 : Word) = portBase syncStart.cfg + BitVec.ofNat 32 (4 * k)) ∧
    (∃ k < 64, (0x8000003F : Word) = portBase syncStart.cfg + BitVec.ofNat 32 k) ∧
    ¬ (∃ k < 64, (0x7FFFFFFF : Word) = portBase syncStart.cfg + BitVec.ofNat 32 k) ∧
    ¬ (∃ k < 64, (0x80000040 : Word) = portBase syncStart.cfg + BitVec.ofNat 32 k) := by decide

theorem witness_OnlyAlignedWordAccessesAreAdmitted_op :
    ({ syncStart with hostOps := [.read 0x80000040 32] } : State).hostOps = .read 0x80000040 32 :: [] ∧
    ({ syncStart with hostOps := [.write 0x8000003C 32 7] } : State).hostOps = .write 0x8000003C 32 7 :: [] ∧
    ({ syncStart with hostOps := [.poll 0x80000002 2 2] } : State).hostOps = .poll 0x80000002 2 2 :: [] ∧
    ({ syncStart with hostOps := [.store 0x8000003F 7] } : State).hostOps = .store 0x8000003F 7 :: [] := by decide

/-- A store that touches the source of an executing WRSYNC 0x100, 3. -/
theorem witness_HostStoreRacesTheRequestItTouches :
    let s : State := { turn .exec with oplCmd := 3, oplArg0 := 0x100, oplArg1 := 3, hostOps := [.store 0x102 0x55] }
    s.hostOps = .store 0x102 0x55 :: [] ∧ inBlock s.cfg 0x102 = false ∧ s.seq ≠ .idle ∧
    decode (.request s.oplCmd s.oplArg0 s.oplArg1 s.oplArg2) = .ok (.wrsync 0x100 3) ∧
    readsByte s.effW s.effH 0x102 (.wrsync 0x100 3) = true := ⟨rfl, by decide, by decide, rfl, rfl⟩

theorem witness_AssembledRequestIsAccepted :
    isRequest (.blit (-2) 0 4 2 0x2000) = true ∧ (Instr.blit (-2) 0 4 2 0x2000).wellFormed = true ∧
    syncStart.seq = .idle ∧ syncStart.respValid = false ∧
    (∃ ops, assembleRequest syncStart.cfg (.blit (-2) 0 4 2 0x2000) = some ops ∧
      ({ syncStart with hostOps := ops } : State).hostOps = ops) := ⟨rfl, rfl, rfl, rfl, _, rfl, rfl⟩

/-- A memory source of one pixel, a colour not yet staged, and one that is. -/
theorem witness_StageStepStagesTheChunk :
    let s : State := { turn .stage with chunkMax := 4, totalPx := 5, donePx := 4, src := .buf 0x1FFC, mem := image }
    let ps : List Half := [0x1102]
    nextAgent s = .sequencer ∧ s.ctlSlot = none ∧ s.seq = .stage ∧
    ps.length = min s.chunkMax.toNat (s.totalPx.toNat - s.donePx.toNat) ∧ (∀ c, s.src ≠ .color c) ∧
    (∀ j (h : j < ps.length), sourcePixel { s with schedule := s.schedule.tail, tick := s.tick + 1 } s.src
      (s.donePx.toNat + j) = some ps[j]) := by
  refine ⟨rfl, rfl, rfl, rfl, nofun, fun j h => ?_⟩
  match j, h with
  | 0, _ => rfl

theorem witness_StageStepStagesTheChunk_color :
    let s (p : Bool) : State := { turn .stage with chunkMax := 4, totalPx := 5, donePx := 4, src := .color 7, prefilled := p }
    ∀ p ∈ [true, false], nextAgent (s p) = .sequencer ∧ (s p).ctlSlot = none ∧ (s p).seq = .stage ∧
      [(7 : Half)].length = min (s p).chunkMax.toNat ((s p).totalPx.toNat - (s p).donePx.toNat) ∧
      (s p).src = .color 7 ∧ (s p).prefilled = p := by decide

theorem witness_StageStepStagesTheChunk_stuck :
    let s : State := { turn .stage with chunkMax := 4, totalPx := 5, donePx := 4, src := .buf 0x1FFC }
    nextAgent s = .sequencer ∧ s.ctlSlot = none ∧ s.seq = .stage ∧
    ∃ j < [(0x1102 : Half)].length, sourcePixel { s with schedule := s.schedule.tail, tick := s.tick + 1 } s.src
      (s.donePx.toNat + j) = none := ⟨rfl, rfl, rfl, 0, by decide, rfl⟩

theorem witness_StartStepStartsTheChannel :
    let s : State := { turn .start with curPx := 0x7FFFFFFF }
    nextAgent s = .sequencer ∧ s.ctlSlot = none ∧ s.seq = .start ∧ 2 * s.curPx.toNat < 2 ^ 32 := by decide

theorem witness_WaitTakesACompletionOrHolds :
    let s : State := { inFlight .sequencer with dmaActive := false, completionPending := true }
    nextAgent s = .sequencer ∧ s.ctlSlot = none ∧ s.seq = .wait ∧ s.completionPending = true ∧
    s.donePx.toNat + s.curPx.toNat < 2 ^ 32 ∧
    (inFlight .sequencer).completionPending = false ∧
    ((inFlight .sequencer).now - (inFlight .sequencer).tStart).toNat < (inFlight .sequencer).tmo.toNat := by decide

/-- The elapsed time just reaches TMO, across the wrap of the clock. -/
theorem witness_WaitTimesOutAndAborts :
    let s : State := { inFlight .sequencer with now := 3, tStart := 0xFFFFFFFE }
    nextAgent s = .sequencer ∧ s.ctlSlot = none ∧ s.seq = .wait ∧ s.completionPending = false ∧
    s.tmo.toNat ≤ (s.now.toNat + 2 ^ 32 - s.tStart.toNat) % 2 ^ 32 := by decide

/-- A byte to send under each fate, the completion, and a stalled channel. -/
theorem witness_ChannelSendsThenCompletes :
    let s := inFlight .dma
    nextAgent s = .dma ∧ s.dmaActive = true ∧ s.dmaFate = .deliver ∧ s.dmaSent.toNat < s.dmaLen.toNat ∧
    Memory.read s.scratch s.dmaSent.toNat = some 0x12 ∧
    (∃ k, ({ s with dmaFate := .stall 1 } : State).dmaFate = .stall k ∧ k ≤ s.dmaLen.toNat ∧ s.dmaSent.toNat < k) ∧
    ({ s with dmaSent := 2 } : State).dmaSent = s.dmaLen ∧
    (∃ k, ({ s with dmaFate := .stall 0 } : State).dmaFate = .stall k ∧ k ≤ s.dmaSent.toNat) ∧
    syncStart.dmaActive = false := ⟨rfl, rfl, rfl, by decide, rfl, ⟨1, rfl, by decide, by decide⟩, rfl,
      ⟨0, rfl, by decide⟩, rfl⟩

theorem witness_ChunkIsSentWholeOrAsAPrefix :
    let s := inFlight .dma
    let bs : List Byte := [0x12, 0x34]
    s.dmaActive = true ∧ s.dmaSent = 0 ∧ s.dmaLen.toNat = bs.length ∧ bs ≠ [] ∧
    (∀ j (h : j < bs.length), Memory.read s.scratch j = some bs[j]) ∧ s.dmaFate = .deliver ∧
    ({ s with dmaFate := .stall 2 } : State).dmaFate = .stall 2 ∧ 2 ≤ bs.length ∧ 2 ≤ 2 := by decide

/-- Two chunks: CHUNK_MAX pixels and one more. -/
theorem witness_DeliveredStreamSendsEveryPixelInChunks :
    let s : State := { State.reset with chunkMax := 4, winArmed := true }
    let ps : List Half := [7, 7, 7, 7, 7]
    ps ≠ [] ∧ ps.length < 2 ^ 32 ∧ 1 ≤ s.chunkMax.toNat ∧ s.chunkMax.toNat < 2 ^ 31 ∧
    sourcePixels s (.color 7) 0 ps.length = some ps := by decide

/-- The run of a stalled chunk in which the Clock alone moves. -/
def clockRun : Nat → State
  | 0 => { inFlight .clock with dmaFate := .stall 0 }
  | n + 1 => clockStep (advance (clockRun n))

theorem clockRun_fair : FairRun (fun _ => .clock) clockRun := ⟨fun _ => rfl, fun n => ⟨n, Nat.le_refl n, rfl⟩⟩

theorem witness_WaitEndsWithinTheBound :
    (inFlight .clock).seq = .wait ∧ FairRun (fun _ => .clock) clockRun ∧ (clockRun 0).seq = .wait :=
  ⟨rfl, clockRun_fair, rfl⟩

theorem witness_TimeoutNeverLocksTheBlock :
    let s : State := { inFlight .sequencer with now := 5 }
    s.seq = .wait ∧ s.completionPending = false ∧ s.tmo ≤ elapsed s := by decide

theorem witness_ResetLeavesTheTableValues :
    (∀ c ∈ [Config.platform, { Config.platform with nativeW := 1, nativeH := 32767, initRot := 3 }],
      1 ≤ c.nativeW ∧ c.nativeW ≤ 32767 ∧ 1 ≤ c.nativeH ∧ c.nativeH ≤ 32767 ∧ c.initRot ≤ 3) ∧
    (∀ c ∈ [{ Config.platform with nativeW := 0 }, { Config.platform with nativeH := 32768 },
        { Config.platform with initRot := 4 }],
      ¬ (1 ≤ c.nativeW ∧ c.nativeW ≤ 32767 ∧ 1 ≤ c.nativeH ∧ c.nativeH ≤ 32767 ∧ c.initRot ≤ 3)) := by decide

theorem witness_ResetSatisfiesTheInvariant : configLegal Config.platform = true := by decide

/-- A sound state in the middle of a chunk. -/
theorem inFlight_inv (a : Agent) : WtbInv (inFlight a) where
  legal := rfl
  dims := rfl
  stores := by cases a <;> exact ⟨by decide, by decide, by decide, by decide, rfl, nofun⟩
  window := nofun
  life := ⟨⟨rfl, by simp [inFlight, State.reset, State.resetWith], by simp [inFlight, dmaLimit, State.reset, State.resetWith], .inl ⟨rfl, rfl⟩⟩, rfl,
    ⟨rfl, rfl, by simp [inFlight, State.reset, State.resetWith]⟩, rfl⟩
  framed := rfl
  capacity := fun _ => by simp [inFlight, State.reset, State.resetWith, chunkMaxOf, Config.platform]
  bound := by simp [inFlight, State.reset, State.resetWith]
  slot := rfl

theorem witness_EveryStepKeepsTheInvariant : ∀ a ∈ [Agent.host, .sequencer, .dma, .clock],
    WtbInv (inFlight a) ∧ ∃ t, step (inFlight a) = .next t := by
  intro a _
  cases a <;> exact ⟨inFlight_inv _, _, rfl⟩

theorem witness_EveryStepKeepsTheStoresCanonical :
    StoresCanonical (inFlight .dma) ∧ ∃ t, step (inFlight .dma) = .next t := ⟨(inFlight_inv _).stores, _, rfl⟩

theorem witness_NoStepChangesTheConfiguration :
    let s : State := { turn .exec with oplCmd := 0x101 }
    ∃ t, step s = .next t ∧ t.rot ≠ s.rot := ⟨_, rfl, by decide⟩

theorem witness_TraceOnlyGrows : ∃ t, step (inFlight .dma) = .next t := ⟨_, rfl⟩

/-- A step in IDLE, of a run that is over, and one that ends a request. -/
theorem witness_NothingIsSentAfterTheResponse :
    (WtbInv State.reset ∧ ({ State.reset with schedule := [.clock] } : State).seq = .idle ∧
      runOver { State.reset with schedule := [.clock] } = true ∧
      ∃ t, step { State.reset with schedule := [.clock] } = .next t) ∧
    ∃ t, step { inFlight .sequencer with now := 5 } = .next t ∧ (inFlight .sequencer).seq ≠ .idle ∧ t.seq = .idle := by
  refine ⟨⟨?_, rfl, rfl, _, rfl⟩, _, rfl, by decide, rfl⟩
  exact ⟨rfl, rfl, ⟨by decide, by decide, by decide, by decide, rfl, nofun⟩, nofun, ⟨⟨rfl, rfl⟩, .inl rfl⟩, rfl,
    fun _ => by decide, by decide, rfl⟩

/-- The timeout's abort, and the Clock's turn. -/
theorem witness_OnlyTheChannelSendsInFlight :
    (∀ a, WtbInv (inFlight a)) ∧ (inFlight .clock).dmaActive = true ∧ nextAgent (inFlight .clock) ≠ .dma ∧
    (∃ t, step (inFlight .clock) = .next t) ∧
    ∃ t, step { inFlight .sequencer with now := 5 } = .next t ∧ t.job = .timedOut :=
  ⟨inFlight_inv, rfl, by decide, ⟨_, rfl⟩, _, rfl, rfl⟩

theorem witness_JobFollowsItsTransitions :
    ∃ t, WtbInv { inFlight .sequencer with now := 5 } ∧ step { inFlight .sequencer with now := 5 } = .next t ∧
      t.job ≠ (inFlight .sequencer).job :=
  have h := inFlight_inv .sequencer
  ⟨_, ⟨h.legal, h.dims, h.stores, h.window, h.life, h.framed, h.capacity, h.bound, h.slot⟩, rfl, by decide⟩

theorem witness_FillrectLandsRowMajor : syncStart.asyncAvail = false ∧ (0 : Int) ≤ 10 ∧ (0 : Int) ≤ 20 ∧ (0 : Int) < 230 ∧
    (0 : Int) < 300 ∧ (10 : Int) + 230 ≤ syncStart.effW.toNat ∧ (20 : Int) + 300 ≤ syncStart.effH.toNat ∧
    State.reset.asyncAvail = true ∧ 1 ≤ State.reset.chunkMax.toNat ∧ State.reset.chunkMax.toNat < 2 ^ 31 ∧
    (10 : Int) + 230 ≤ State.reset.effW.toNat ∧ (20 : Int) + 300 ≤ State.reset.effH.toNat ∧
    PanelView.fresh.oriented = true ∧ PanelView.fresh.sixteen = true := by decide

end Sys2Proof.Tests
end

section
/-! PROOFS. What every request header decodes to (30_encoding.md R79 to R81, R88, R99), and the EXEC step on a header
that is no operation's. -/

namespace Sys2Proof.Machine

/-! ### Headers by OP and field bits -/

/-- The OP of each of the eleven operations with the header bits of its fields (R79 to R81): what the rows of
spec/opcode_table.json and the reserved-bit rule R80 are both read from. -/
def operationFields : List (Byte × Word) :=
  [(0x01, 0x300), (0x02, 0), (0x03, 0), (0x04, 0), (0x05, 0), (0x06, 0), (0x07, 0), (0x08, 0), (0x09, 0xFF0000),
   (0x0A, 0x400), (0x0B, 0x400)]

/-- A row's match is its OP, and its mask leaves out the field bits alone. -/
theorem requestRows_eq : requestRows = operationFields.map fun p => (p.1.setWidth 32, ~~~p.2) := rfl

theorem operationFields_avoid_op : ∀ p ∈ operationFields, p.2 &&& 0xFF = 0 := by simp [operationFields]

theorem operationFields_op_inj {p q : Byte × Word} (hp : p ∈ operationFields) (hq : q ∈ operationFields)
    (h : p.1 = q.1) : p = q :=
  List.inj_on_of_nodup_map (f := Prod.fst) (by decide) hp hq h

section
variable {cmd arg0 arg1 arg2 : Word}

theorem and_low_byte_eq_iff {op : Byte} : cmd &&& 0xFF = op.setWidth 32 ↔ headerOp cmd = op := by
  simpa using header_matches cmd 0xFFFFFF00 op rfl

/-- A header agrees with the row of `(op, fields)` exactly if it has that OP and no bit outside OP and the fields. -/
theorem agrees_iff {p : Byte × Word} (hp : p ∈ operationFields) :
    cmd &&& ~~~p.2 = p.1.setWidth 32 ↔ headerOp cmd = p.1 ∧ cmd &&& ~~~(p.2 ||| 0xFF) = 0 :=
  header_matches cmd p.2 p.1 (operationFields_avoid_op p hp)

/-- A header that agrees with a row decodes to what the decoder builds for the row's OP. -/
theorem decodeRequest_of_agrees {i : Instr} (op : Byte) (fields : Word) (hp : (op, fields) ∈ operationFields)
    (hdec : (headerOp cmd).toNat = op.toNat → decodeRequest cmd arg0 arg1 arg2 = checkHeader cmd fields i)
    (h : cmd &&& ~~~fields = op.setWidth 32) : decodeRequest cmd arg0 arg1 arg2 = .ok i := by
  obtain ⟨hop, hbits⟩ := (agrees_iff hp).mp h
  rw [hdec (congrArg BitVec.toNat hop)]
  exact checkHeader_ok.mpr ⟨hbits, rfl⟩

theorem checkHeader_error {fields : Word} (i : Instr) (h : cmd &&& ~~~(fields ||| 0xFF) ≠ 0) :
    checkHeader cmd fields i = .error .reservedBits := if_neg h

/-- Everything the decoder does with a header: reject a reserved OP, or check the bits outside the OP's fields. -/
theorem decodeRequest_cases (cmd arg0 arg1 arg2 : Word) :
    decodeRequest cmd arg0 arg1 arg2 = .error (.reservedOp (headerOp cmd)) ∨
      ∃ p ∈ operationFields, headerOp cmd = p.1 ∧ ∃ i, decodeRequest cmd arg0 arg1 arg2 = checkHeader cmd p.2 i := by
  by_cases hr : (headerOp cmd).toNat = 0 ∨ 12 ≤ (headerOp cmd).toNat
  · exact .inl (decodeRequest_reserved hr)
  · right
    obtain ⟨n, hop⟩ : ∃ n, (headerOp cmd).toNat = n := ⟨_, rfl⟩
    have hlow : 1 ≤ n := by omega
    have hhigh : n ≤ 11 := by omega
    interval_cases n
    · exact ⟨(0x01, _), by decide, BitVec.eq_of_toNat_eq hop, _, decodeRequest_setrot hop⟩
    · exact ⟨(0x02, _), by decide, BitVec.eq_of_toNat_eq hop, _, decodeRequest_armwin hop⟩
    · exact ⟨(0x03, _), by decide, BitVec.eq_of_toNat_eq hop, _, decodeRequest_wrsync hop⟩
    · exact ⟨(0x04, _), by decide, BitVec.eq_of_toNat_eq hop, _, decodeRequest_wrasync hop⟩
    · exact ⟨(0x05, _), by decide, BitVec.eq_of_toNat_eq hop, _, decodeRequest_fill hop⟩
    · exact ⟨(0x06, _), by decide, BitVec.eq_of_toNat_eq hop, _, decodeRequest_pixel hop⟩
    · exact ⟨(0x07, _), by decide, BitVec.eq_of_toNat_eq hop, _, decodeRequest_fillrect hop⟩
    · exact ⟨(0x08, _), by decide, BitVec.eq_of_toNat_eq hop, _, decodeRequest_blit hop⟩
    · exact ⟨(0x09, _), by decide, BitVec.eq_of_toNat_eq hop, _, decodeRequest_sendcmd hop⟩
    · exact ⟨(0x0A, _), by decide, BitVec.eq_of_toNat_eq hop, _, decodeRequest_backlight hop⟩
    · exact ⟨(0x0B, _), by decide, BitVec.eq_of_toNat_eq hop, _, decodeRequest_panelrst hop⟩

/-- No header agrees with two rows: each row fixes OP, and no two rows share one. -/
theorem requestRow_unique {r q : Word × Word} (hr : r ∈ requestRows) (hq : q ∈ requestRows) (har : cmd &&& r.2 = r.1)
    (haq : cmd &&& q.2 = q.1) : r = q := by
  rw [requestRows_eq, List.mem_map] at hr hq
  obtain ⟨p, hp, rfl⟩ := hr
  obtain ⟨p', hp', rfl⟩ := hq
  have hop : p.1 = p'.1 := ((agrees_iff hp).mp har).1.symm.trans ((agrees_iff hp').mp haq).1
  rw [operationFields_op_inj hp hp' hop]

theorem agrees_of_decodeRequest_ok {i : Instr} (h : decodeRequest cmd arg0 arg1 arg2 = .ok i) :
    ∃ r ∈ requestRows, cmd &&& r.2 = r.1 := by
  obtain he | ⟨p, hp, hop, j, hj⟩ := decodeRequest_cases cmd arg0 arg1 arg2
  · cases he.symm.trans h
  · have hbits := (checkHeader_ok.mp (hj.symm.trans h)).1
    exact ⟨_, requestRows_eq ▸ List.mem_map_of_mem hp, (agrees_iff hp).mpr ⟨hop, hbits⟩⟩

theorem decodeRequest_error_of_agrees_none (h : ∀ r ∈ requestRows, cmd &&& r.2 ≠ r.1) :
    ∃ e, decodeRequest cmd arg0 arg1 arg2 = .error e := by
  cases hd : decodeRequest cmd arg0 arg1 arg2 with
  | error e => exact ⟨e, rfl⟩
  | ok i =>
    obtain ⟨r, hr, har⟩ := agrees_of_decodeRequest_ok hd
    exact absurd har (h r hr)

/-- A header bit outside OP and the operation's fields is no instruction (R88, cause 2). -/
theorem decodeRequest_error_of_bits {p : Byte × Word} (hp : p ∈ operationFields) (hop : headerOp cmd = p.1)
    (hbits : cmd &&& ~~~(p.2 ||| 0xFF) ≠ 0) : ∃ e, decodeRequest cmd arg0 arg1 arg2 = .error e := by
  obtain he | ⟨q, hq, hoq, i, hi⟩ := decodeRequest_cases cmd arg0 arg1 arg2
  · exact ⟨_, he⟩
  · obtain rfl := operationFields_op_inj hp hq (hop.symm.trans hoq)
    exact ⟨_, hi.trans (checkHeader_error i hbits)⟩

end

/-- Settles O3: the eleven rows by the decoder's answer for each OP, the two general clauses from `decodeRequest_cases`
and from no two rows sharing an OP. -/
theorem headersDecodeByTheirTableRow : Obligations.HeadersDecodeByTheirTableRow := by
  intro cmd arg0 arg1 arg2
  exact ⟨decodeRequest_of_agrees 0x01 0x300 (by decide) decodeRequest_setrot,
    decodeRequest_of_agrees 0x02 0 (by decide) decodeRequest_armwin,
    decodeRequest_of_agrees 0x03 0 (by decide) decodeRequest_wrsync,
    decodeRequest_of_agrees 0x04 0 (by decide) decodeRequest_wrasync,
    decodeRequest_of_agrees 0x05 0 (by decide) decodeRequest_fill,
    decodeRequest_of_agrees 0x06 0 (by decide) decodeRequest_pixel,
    decodeRequest_of_agrees 0x07 0 (by decide) decodeRequest_fillrect,
    decodeRequest_of_agrees 0x08 0 (by decide) decodeRequest_blit,
    decodeRequest_of_agrees 0x09 0xFF0000 (by decide) decodeRequest_sendcmd,
    decodeRequest_of_agrees 0x0A 0x400 (by decide) decodeRequest_backlight,
    decodeRequest_of_agrees 0x0B 0x400 (by decide) decodeRequest_panelrst,
    fun _ hr _ hq => requestRow_unique hr hq, decodeRequest_error_of_agrees_none⟩

/-! ### The EXEC step on a rejected header -/

/-- The EXEC step on a header that is no operation's responds REJECTED and does nothing else (R88, R107). -/
theorem step_of_latched_error {s : State} {e : DecodeError} (hturn : nextAgent s = .sequencer) (hslot : s.ctlSlot = none)
    (hseq : s.seq = .exec) (h : latchedRequest s = .error e) : step s = .next (respond .rejected (advance s)) := by
  have hact : seqAction s = .reject := by simp only [seqAction_of_slot hslot, hseq, h]
  simp only [step, hturn, turnOf, sequencerTurn, hact]

/-- Settles O4: either cause of R88 makes the latched header an error of the decoder, and `step_of_latched_error` gives
the step. -/
theorem rejectedHeaderChangesOnlyTheResponse : Obligations.RejectedHeaderChangesOnlyTheResponse := by
  intro s hturn hslot hseq hcause
  have herr : ∃ e, latchedRequest s = .error e := by
    obtain hzero | hhigh | ⟨op, fields, hmem, hop, hbits⟩ := hcause
    · exact ⟨_, decodeRequest_reserved (.inl (congrArg BitVec.toNat hzero))⟩
    · exact ⟨_, decodeRequest_reserved (.inr hhigh)⟩
    · change (op, fields) ∈ operationFields.map fun p => (p.1.setWidth 32, p.2) at hmem
      obtain ⟨p, hp, heq⟩ := List.mem_map.mp hmem
      cases heq
      exact decodeRequest_error_of_bits hp (and_low_byte_eq_iff.mp hop) hbits
  obtain ⟨e, he⟩ := herr
  exact step_of_latched_error hturn hslot hseq he

end Sys2Proof.Machine
end

section
/-! PROOFS. The host's register writes (40_host_port.md R102 to R106, R112): the access of a register, the plain
registers, submission and consumption. -/

namespace Sys2Proof.Machine

/-! ### A register write is admitted -/

/-- The port admits a 32-bit access of each register (20_memory.md R61, R62). -/
theorem portOffset_of_register (c : Config) {off : Nat} (hlt : off < 64) (halign : off % 4 = 0) :
    portOffset c (portBase c + BitVec.ofNat 32 off) 32 = some off := by
  have hoff : (portBase c + BitVec.ofNat 32 off - portBase c).toNat = off := by
    rw [BitVec.add_comm, BitVec.add_sub_cancel, BitVec.toNat_ofNat]
    omega
  simp only [portOffset, hoff, hlt, halign, and_self, if_true]

/-- The host's turn with a write of a register pending (R100, R102). -/
theorem hostStep_of_register_write {s : State} {rest : List HostOp} {off : Nat} {v : Word} (hlt : off < 64)
    (halign : off % 4 = 0) (hops : s.hostOps = .write (portBase s.cfg + BitVec.ofNat 32 off) 32 v :: rest) :
    hostStep s = .next (portWrite off v { s with hostOps := rest }) := by
  simp only [hostStep, hops, portOffset_of_register s.cfg hlt halign]

/-! ### The plain registers -/

/-- A write of any register but CMD and RESP stores TIMEOUT_MS or an argument register, or nothing (R102 to R104). -/
theorem portWrite_of_plain {off : Nat} (v : Word) (s : State) (hcmd : off ≠ 0x30) (hresp : off ≠ 0x34) :
    portWrite off v s = { s with
      timeoutMs := if off = 0x0C then (if v = 0 then 1 else v) else s.timeoutMs
      arg0 := if off = 0x20 then v else s.arg0
      arg1 := if off = 0x24 then v else s.arg1
      arg2 := if off = 0x28 then v else s.arg2 } := by
  unfold portWrite
  split
  case h_1 | h_2 | h_3 | h_4 => rfl
  case h_5 => exact absurd rfl hcmd
  case h_6 => exact absurd rfl hresp
  case h_7 htimeout harg0 harg1 harg2 _ _ => simp only [if_neg htimeout, if_neg harg0, if_neg harg1, if_neg harg2]

/-! ### Submission -/

theorem ready_iff {s : State} : ready s = true ↔ s.seq = .idle ∧ s.respValid = false := by simp [ready, busy]

theorem submit_of_ready (v : Word) {s : State} (h : ready s = true) : submit v s = accept v s := if_pos h

theorem submit_of_not_ready (v : Word) {s : State} (h : ¬ ready s = true) : submit v s = { s with drop := true } :=
  if_neg h

/-- STATUS bit 0 is BUSY (R40). -/
theorem portRead_status_busy (s : State) : (portRead s 0x00).getLsbD 0 = busy s := by
  rw [portRead, statusWord, BitVec.getLsbD_append]
  simp

/-! ### Consumption -/

theorem consumedJob_eq (j : Job) : consumedJob j = if j = .complete ∨ j = .timedOut then .idle else j := by
  cases j <;> rfl

/-- Everything a RESP write can do, field by field: the two bits act apart (R102, R112). -/
theorem writeResp_eq (v : Word) (s : State) : writeResp v s = { s with
    respValid := if v.getLsbD 0 = true then false else s.respValid
    job := if v.getLsbD 0 = true ∧ s.respValid = true ∧ (s.job = .complete ∨ s.job = .timedOut) then .idle else s.job
    drop := if v.getLsbD 1 = true then false else s.drop } := by
  by_cases hcons : v.getLsbD 0 = true ∧ s.respValid = true
  · obtain ⟨hbit, hvalid⟩ := hcons
    simp only [writeResp, consume, consumedJob_eq, hbit, hvalid, true_and, Bool.and_self, if_true]
    cases v.getLsbD 1 <;> rfl
  · have hresp : (if v.getLsbD 0 = true then false else s.respValid) = s.respValid :=
      ite_eq_right_iff.mpr fun hbit => (Bool.eq_false_of_not_eq_true fun hvalid => hcons ⟨hbit, hvalid⟩).symm
    simp only [writeResp, Bool.and_eq_true, hcons, hresp, ← and_assoc, false_and, if_false]
    cases v.getLsbD 1 <;> rfl

/-! ### The statements -/

/-- Settles O35: the write is admitted, and `portWrite_of_plain` says what it stores. -/
theorem hostWritesStoreTheirRegister : Obligations.HostWritesStoreTheirRegister := by
  intro s rest off v hlt halign hcmd hresp hops
  rw [hostStep_of_register_write hlt halign hops, portWrite_of_plain v _ hcmd hresp]

/-- Settles O36: the CMD write runs submit, which READY splits in two. -/
theorem commandWriteIsAcceptedOrDropped : Obligations.CommandWriteIsAcceptedOrDropped := by
  intro s rest v hops
  have hstep : hostStep s = .next (submit v { s with hostOps := rest }) :=
    hostStep_of_register_write (off := 0x30) (by decide) (by decide) hops
  constructor
  · intro hseq hresp
    have hready : ready { s with hostOps := rest } = true := ready_iff.mpr ⟨hseq, hresp⟩
    rw [submit_of_ready v hready] at hstep
    exact ⟨_, hstep, portRead_status_busy _, rfl⟩
  · intro hbusy
    have hready : ¬ ready { s with hostOps := rest } = true := by
      rw [ready_iff, not_and_or, Bool.not_eq_false]
      exact hbusy
    rw [hstep, submit_of_not_ready v hready]

/-- Settles O37: the RESP write runs `writeResp`. -/
theorem responseWriteConsumes : Obligations.ResponseWriteConsumes := by
  intro s rest v hops
  have hstep : hostStep s = .next (writeResp v { s with hostOps := rest }) :=
    hostStep_of_register_write (off := 0x34) (by decide) (by decide) hops
  rw [hstep, writeResp_eq]

end Sys2Proof.Machine
end

section
/-! PROOFS. The Mapper's requests (41_addressing.md R116 to R123, R125, R128): the orientation code, the effective
dimensions and the full-panel window of SETROT, and the clamped window of ARMWIN. -/

namespace Sys2Proof.Machine

/-! ### Orientation and dimensions -/

/-- The code table of R116. -/
theorem madctl_eq_getD (r : BitVec 2) : madctl r = ([0x00, 0x60, 0xC0, 0xA0] : List Byte).getD r.toNat 0 := by
  decide +revert

theorem effDims_fst (c : Config) (r : BitVec 2) :
    (effDims c r).1 = BitVec.ofNat 16 (if r.toNat % 2 = 0 then c.nativeW else c.nativeH) := by
  unfold effDims; split <;> rfl

theorem effDims_snd (c : Config) (r : BitVec 2) :
    (effDims c r).2 = BitVec.ofNat 16 (if r.toNat % 2 = 0 then c.nativeH else c.nativeW) := by
  unfold effDims; split <;> rfl

/-- A square panel has the same dimensions under every rotation (R128). -/
theorem effDims_of_square {c : Config} (h : c.nativeW = c.nativeH) (r q : BitVec 2) : effDims c r = effDims c q := by
  simp only [effDims, h, ite_self]

theorem dimsChange_iff {r : BitVec 2} {s : State} :
    dimsChange r s = true ↔ (effDims s.cfg r).1 ≠ s.effW ∨ (effDims s.cfg r).2 ≠ s.effH := by
  simp only [dimsChange, Bool.or_eq_true, bne_iff_ne]

theorem dimsChange_eq_false_iff {r : BitVec 2} {s : State} :
    dimsChange r s = false ↔ (s.effW, s.effH) = effDims s.cfg r := by
  rw [← Bool.not_eq_true, dimsChange_iff, not_or, not_not, not_not, Prod.ext_iff, eq_comm (a := s.effW),
    eq_comm (a := s.effH)]

/-- Taking a rotation whose dimensions are the present ones changes ROT alone. -/
theorem turnTo_of_same {r : BitVec 2} {s : State} (h : dimsChange r s = false) : turnTo r s = { s with rot := r } := by
  rw [turnTo, ← dimsChange_eq_false_iff.mp h]

/-! ### Windows -/

section
variable {dim : Half} (h : 1 ≤ dim.toNat)
include h

theorem clampedHalf_zero : clampedHalf dim 0 = 0 := clampedHalf_of_mem le_rfl (by omega)

theorem clampedHalf_last : clampedHalf dim ((dim.toNat : Int) - 1) = dim - 1 := by
  have hval := toNat_ofInt_half (v := (dim.toNat : Int) - 1) (by omega) (by have := dim.isLt; omega)
  rw [clampedHalf_of_mem (by omega) (by omega)]
  bv_omega

end

/-- Clamping leaves the full-panel window unchanged (R125). -/
theorem armFullPanel_eq {s : State} (hw : 1 ≤ s.effW.toNat) (hh : 1 ≤ s.effH.toNat) :
    armFullPanel s = openWindow 0 0 (s.effW - 1) (s.effH - 1) s := by
  rw [armFullPanel, arm_eq, clampedHalf_zero hw, clampedHalf_zero hh, clampedHalf_last hw, clampedHalf_last hh]

/-! ### SETROT -/

/-- SETROT with new dimensions arms the full panel of the new dimensions (R118, R125). -/
theorem exec_setrot_of_change {r : BitVec 2} {s : State} (hlegal : configLegal s.cfg = true)
    (h : dimsChange r s = true) : exec (.setrot r) s = .next (respond .ok
      (openWindow 0 0 ((effDims s.cfg r).1 - 1) ((effDims s.cfg r).2 - 1)
        (emit (controllerEvents 0x36 [madctl r]) (turnTo r s)))) := by
  obtain ⟨⟨hw, -⟩, hh, -⟩ := effDims_range hlegal r
  rw [exec_setrot, if_pos h, armFullPanel_eq hw hh, emit_effW, emit_effH, turnTo_effW, turnTo_effH]

/-- SETROT with the present dimensions sends its code, takes ROT and disarms (R118). -/
theorem exec_setrot_of_same {r : BitVec 2} {s : State} (h : dimsChange r s = false) : exec (.setrot r) s =
    .next (streamEnd .ok (emit (controllerEvents 0x36 [madctl r]) { s with rot := r })) := by
  rw [exec_setrot, h, turnTo_of_same h]
  rfl

/-- Every SETROT takes the rotation and its dimensions, and sends its code before anything else (R118). -/
theorem exec_setrot_takes (r : BitVec 2) (s : State) : ∃ t more, exec (.setrot r) s = .next t ∧
    t.cfg = s.cfg ∧ t.rot = r ∧ (t.effW, t.effH) = effDims s.cfg r ∧
    t.trace = s.trace ++ controllerEvents 0x36 [madctl r] ++ more := by
  rw [exec_setrot]
  split
  · exact ⟨_, _, rfl, rfl, rfl, rfl, rfl⟩
  · exact ⟨_, [], rfl, rfl, rfl, rfl, (List.append_nil _).symm⟩

/-! ### The statements -/

/-- Settles O9: the two results of SETROT, with the dimensions and the code as the statement writes them. -/
theorem setrotResult : Obligations.SetrotResult := by
  intro r s hlegal
  refine ⟨fun cmd _ _ _ hop => decodeRequest_setrot (congrArg BitVec.toNat hop), ?_⟩
  rw [← effDims_fst, ← effDims_snd, ← madctl_eq_getD]
  split
  case isTrue h =>
    rw [exec_setrot_of_change hlegal (dimsChange_iff.mpr h), openWindow, emit, turnTo, List.append_assoc]
    rfl
  case isFalse h =>
    rw [exec_setrot_of_same (Bool.eq_false_of_not_eq_true (mt dimsChange_iff.mp h))]
    rfl

/-- Settles O10: the first SETROT leaves the dimensions of `r`, so the second finds nothing to change. -/
theorem setrotTwiceIsIdempotent : Obligations.SetrotTwiceIsIdempotent := by
  intro r s
  obtain ⟨t, more, hexec, hcfg, hrot, hdims, htrace⟩ := exec_setrot_takes r s
  have hsame : dimsChange r t = false := dimsChange_eq_false_iff.mpr (by rw [hdims, hcfg])
  refine ⟨t, _, madctl r, more, hexec, exec_setrot_of_same hsame, hrot.symm, rfl, rfl, rfl, ?_, ?_⟩
  · rw [htrace, controllerEvents, ← List.append_assoc]
  · exact (List.append_assoc _ _ _).symm

/-- Settles O11: the dimensions of a square panel are those of every rotation, so SETROT changes none. -/
theorem squarePanelNeverRearms : Obligations.SquarePanelNeverRearms := by
  intro r s hsquare hdims
  have hsame : dimsChange r s = false := dimsChange_eq_false_iff.mpr (hdims.trans (effDims_of_square hsquare s.rot r))
  exact ⟨_, exec_setrot_of_same hsame, rfl, (List.append_assoc _ _ _).symm, rfl, rfl, rfl, rfl⟩

/-- Settles O12: the coordinates sent are `clampedHalf` of each argument. -/
theorem armwinResult : Obligations.ArmwinResult := by
  refine ⟨fun cmd _ _ _ hop => decodeRequest_armwin (congrArg BitVec.toNat hop), ?_⟩
  intro x0 y0 x1 y1 s hw _ hh _
  exact ⟨clampedHalf s.effW x0, clampedHalf s.effH y0, clampedHalf s.effW x1, clampedHalf s.effH y1,
    clampedHalf_toNat hw x0, clampedHalf_toNat hw x1, clampedHalf_toNat hh y0,
    clampedHalf_toNat hh y1, rfl⟩

end Sys2Proof.Machine
end

section
/-! PROOFS. The stream requests (42_transfer.md R136, R155, R158): the window check, and WRSYNC's burst of host bytes. -/

namespace Sys2Proof.Machine

/-! ### The window check -/

section
variable {s : State} (h : s.winArmed = false)
include h

theorem exec_wrsync_of_unarmed (a : Word) (n : Nat) : exec (.wrsync a n) s = .next (respond .rejected s) :=
  if_neg (ne_true_of_eq_false h)

theorem exec_wrasync_of_unarmed (a : Word) (n : Nat) : exec (.wrasync a n) s = .next (respond .rejected s) :=
  if_neg (ne_true_of_eq_false h)

theorem exec_fill_of_unarmed (n : Nat) (c : Half) : exec (.fill n c) s = .next (respond .rejected s) :=
  if_neg (ne_true_of_eq_false h)

end

/-! ### WRSYNC -/

/-- Source bytes that are admitted and not raced are read as memory holds them (R56, R59). -/
theorem hostBytes_of_not_raced {s : State} {a : Word} {bs : List Byte} (hraced : s.raced = false)
    (hmem : ∀ j (h : j < bs.length), Memory.read s.mem ((a.toNat + j) % 2 ^ 32) = some bs[j]) :
    hostBytes s a bs.length = some bs := by
  rw [hostBytes, collect_eq_some]
  refine ⟨rfl, fun j hj => ?_⟩
  rw [hostByte_not_raced hraced, Nat.zero_add]
  exact hmem j hj

/-- With a window armed, WRSYNC sends the bytes it reads and spends the window (R158). -/
theorem exec_wrsync_of_hostBytes {s : State} {a : Word} {n : Nat} {bs : List Byte} (harmed : s.winArmed = true)
    (hbytes : hostBytes s a n = some bs) :
    exec (.wrsync a n) s = .next (streamEnd .ok (emit (dataEvents bs) s)) := by
  rw [exec, execWrsync, if_pos harmed, syncBytes_eq_some.mpr ⟨bs, hbytes, rfl⟩, Option.map_some, orStuck_some]

/-- A burst is one data transaction, and no byte sends nothing (R66). -/
theorem dataEvents_eq_ite (bs : List Byte) :
    dataEvents bs = if bs = [] then [] else .beginTx :: (bs.map (BusEvent.byte .data) ++ [.endTx]) := by
  split
  case isTrue h => rw [h, dataEvents]
  case isFalse h => exact dataEvents_of_ne_nil h

/-! ### The statements -/

/-- Settles O14: each of the three requests fails its window check. -/
theorem streamWithoutWindowIsRejected : Obligations.StreamWithoutWindowIsRejected := by
  intro s a n c hunarmed i hi
  simp only [List.mem_cons, List.not_mem_nil, or_false] at hi
  obtain rfl | rfl | rfl := hi
  · exact exec_wrsync_of_unarmed hunarmed a n
  · exact exec_wrasync_of_unarmed hunarmed a n
  · exact exec_fill_of_unarmed hunarmed n c

/-- Settles O15: the bytes read are those of memory, and the burst is written out by `dataEvents_eq_ite`. -/
theorem wrsyncResult : Obligations.WrsyncResult := by
  refine ⟨fun cmd _ _ _ hop => decodeRequest_wrsync (congrArg BitVec.toNat hop), ?_⟩
  intro a bs s
  refine ⟨fun harmed hraced hmem => ?_, fun hunarmed => exec_wrsync_of_unarmed hunarmed a _⟩
  rw [exec_wrsync_of_hostBytes harmed (hostBytes_of_not_raced hraced hmem), ← dataEvents_eq_ite]
  rfl

end Sys2Proof.Machine
end

section
/-! PROOFS. The Sequencer's turn in START and in WAIT (42_transfer.md R145, R147): the start of a chunk, and its abort
once the bound is reached. -/

namespace Sys2Proof.Machine

/-! ### The turn in START and in WAIT -/

section
variable {s : State} (hturn : nextAgent s = .sequencer) (hslot : s.ctlSlot = none)
include hturn hslot

/-- The Sequencer's turn in START is the START step (R38, R145). -/
theorem step_of_start (hseq : s.seq = .start) : step s = .next (startStep (advance s)) := by
  have hact : seqAction s = .start := by rw [seqAction_of_slot hslot, hseq]
  simp only [step, hturn, turnOf, sequencerTurn, hact]

/-- The Sequencer's turn in WAIT is the WAIT step (R38, R146 to R149). -/
theorem step_of_wait (hseq : s.seq = .wait) : step s = .next (waitStep (advance s)) := by
  have hact : seqAction s = .wait := by rw [seqAction_of_slot hslot, hseq]
  simp only [step, hturn, turnOf, sequencerTurn, hact]

end

/-! ### The bound -/

/-- The elapsed time is the difference mod 2^32 (R168). -/
theorem elapsed_toNat (s : State) : (elapsed s).toNat = (s.now.toNat + 2 ^ 32 - s.tStart.toNat) % 2 ^ 32 := by
  rw [elapsed, BitVec.toNat_sub]
  omega

/-- With no completion pending, WAIT ends the stream once the bound is reached (R147). -/
theorem waitStep_of_timeout {s : State} (hcompletion : s.completionPending = false)
    (hbound : s.tmo.toNat ≤ (elapsed s).toNat) : waitStep s = timeoutEnd s := by
  rw [waitStep, if_neg (ne_true_of_eq_false hcompletion), if_pos (BitVec.le_def.mpr hbound)]

/-- The end on a timeout, field by field (R147, R153). -/
theorem timeoutEnd_eq (s : State) : timeoutEnd s = { s with
    trace := if s.dmaActive = true ∧ s.dmaSent.toNat < s.dmaLen.toNat then s.trace ++ [.endTx] else s.trace
    dmaActive := false, completionPending := false, job := .timedOut
    winArmed := false, respCode := .timeout, respValid := true, seq := .idle } := by
  simp only [timeoutEnd, abort, Bool.and_eq_true, decide_eq_true_eq, BitVec.lt_def]

/-! ### The statements -/

/-- Settles O43: the chunk's length does not wrap, and the fate is the one drawn at its start. -/
theorem startStepStartsTheChannel : Obligations.StartStepStartsTheChannel := by
  intro s hturn hslot hseq hlen
  have htwice : 2 * s.curPx = BitVec.ofNat 32 (2 * s.curPx.toNat) := by bv_omega
  have hlength : (2 * s.curPx).toNat = 2 * s.curPx.toNat := by rw [htwice, BitVec.toNat_ofNat, Nat.mod_eq_of_lt hlen]
  refine ⟨drawFate (s.tick + 1) (2 * s.curPx.toNat), drawFate_cases _ _, ?_⟩
  rw [step_of_start hturn hslot hseq, ← htwice, ← hlength]
  rfl

/-- Settles O45: the bound is reached with no completion pending, and `timeoutEnd_eq` says what the end does. -/
theorem waitTimesOutAndAborts : Obligations.WaitTimesOutAndAborts := by
  intro s hturn hslot hseq hcompletion hbound
  have hwait : waitStep (advance s) = timeoutEnd (advance s) :=
    waitStep_of_timeout hcompletion (hbound.trans_eq (elapsed_toNat s).symm)
  rw [step_of_wait hturn hslot hseq, hwait, timeoutEnd_eq]
  rfl

end Sys2Proof.Machine
end

section
/-! PROOFS. The compound requests (43_compound.md R170 to R173, R180): the clipped window, PIXEL inside and outside the
panel, and the rectangles of which nothing is visible. -/

namespace Sys2Proof.Machine

/-! ### Clipping -/

section
variable {effW effH : Half} {x y w h : Int}

/-- A clipped window is ordered and lies in the panel, and its extent counts its columns and its rows (R170, R171). -/
theorem clip_window {r : Clip} (hr : clip effW effH x y w h = some r) :
    (0 ≤ r.cx0 ∧ r.cx0 ≤ r.cx1 ∧ r.cx1 ≤ (effW.toNat : Int) - 1) ∧
    (0 ≤ r.cy0 ∧ r.cy0 ≤ r.cy1 ∧ r.cy1 ≤ (effH.toNat : Int) - 1) ∧
    (r.cw : Int) = r.cx1 - r.cx0 + 1 ∧ (r.ch : Int) = r.cy1 - r.cy0 + 1 := by
  simp only [clip, Option.ite_none_left_eq_some, Option.some.injEq] at hr
  obtain ⟨-, hvisible, rfl⟩ := hr
  dsimp only
  omega

/-- A rectangle of no extent, or wholly on one side of the panel, has no visible part (R170). -/
theorem clip_none (hout : w ≤ 0 ∨ h ≤ 0 ∨ x + w ≤ 0 ∨ y + h ≤ 0 ∨ (effW.toNat : Int) ≤ x ∨ (effH.toNat : Int) ≤ y) :
    clip effW effH x y w h = none := by
  simp only [clip, ite_eq_left_iff, reduceCtorEq]
  omega

end

/-! ### Requests of which nothing is visible -/

section
variable {s : State} {x y w h : Int} (hclip : clip s.effW s.effH x y w h = none)
include hclip

/-- FILLRECT with an empty clip ends OK at once (R174). -/
theorem exec_fillrect_of_clip_none (c : Half) : exec (.fillrect x y w h c) s = .next (streamEnd .ok s) := by
  simp only [exec, execFillrect, hclip]

/-- BLIT with an empty clip ends OK at once (R177). -/
theorem exec_blit_of_clip_none (a : Word) : exec (.blit x y w h a) s = .next (streamEnd .ok s) := by
  simp only [exec, execBlit, hclip]

end

/-! ### PIXEL -/

theorem inPanel_iff {effW effH : Half} {x y : Int} :
    inPanel effW effH x y = true ↔ (0 ≤ x ∧ x < effW.toNat) ∧ (0 ≤ y ∧ y < effH.toNat) := by
  simp only [inPanel, Bool.and_eq_true, decide_eq_true_eq]
  omega

/-- A coordinate in the panel is sent as it is. -/
theorem clampedHalf_eq_ofNat {dim : Half} {v : Int} (h0 : 0 ≤ v) (h1 : v < dim.toNat) :
    clampedHalf dim v = BitVec.ofNat 16 v.toNat := by
  rw [clampedHalf_of_mem h0 h1, ← BitVec.ofInt_natCast, Int.toNat_of_nonneg h0]

/-- PIXEL in the panel opens the window of that pixel and sends its colour (R172). -/
theorem exec_pixel_of_inside {x y : Int} {s : State} (c : Half) (hx0 : 0 ≤ x) (hx1 : x < s.effW.toNat) (hy0 : 0 ≤ y)
    (hy1 : y < s.effH.toNat) : exec (.pixel x y c) s = .next (streamEnd .ok (emit (dataEvents [hiByte c, loByte c])
      (openWindow (BitVec.ofNat 16 x.toNat) (BitVec.ofNat 16 y.toNat) (BitVec.ofNat 16 x.toNat)
        (BitVec.ofNat 16 y.toNat) s))) := by
  rw [exec_pixel, if_pos (inPanel_iff.mpr ⟨⟨hx0, hx1⟩, hy0, hy1⟩), arm_eq, clampedHalf_eq_ofNat hx0 hx1,
    clampedHalf_eq_ofNat hy0 hy1]

/-- PIXEL outside the panel sends nothing (R172, R173). -/
theorem exec_pixel_of_outside {x y : Int} {s : State} (c : Half)
    (hout : x < 0 ∨ (s.effW.toNat : Int) ≤ x ∨ y < 0 ∨ (s.effH.toNat : Int) ≤ y) :
    exec (.pixel x y c) s = .next (streamEnd .ok s) := by
  have hnot : ¬ inPanel s.effW s.effH x y = true := by rw [inPanel_iff]; omega
  rw [exec_pixel, if_neg hnot]

/-! ### The statements -/

/-- Settles O19: the window and the two bytes stand in the trace one after the other. -/
theorem pixelResult : Obligations.PixelResult := by
  refine ⟨fun cmd _ _ _ hop => decodeRequest_pixel (congrArg BitVec.toNat hop), fun x y c s => ⟨?_, ?_⟩⟩
  · intro hx0 hx1 hy0 hy1
    rw [exec_pixel_of_inside c hx0 hx1 hy0 hy1, openWindow, emit, List.append_assoc]
    rfl
  · exact exec_pixel_of_outside c

/-- Settles O20: the four coordinates lie in the panel, so clamping leaves them, and the area is the product of the
extents. -/
theorem clippedWindowIsInThePanel : Obligations.ClippedWindowIsInThePanel := by
  intro effW effH x y w h r hr
  obtain ⟨hx, hy, hcw, hch⟩ := clip_window hr
  obtain ⟨hx0, hxord, hx1⟩ := hx
  obtain ⟨hy0, hyord, hy1⟩ := hy
  exact ⟨⟨hx0, hxord, hx1⟩, ⟨hy0, hyord, hy1⟩, clampTo_of_mem hx0 (by omega), clampTo_of_mem (by omega) (by omega),
    clampTo_of_mem hy0 (by omega), clampTo_of_mem (by omega) (by omega), by rw [Nat.cast_mul, hcw, hch]⟩

/-- Settles O23: either rectangle clips to nothing, and then the request ends OK. -/
theorem outsideRectangleTransfersNothing : Obligations.OutsideRectangleTransfersNothing := by
  intro x y w h a c s hout i hi
  have hclip : clip s.effW s.effH x y w h = none := clip_none hout
  simp only [List.mem_cons, List.not_mem_nil, or_false] at hi
  obtain rfl | rfl := hi
  · exact exec_blit_of_clip_none hclip a
  · exact exec_fillrect_of_clip_none hclip c

end Sys2Proof.Machine
end

section
/-! PROOFS. The panel-control requests (44_panel_control.md R183, R186, R187): SENDCMD refused and sent, and the two
pins. -/

namespace Sys2Proof.Machine

/-! ### SENDCMD -/

theorem mapperOwned_iff {cb : Byte} : mapperOwned cb = true ↔ cb ∈ [0x36, 0x2A, 0x2B, 0x2C] := by
  simp [mapperOwned, or_assoc]

section
variable {cb : Byte} {a : Word} {n : Nat} {s : State}

theorem exec_sendcmd_of_mapperOwned (h : mapperOwned cb = true) :
    exec (.sendcmd cb a n) s = .next (respond .rejected s) := if_pos h

/-- Any other byte is sent with the payload bytes SENDCMD reads, and spends the window (R183). -/
theorem exec_sendcmd_of_hostBytes {bs : List Byte} (h : ¬ mapperOwned cb = true)
    (hbytes : hostBytes s a n = some bs) :
    exec (.sendcmd cb a n) s = .next (streamEnd .ok (emit (controllerEvents cb bs) s)) := by
  have hsync : syncBytes a n (emitCmd cb s) = some (emit (dataEvents bs) (emitCmd cb s)) :=
    syncBytes_eq_some.mpr ⟨bs, hbytes, rfl⟩
  have htrace : emit (dataEvents bs) (emitCmd cb s) = emit (controllerEvents cb bs) s := by
    rw [emitCmd_eq, controllerEvents, emit, emit, emit, List.append_assoc]
  rw [exec, execSendcmd, if_neg h, hsync, htrace, Option.map_some, orStuck_some]

end

/-! ### The pins -/

/-- BACKLIGHT drives its pin whatever its level, and leaves the window (R186). -/
theorem exec_backlight (l : Bool) (s : State) :
    exec (.backlight l) s = .next (respond .ok (emitBacklightPin l s)) := rfl

/-- PANELRST drives its pin whatever its level, and spends the window (R187). -/
theorem exec_panelrst (l : Bool) (s : State) : exec (.panelrst l) s = .next (streamEnd .ok (emitResetPin l s)) := rfl

/-! ### The statements -/

/-- Settles O24: a mapper-owned byte is refused; any other is sent with the payload bytes of memory, written out by
`dataEvents_eq_ite`. -/
theorem sendcmdResult : Obligations.SendcmdResult := by
  refine ⟨fun cmd _ _ _ hop => decodeRequest_sendcmd (congrArg BitVec.toNat hop), fun cb a bs s => ⟨?_, ?_⟩⟩
  · intro howned
    exact exec_sendcmd_of_mapperOwned (mapperOwned_iff.mpr howned)
  · intro hother hraced hmem
    rw [exec_sendcmd_of_hostBytes (mt mapperOwned_iff.mp hother) (hostBytes_of_not_raced hraced hmem),
      controllerEvents, dataEvents_eq_ite, emit, ← List.append_assoc]
    rfl

/-- Settles O25: neither meaning looks at the level its pin has. -/
theorem pinRequestResults : Obligations.PinRequestResults := by
  refine fun l s => ⟨fun cmd arg0 arg1 arg2 => ⟨?_, ?_⟩, exec_backlight l s, exec_panelrst l s⟩
  · exact fun hop => decodeRequest_backlight (congrArg BitVec.toNat hop)
  · exact fun hop => decodeRequest_panelrst (congrArg BitVec.toNat hop)

end Sys2Proof.Machine
end

section
/-! PROOFS. Reset (70_reset_and_hazards.md R224 to R227): which configurations are legal, and the values of the reset
state that the configuration and the draws decide. -/

namespace Sys2Proof.Machine

/-! ### The configuration -/

section
variable {c : Config}

theorem configLegal_iff : configLegal c = true ↔
    1 ≤ c.nativeW ∧ c.nativeW ≤ 32767 ∧ 1 ≤ c.nativeH ∧ c.nativeH ≤ 32767 ∧ c.initRot ≤ 3 := by
  simp only [configLegal, Bool.and_eq_true, decide_eq_true_eq, and_assoc]

theorem boot_of_legal (h : configLegal c = true) (d : ResetDraws) : boot c d = .next (State.resetWith c d) := if_pos h

theorem boot_of_not_legal (h : ¬ configLegal c = true) (d : ResetDraws) :
    boot c d = .refused .illegalConfiguration := if_neg h

/-- Legal native dimensions fit their 16-bit registers, so the effective ones are exact (R6, R117). -/
theorem effDims_fst_toNat (h : configLegal c = true) (r : BitVec 2) :
    (effDims c r).1.toNat = if r.toNat % 2 = 0 then c.nativeW else c.nativeH := by
  obtain ⟨-, hw, -, hh, -⟩ := configLegal_iff.mp h
  rw [effDims_fst, BitVec.toNat_ofNat, Nat.mod_eq_of_lt (by split <;> omega)]

theorem effDims_snd_toNat (h : configLegal c = true) (r : BitVec 2) :
    (effDims c r).2.toNat = if r.toNat % 2 = 0 then c.nativeH else c.nativeW := by
  obtain ⟨-, hw, -, hh, -⟩ := configLegal_iff.mp h
  rw [effDims_snd, BitVec.toNat_ofNat, Nat.mod_eq_of_lt (by split <;> omega)]

/-- CHUNK_MAX holds half of SCRATCH_CAP without wrapping (R138). -/
theorem chunkMaxOf_toNat (c : Config) : (chunkMaxOf c).toNat = c.scratchCap.toNat / 2 :=
  Nat.mod_eq_of_lt ((Nat.div_le_self _ 2).trans_lt c.scratchCap.isLt)

end

/-! ### The reset state -/

section
variable {c : Config} (d : ResetDraws)

theorem resetWith_rot_toNat (h : configLegal c = true) : (State.resetWith c d).rot.toNat = c.initRot := by
  obtain ⟨-, -, -, -, hrot⟩ := configLegal_iff.mp h
  exact Nat.mod_eq_of_lt (by omega)

theorem resetWith_effW_toNat (h : configLegal c = true) :
    (State.resetWith c d).effW.toNat = if c.initRot % 2 = 0 then c.nativeW else c.nativeH := by
  rw [← resetWith_rot_toNat d h]
  exact effDims_fst_toNat h _

theorem resetWith_effH_toNat (h : configLegal c = true) :
    (State.resetWith c d).effH.toNat = if c.initRot % 2 = 0 then c.nativeH else c.nativeW := by
  rw [← resetWith_rot_toNat d h]
  exact effDims_snd_toNat h _

/-- ASYNC_AVAIL is computed at reset (R226). -/
theorem resetWith_asyncAvail_iff : (State.resetWith c d).asyncAvail = true ↔
    c.asyncEn = true ∧ d.resourcesOk = true ∧ 1 ≤ c.scratchCap.toNat / 2 := by
  simp only [State.resetWith, Bool.and_eq_true, decide_eq_true_eq, and_assoc]

end

/-! ### The statement -/

/-- Settles O51: `configLegal` is the legal range of R227; the values that depend on the configuration or the draws are
the lemmas above, and every other one is the table's constant. -/
theorem resetLeavesTheTableValues : Obligations.ResetLeavesTheTableValues := by
  intro c d
  rw [← configLegal_iff]
  refine ⟨fun hlegal => ⟨State.resetWith c d, boot_of_legal hlegal d, resetWith_rot_toNat d hlegal,
    resetWith_effW_toNat d hlegal, resetWith_effH_toNat d hlegal, ?_⟩, fun hnot => boot_of_not_legal hnot d⟩
  exact ⟨rfl, rfl, rfl, rfl, rfl, rfl, resetWith_asyncAvail_iff d, rfl, chunkMaxOf_toNat c,
    rfl, rfl, rfl, rfl, rfl, rfl, rfl, rfl, rfl, rfl, rfl, rfl, rfl, ready_iff.mpr ⟨rfl, rfl⟩⟩

end Sys2Proof.Machine
end

section
/-! PROOFS. Decoding and encoding undo each other (30_encoding.md R79 to R90): a request by its header and its argument
words, a controller command by its bytes; and the colour function rgb (R91). -/

namespace Sys2Proof.Machine

/-! ### A request from its words -/

/-- The one field of a header: the encoder sets no bit outside OP and the field, and the decoder reads it back. -/
theorem header_setrot (r : BitVec 2) : header 0x01 (rotField r) &&& ~~~0x300 = (0x01 : Byte).setWidth 32 ∧
    headerRot (header 0x01 (rotField r)) = r := by decide +revert
theorem header_sendcmd (cb : Byte) : header 0x09 (cbField cb) &&& ~~~0xFF0000 = (0x09 : Byte).setWidth 32 ∧
    headerCb (header 0x09 (cbField cb)) = cb := by decide +revert
theorem header_backlight (l : Bool) : header 0x0A (lvlField l) &&& ~~~0x400 = (0x0A : Byte).setWidth 32 ∧
    headerLvl (header 0x0A (lvlField l)) = l := by decide +revert
theorem header_panelrst (l : Bool) : header 0x0B (lvlField l) &&& ~~~0x400 = (0x0B : Byte).setWidth 32 ∧
    headerLvl (header 0x0B (lvlField l)) = l := by decide +revert

/-- A request is encoded as a header and argument words that begin with those it reads (R78, R87). -/
theorem encode_request {i : Instr} (hreq : isRequest i = true) :
    ∃ cmd b0 b1 b2, encode i = .request cmd b0 b1 b2 ∧ argWords i <+: [b0, b1, b2] := by
  cases i
  case ctlSwreset | ctlSlpout | ctlPixfmt | ctlOrient | ctlCaset | ctlRaset | ctlRamwr | ctlInvon | ctlDispon =>
    cases hreq
  all_goals exact ⟨_, _, _, _, rfl, _, rfl⟩

/-- The encoded header agrees with its operation's row, so it decodes to its field and the argument words it reads,
whatever stands in those it ignores (R87): the operands. -/
theorem decodeRequest_encoded {i : Instr} {cmd b0 b1 b2 a0 a1 a2 : Word} (hwf : i.wellFormed = true)
    (hencode : encode i = .request cmd b0 b1 b2) (hargs : argWords i <+: [a0, a1, a2]) :
    decodeRequest cmd a0 a1 a2 = .ok i := by
  cases i <;> simp only [encode, Encoded.request.injEq, reduceCtorEq] at hencode <;> obtain ⟨rfl, -⟩ := hencode
  case setrot r =>
    obtain ⟨hrow, hfield⟩ := header_setrot r
    rw [decodeRequest_of_agrees 0x01 0x300 (by decide) decodeRequest_setrot hrow, hfield]
  case sendcmd cb a n =>
    obtain ⟨hrow, hfield⟩ := header_sendcmd cb
    obtain ⟨_, hwords⟩ := hargs
    cases hwords
    rw [decodeRequest_of_agrees 0x09 0xFF0000 (by decide) decodeRequest_sendcmd hrow, hfield, argCount_countArg hwf]
  case backlight l =>
    obtain ⟨hrow, hfield⟩ := header_backlight l
    rw [decodeRequest_of_agrees 0x0A 0x400 (by decide) decodeRequest_backlight hrow, hfield]
  case panelrst l =>
    obtain ⟨hrow, hfield⟩ := header_panelrst l
    rw [decodeRequest_of_agrees 0x0B 0x400 (by decide) decodeRequest_panelrst hrow, hfield]
  all_goals
    obtain ⟨_, hwords⟩ := hargs
    cases hwords
    simp only [Instr.wellFormed, Bool.and_eq_true] at hwf
  case armwin x0 y0 x1 y1 =>
    obtain ⟨⟨⟨hx0, hy0⟩, hx1⟩, hy1⟩ := hwf
    rw [decodeRequest_of_agrees 0x02 0 (by decide) decodeRequest_armwin (by decide), argLow_packPair hx0,
      argHigh_packPair hy0, argLow_packPair hx1, argHigh_packPair hy1]
  case wrsync n =>
    rw [decodeRequest_of_agrees 0x03 0 (by decide) decodeRequest_wrsync (by decide), argCount_countArg hwf]
  case wrasync n =>
    rw [decodeRequest_of_agrees 0x04 0 (by decide) decodeRequest_wrasync (by decide), argCount_countArg hwf]
  case fill n c =>
    rw [decodeRequest_of_agrees 0x05 0 (by decide) decodeRequest_fill (by decide), argCount_countArg hwf,
      argColor_colorArg]
  case pixel x y c =>
    obtain ⟨hx, hy⟩ := hwf
    rw [decodeRequest_of_agrees 0x06 0 (by decide) decodeRequest_pixel (by decide), argLow_packPair hx,
      argHigh_packPair hy, argColor_colorArg]
  case fillrect x y w h c =>
    obtain ⟨⟨⟨hx, hy⟩, hw⟩, hh⟩ := hwf
    rw [decodeRequest_of_agrees 0x07 0 (by decide) decodeRequest_fillrect (by decide), argLow_packPair hx,
      argHigh_packPair hy, argLow_packPair hw, argHigh_packPair hh, argColor_colorArg]
  case blit x y w h =>
    obtain ⟨⟨⟨hx, hy⟩, hw⟩, hh⟩ := hwf
    rw [decodeRequest_of_agrees 0x08 0 (by decide) decodeRequest_blit (by decide), argLow_packPair hx,
      argHigh_packPair hy, argLow_packPair hw, argHigh_packPair hh]

theorem decode_encode_request {i : Instr} (hreq : isRequest i = true) (hwf : i.wellFormed = true) :
    decode (encode i) = .ok i := by
  obtain ⟨cmd, b0, b1, b2, hencode, hargs⟩ := encode_request hreq
  rw [hencode]
  exact decodeRequest_encoded hwf hencode hargs

/-! ### A controller command from its bytes -/

/-- The payload check of `len` bytes passes exactly if every later byte is 0. -/
theorem shift_eq_zero_iff {w : BitVec 40} {len : Nat} : w >>> (8 * len) = 0 ↔ ∀ j, len ≤ j → ctlByte w j = 0 := by
  refine ⟨fun h j => ctlByte_of_shift h, fun h => BitVec.eq_of_getLsbD_eq fun i _ => ?_⟩
  have hbit := congrArg (fun b => b.getLsbD ((8 * len + i) % 8)) (h ((8 * len + i) / 8) (by omega))
  simp only [ctlByte_bit w _ _ (Nat.mod_lt _ (by decide)), Nat.div_add_mod] at hbit
  simpa using hbit

theorem ctlByte_beyond (w : BitVec 40) {j : Nat} (hj : 5 ≤ j) : ctlByte w j = 0 :=
  ctlByte_of_shift (len := 5) (BitVec.ushiftRight_eq_zero (by decide)) hj

/-- A command with no payload passes its check. -/
theorem ctlWord_shift_one (c : Byte) : ctlWord c 0 0 0 0 >>> (8 * 1) = 0 := by decide +revert

/-- A command with one payload byte passes its check. -/
theorem ctlWord_shift_two (c p : Byte) : ctlWord c p 0 0 0 >>> (8 * 2) = 0 := by
  refine shift_eq_zero_iff.mpr fun j hj => ?_
  match j with
  | 2 | 3 | 4 => simp
  | j + 5 => exact ctlByte_beyond _ (by omega)

/-- An encoded command has its byte and its payload, and no byte beyond them. -/
theorem decode_encode_controller {i : Instr} (hctl : isRequest i = false) (hwf : i.wellFormed = true) :
    decode (encode i) = .ok i := by
  cases i
  case ctlSwreset | ctlSlpout | ctlRamwr | ctlInvon | ctlDispon =>
    rw [encode, decode, decodeController, ctlByte_ctlWord_0]
    exact if_pos (ctlWord_shift_one _)
  case ctlPixfmt =>
    rw [encode, decode, decodeController, ctlByte_ctlWord_0, ctlByte_ctlWord_1]
    exact if_pos (ctlWord_shift_two _ _)
  case ctlOrient =>
    rw [encode, decode, decodeController, ctlByte_ctlWord_0, ctlByte_ctlWord_1]
    exact (if_pos hwf).trans (if_pos (ctlWord_shift_two _ _))
  case ctlCaset | ctlRaset =>
    rw [encode, decode, decodeController, ctlByte_ctlWord_0, ctlHalf, ctlHalf, ctlByte_ctlWord_1, ctlByte_ctlWord_2,
      ctlByte_ctlWord_3, ctlByte_ctlWord_4, hiByte_append_loByte, hiByte_append_loByte]
    exact if_pos (BitVec.ushiftRight_eq_zero (by decide))
  all_goals cases hctl

/-- Settles O1: a request comes back from its header's row and its argument words, a controller command from its
bytes. -/
theorem decodeOfEncodeIsTheInstruction : Obligations.DecodeOfEncodeIsTheInstruction := by
  intro i hwf
  cases hkind : isRequest i
  · exact decode_encode_controller hkind hwf
  · exact decode_encode_request hkind hwf

/-! ### The header and the bytes of what decodes -/

/-- Each field as the header bits it stands for. -/
theorem rotField_headerRot (cmd : Word) : rotField (headerRot cmd) = cmd &&& 0x300 := by
  refine BitVec.eq_of_getLsbD_eq fun i hi => ?_
  simp only [rotField, headerRot, BitVec.getLsbD_and, BitVec.getLsbD_shiftLeft, BitVec.getLsbD_setWidth,
    BitVec.getLsbD_extractLsb']
  interval_cases i <;> simp

theorem cbField_headerCb (cmd : Word) : cbField (headerCb cmd) = cmd &&& 0xFF0000 := by
  refine BitVec.eq_of_getLsbD_eq fun i hi => ?_
  simp only [cbField, headerCb, BitVec.getLsbD_and, BitVec.getLsbD_shiftLeft, BitVec.getLsbD_setWidth,
    BitVec.getLsbD_extractLsb']
  interval_cases i <;> simp

theorem lvlField_headerLvl (cmd : Word) : lvlField (headerLvl cmd) = cmd &&& 0x400 :=
  (BitVec.and_twoPow cmd 10).symm

/-- A header with no bit outside OP and the fields is what its OP and its field bits make. -/
theorem header_of_bits {cmd fields f : Word} {op : Byte} (hop : (headerOp cmd).toNat = op.toNat)
    (hbits : cmd &&& ~~~(fields ||| 0xFF) = 0) (hf : f = cmd &&& fields) : header op f = cmd := by
  obtain rfl := BitVec.eq_of_toNat_eq hop
  have hlow : (headerOp cmd).setWidth 32 = cmd &&& 0xFF := (and_low_byte_eq_iff.mpr rfl).symm
  calc header (headerOp cmd) f
      = cmd &&& (fields ||| 0xFF) := by rw [header, hlow, hf, ← BitVec.and_or_distrib_left, BitVec.or_comm]
    _ = cmd &&& (fields ||| 0xFF) ||| cmd &&& ~~~(fields ||| 0xFF) := by rw [hbits]; exact BitVec.or_zero.symm
    _ = cmd := by rw [← BitVec.and_or_distrib_left, BitVec.or_not_self, BitVec.and_allOnes]

/-- What a request decodes to is well formed, since each operand is read from its field, and has the header it came
from. -/
theorem encode_of_decodeRequest {cmd a0 a1 a2 : Word} {i : Instr} (h : decodeRequest cmd a0 a1 a2 = .ok i) :
    i.wellFormed = true ∧ ∃ b0 b1 b2, encode i = .request cmd b0 b1 b2 := by
  have hencode : ∀ {op f b0 b1 b2}, header op f = cmd → ∃ c0 c1 c2,
      Encoded.request (header op f) b0 b1 b2 = .request cmd c0 c1 c2 := by
    rintro _ _ b0 b1 b2 rfl
    exact ⟨b0, b1, b2, rfl⟩
  unfold decodeRequest at h
  split at h
  case h_12 => cases h
  all_goals
    rename_i hop
    obtain ⟨hbits, rfl⟩ := checkHeader_ok.mp h
  case h_1 => exact ⟨rfl, hencode (header_of_bits hop hbits (rotField_headerRot cmd))⟩
  case h_9 => exact ⟨fitsCount_argCount a1, hencode (header_of_bits hop hbits (cbField_headerCb cmd))⟩
  case h_10 | h_11 => exact ⟨rfl, hencode (header_of_bits hop hbits (lvlField_headerLvl cmd))⟩
  all_goals refine ⟨?_, hencode (header_of_bits hop hbits BitVec.and_zero.symm)⟩
  case h_3 | h_4 => exact fitsCount_argCount a1
  case h_5 => exact fitsCount_argCount a0
  all_goals simp only [Instr.wellFormed, fitsCoord_argLow, fitsCoord_argHigh, Bool.and_self]

/-- The bytes of a controller word whose payload check passes: the bytes beyond the payload are 0. -/
theorem ctlWord_of_payload_none {w : BitVec 40} {c : Byte} (hop : (ctlByte w 0).toNat = c.toNat)
    (h : w >>> (8 * 1) = 0) : ctlWord c 0 0 0 0 = w := by
  have hbyte := fun j (hj : 1 ≤ j) => ctlByte_of_shift h hj
  rw [← BitVec.eq_of_toNat_eq hop]
  simpa only [hbyte 1 (by decide), hbyte 2 (by decide), hbyte 3 (by decide), hbyte 4 (by decide)]
    using ctlWord_ctlBytes w

theorem ctlWord_of_payload_one {w : BitVec 40} {c : Byte} (hop : (ctlByte w 0).toNat = c.toNat)
    (h : w >>> (8 * 2) = 0) : ctlWord c (ctlByte w 1) 0 0 0 = w := by
  have hbyte := fun j (hj : 2 ≤ j) => ctlByte_of_shift h hj
  rw [← BitVec.eq_of_toNat_eq hop]
  simpa only [hbyte 2 (by decide), hbyte 3 (by decide), hbyte 4 (by decide)] using ctlWord_ctlBytes w

theorem ctlWord_of_range {w : BitVec 40} {c : Byte} (hop : (ctlByte w 0).toNat = c.toNat) :
    ctlWord c (hiByte (ctlHalf w 1)) (loByte (ctlHalf w 1)) (hiByte (ctlHalf w 3)) (loByte (ctlHalf w 3)) = w := by
  rw [← BitVec.eq_of_toNat_eq hop]
  simpa only [ctlHalf, hiByte_append, loByte_append] using ctlWord_ctlBytes w

theorem checkPayload_ok {w : BitVec 40} {len : Nat} {i j : Instr} :
    checkPayload w len i = .ok j ↔ w >>> (8 * len) = 0 ∧ i = j := by
  unfold checkPayload
  split <;> simp_all

/-- What a controller word decodes to is well formed and has the bytes it came from. -/
theorem encode_of_decodeController {w : BitVec 40} {i : Instr} (h : decodeController w = .ok i) :
    i.wellFormed = true ∧ encode i = .controller w := by
  unfold decodeController at h
  split at h
  case h_10 => cases h
  all_goals rename_i hop
  case h_4 =>
    split at h
    case isFalse => cases h
    case isTrue hcode =>
      obtain ⟨hshift, rfl⟩ := checkPayload_ok.mp h
      exact ⟨hcode, congrArg _ (ctlWord_of_payload_one hop hshift)⟩
  all_goals obtain ⟨hshift, rfl⟩ := checkPayload_ok.mp h
  case h_3 => exact ⟨rfl, congrArg _ (ctlWord_of_payload_one hop hshift)⟩
  case h_5 | h_6 => exact ⟨rfl, congrArg _ (ctlWord_of_range hop)⟩
  all_goals exact ⟨rfl, congrArg _ (ctlWord_of_payload_none hop hshift)⟩

/-- Settles O2: the header of a request and the bytes of a controller word determine each other. -/
theorem encodeOfDecodedKeepsTheHeader : Obligations.EncodeOfDecodedKeepsTheHeader := by
  intro w i h
  cases w with
  | request cmd a0 a1 a2 =>
    obtain ⟨hwf, b0, b1, b2, hencode⟩ := encode_of_decodeRequest h
    exact ⟨hwf, by rw [hencode]⟩
  | controller v =>
    obtain ⟨hwf, hencode⟩ := encode_of_decodeController h
    exact ⟨hwf, by rw [hencode]⟩

/-- Settles O5: each word is decoded by evaluation. -/
theorem writtenOutWordsDecode : Obligations.WrittenOutWordsDecode := by
  refine ⟨?_, ?_, ?_, ?_, ?_, ?_, ?_, ?_⟩ <;> decide

/-! ### rgb -/

/-- A join of two words as a number. -/
theorem toNat_append_add {m n : Nat} (x : BitVec m) (y : BitVec n) : (x ++ y).toNat = x.toNat * 2 ^ n + y.toNat := by
  rw [BitVec.toNat_append, ← Nat.shiftLeft_add_eq_or_of_lt y.isLt, Nat.shiftLeft_eq]

/-- The high bits of a channel as a quotient. -/
theorem toNat_extractLsb'_of_high (b : Byte) {start len : Nat} (h : start + len = 8) :
    (b.extractLsb' start len).toNat = b.toNat / 2 ^ start := by
  rw [BitVec.extractLsb'_toNat, Nat.shiftRight_eq_div_pow]
  refine Nat.mod_eq_of_lt (Nat.div_lt_of_lt_mul ?_)
  rw [← Nat.pow_add, h]
  exact b.isLt

/-- Settles O41: each channel keeps its high bits as a quotient, and the three fields lie side by side. -/
theorem packKeepsTheHighBits : Obligations.PackKeepsTheHighBits := by
  intro r g b
  rw [pack, toNat_append_add, toNat_append_add, toNat_extractLsb'_of_high r rfl, toNat_extractLsb'_of_high g rfl,
    toNat_extractLsb'_of_high b rfl]
  omega

end Sys2Proof.Machine
end

section
/-! PROOFS. The rules over all instructions (10_state.md, 40_host_port.md R107, 60_exceptions.md R198, R212, R215): what
each may write, how its EXEC step ends, and which byte that is not admitted leaves it stuck. Each is a case split over
`ExecEffect`. -/

namespace Sys2Proof.Machine

section
variable {i : Instr} {s t : State}

/-! ### Frames -/

/-- The fields that some instruction writes; every other field is as it was. -/
theorem exec_frame (h : exec i s = .next t) : t = { s with
    rot := t.rot, effW := t.effW, effH := t.effH
    winX0 := t.winX0, winY0 := t.winY0, winX1 := t.winX1, winY1 := t.winY1, winArmed := t.winArmed
    totalPx := t.totalPx, donePx := t.donePx, src := t.src, prefilled := t.prefilled
    respValid := t.respValid, respCode := t.respCode
    backlight := t.backlight, resetLine := t.resetLine, seq := t.seq, trace := t.trace } := by
  cases exec_effect h <;> rfl

/-- Only SETROT writes the rotation and the effective dimensions (R127). -/
theorem exec_rotation (h : exec i s = .next t) (hi : ∀ r, i ≠ .setrot r) :
    t.rot = s.rot ∧ t.effW = s.effW ∧ t.effH = s.effH := by
  cases exec_effect h
  case setrotArmed r _ | setrotSame r _ => exact absurd rfl (hi r)
  all_goals exact ⟨rfl, rfl, rfl⟩

/-- Only the arming instructions write the window registers (R121). -/
theorem exec_window (h : exec i s = .next t) (hsetrot : ∀ r, i ≠ .setrot r)
    (harmwin : ∀ x0 y0 x1 y1, i ≠ .armwin x0 y0 x1 y1) (hpixel : ∀ x y c, i ≠ .pixel x y c)
    (hfillrect : ∀ x y w h c, i ≠ .fillrect x y w h c) (hblit : ∀ x y w h a, i ≠ .blit x y w h a) :
    t.winX0 = s.winX0 ∧ t.winY0 = s.winY0 ∧ t.winX1 = s.winX1 ∧ t.winY1 = s.winY1 := by
  cases exec_effect h
  case setrotArmed | setrotSame => exact absurd rfl (hsetrot _)
  case armwin => exact absurd rfl (harmwin _ _ _ _)
  case pixel => exact absurd rfl (hpixel _ _ _)
  case fillrectSetup | fillrectSync => exact absurd rfl (hfillrect _ _ _ _ _)
  case blitSetup | blitSync => exact absurd rfl (hblit _ _ _ _ _)
  all_goals exact ⟨rfl, rfl, rfl, rfl⟩

/-- Only BACKLIGHT drives the backlight pin (R186). -/
theorem exec_backlightPin (h : exec i s = .next t) (hi : ∀ l, i ≠ .backlight l) : t.backlight = s.backlight := by
  cases exec_effect h
  case backlight => exact absurd rfl (hi _)
  all_goals rfl

/-- Only PANELRST drives the reset line (R187). -/
theorem exec_resetLine (h : exec i s = .next t) (hi : ∀ l, i ≠ .panelrst l) : t.resetLine = s.resetLine := by
  cases exec_effect h
  case panelrst => exact absurd rfl (hi _)
  all_goals rfl

/-- Only the pixel streams write the stream context (R141). -/
theorem exec_streamContext (h : exec i s = .next t) (hwrasync : ∀ a n, i ≠ .wrasync a n)
    (hfill : ∀ n c, i ≠ .fill n c) (hfillrect : ∀ x y w h c, i ≠ .fillrect x y w h c)
    (hblit : ∀ x y w h a, i ≠ .blit x y w h a) :
    t.totalPx = s.totalPx ∧ t.donePx = s.donePx ∧ t.src = s.src ∧ t.prefilled = s.prefilled := by
  cases exec_effect h
  case wrasyncSetup => exact absurd rfl (hwrasync _ _)
  case fillSetup => exact absurd rfl (hfill _ _)
  case fillrectSetup => exact absurd rfl (hfillrect _ _ _ _ _)
  case blitSetup => exact absurd rfl (hblit _ _ _ _ _)
  all_goals exact ⟨rfl, rfl, rfl, rfl⟩

/-- A controller command changes the trace alone (log 14). -/
theorem exec_controller (h : exec i s = .next t) (hi : isRequest i = false) : t = { s with trace := t.trace } := by
  cases exec_effect h
  case controller => rfl
  all_goals cases hi

/-! ### How the EXEC step of a request ends -/

/-- A request is stuck only on a host byte that it reads and that is not admitted (R215, log 8). -/
inductive Stuck (s : State) : Instr → Prop
  | wrsync (a : Word) (n : Nat) (harmed : s.winArmed = true) (hread : hostBytes s a n = none) : Stuck s (.wrsync a n)
  | wrasync (a : Word) (n : Nat) (harmed : s.winArmed = true) (hsync : s.asyncAvail = false)
      (hread : sourcePixels s (.buf a) 0 n = none) : Stuck s (.wrasync a n)
  | blit (x y w h : Int) (a : Word) (r : Clip) (hclip : clip s.effW s.effH x y w h = some r)
      (hsync : s.asyncAvail = false)
      (hread : sourcePixels s (.blit a w.toNat r.sx r.sy r.cw) 0 (r.cw * r.ch) = none) : Stuck s (.blit x y w h a)
  | sendcmd (cb : Byte) (a : Word) (n : Nat) (hother : mapperOwned cb = false) (hread : hostBytes s a n = none) :
      Stuck s (.sendcmd cb a n)

/-- The five ways the EXEC step of a request ends: OK, REJECTED, STAGE, or stuck (R107, R140, R155, R183, R215). -/
inductive RequestEnd (s : State) (i : Instr) (t : State) : Prop
  | ok (hseq : t.seq = .idle) (hvalid : t.respValid = true) (hcode : t.respCode = .ok)
  | noWindow (ht : t = respond .rejected s) (hunarmed : s.winArmed = false)
      (hi : (∃ a n, i = .wrsync a n) ∨ (∃ a n, i = .wrasync a n) ∨ (∃ n c, i = .fill n c))
  | mapperByte (ht : t = respond .rejected s) (hi : ∃ cb a n, i = .sendcmd cb a n ∧ mapperOwned cb = true)
  | stage (hseq : t.seq = .stage) (hasync : s.asyncAvail = true) (hvalid : t.respValid = s.respValid)
      (hcode : t.respCode = s.respCode) (harmed : t.winArmed = true)
  | stuck (ht : t = s) (hread : Stuck s i)

theorem exec_requestEnd (hi : isRequest i = true) (h : exec i s = .next t) : RequestEnd s i t := by
  cases exec_effect h
  case wrsyncRejected a n hw => exact .noWindow rfl hw (.inl ⟨a, n, rfl⟩)
  case wrasyncRejected a n hw => exact .noWindow rfl hw (.inr (.inl ⟨a, n, rfl⟩))
  case fillRejected n c hw => exact .noWindow rfl hw (.inr (.inr ⟨n, c, rfl⟩))
  case sendcmdRejected cb a n hcb => exact .mapperByte rfl ⟨cb, a, n, rfl, hcb⟩
  case wrasyncSetup hw ha _ | fillSetup hw ha _ => exact .stage rfl ha rfl rfl hw
  case fillrectSetup ha | blitSetup ha => exact .stage rfl ha rfl rfl rfl
  case wrsyncStuck a n hw hb => exact .stuck rfl (.wrsync a n hw hb)
  case wrasyncStuck a n hw ha hp => exact .stuck rfl (.wrasync a n hw ha hp)
  case blitStuck hr ha hp => exact .stuck rfl (.blit _ _ _ _ _ _ hr ha hp)
  case sendcmdStuck cb a n hcb hb => exact .stuck rfl (.sendcmd cb a n hcb hb)
  case controller hctl => rw [hi] at hctl; cases hctl
  all_goals exact .ok rfl rfl rfl

end

/-! ### The statements on frames and ends -/

/-- Settles O27: none of these fields is among those that `exec_frame` names. -/
theorem instructionFrame : Obligations.InstructionFrame := by
  intro i s t h
  rw [exec_frame h]
  exact ⟨fun _ => rfl, fun _ => rfl, rfl, rfl, rfl, rfl, rfl, rfl, rfl, rfl, rfl, rfl, rfl, rfl, rfl, rfl, rfl, rfl,
    rfl, rfl, rfl, rfl, rfl, rfl, rfl, rfl, rfl, rfl, rfl, rfl⟩

/-- Settles O28: a lemma per group of fields. -/
theorem onlyTheNamedInstructionsWrite : Obligations.OnlyTheNamedInstructionsWrite := by
  intro i s t h
  refine ⟨exec_rotation h, exec_window h, exec_backlightPin h, exec_resetLine h, exec_streamContext h, ?_, ?_⟩
  · rintro (⟨l, rfl⟩ | hctl)
    · rw [exec_backlight] at h
      cases h
      rfl
    · rw [exec_controller h hctl]
  · intro hctl
    rw [exec_controller h hctl]
    exact ⟨rfl, rfl, rfl⟩

/-- Settles O29: the ends of `exec_requestEnd`, the reader named by what it is stuck on. -/
theorem requestRespondsOrStages : Obligations.RequestRespondsOrStages := by
  intro i s t hi h
  cases exec_requestEnd hi h with
  | ok hseq hvalid hcode => exact .inl ⟨hseq, hvalid, .inl hcode⟩
  | noWindow ht _ _ | mapperByte ht _ => rw [ht]; exact .inl ⟨rfl, rfl, .inr rfl⟩
  | stage hseq hasync hvalid hcode harmed => exact .inr (.inl ⟨hseq, hasync, hvalid, hcode, harmed⟩)
  | stuck ht hread =>
    refine .inr (.inr ⟨ht, ?_⟩)
    cases hread with
    | wrsync a n => exact .inl ⟨a, n, rfl⟩
    | wrasync a n => exact .inr (.inl ⟨a, n, rfl⟩)
    | blit => exact .inr (.inr (.inl ⟨_, _, _, _, _, rfl⟩))
    | sendcmd cb a n => exact .inr (.inr (.inr ⟨cb, a, n, rfl⟩))

/-- Settles O30: of the ends of `exec_requestEnd` only the two rejections are in IDLE with that code, since a stuck
request is still in EXEC. -/
theorem rejectionHasItsCauseAndNoEffect : Obligations.RejectionHasItsCauseAndNoEffect := by
  intro i s t hi hexec h hidle hrejected
  cases exec_requestEnd hi h with
  | ok hseq hvalid hcode => cases hcode.symm.trans hrejected
  | noWindow ht hunarmed hi => exact ⟨ht, .inl ⟨hunarmed, hi⟩⟩
  | mapperByte ht hi =>
    obtain ⟨cb, a, n, rfl, hcb⟩ := hi
    exact ⟨ht, .inr ⟨cb, a, n, rfl, mapperOwned_iff.mp hcb⟩⟩
  | stage hseq => cases hseq.symm.trans hidle
  | stuck ht => rw [ht, hexec] at hidle; cases hidle

/-! ### Reads that are not admitted -/

theorem collect_eq_none {α : Type} {f : Nat → Option α} {start n : Nat} :
    collect f start n = none ↔ ∃ j < n, f (start + j) = none := by
  induction n generalizing start with
  | zero => simp [collect]
  | succ n ih =>
    have hsplit : collect f start (n + 1) = none ↔ f start = none ∨ collect f (start + 1) n = none := by
      rw [collect]
      cases f start <;> cases collect f (start + 1) n <;> simp
    rw [hsplit, ih, Nat.exists_lt_succ_left]
    simp only [Nat.add_zero, Nat.add_assoc, Nat.add_comm 1]

section
variable {s : State}

theorem hostByte_eq_none {k : Nat} : hostByte s k = none ↔ Memory.read s.mem (k % 2 ^ 32) = none := by
  rw [hostByte, Option.map_eq_none_iff]

/-- A pixel is not admitted exactly if one of its two bytes is not (R56). -/
theorem hostPixel_eq_none {k : Nat} : hostPixel s k = none ↔ ∃ b < 2, hostByte s (k + b) = none := by
  have heither : hostPixel s k = none ↔ hostByte s k = none ∨ hostByte s (k + 1) = none := by
    rw [hostPixel]
    cases hostByte s k <;> cases hostByte s (k + 1) <;> simp
  rw [heither, Nat.exists_lt_succ_left, Nat.exists_lt_succ_left]
  simp

theorem hostBytes_eq_none {a : Word} {n : Nat} :
    hostBytes s a n = none ↔ ∃ j < n, Memory.read s.mem ((a.toNat + j) % 2 ^ 32) = none := by
  simp only [hostBytes, collect_eq_none, hostByte_eq_none, Nat.zero_add]

theorem sourcePixels_eq_none {p : PixelSource} {n : Nat} :
    sourcePixels s p 0 n = none ↔ ∃ j < n, sourcePixel s p j = none := by
  simp only [sourcePixels, collect_eq_none, Nat.zero_add]

/-- A run of pixels is not admitted exactly if one of its bytes is not (R134). -/
theorem sourcePixels_buf_eq_none {a : Word} {n : Nat} :
    sourcePixels s (.buf a) 0 n = none ↔ ∃ j < 2 * n, Memory.read s.mem ((a.toNat + j) % 2 ^ 32) = none := by
  simp only [sourcePixels_eq_none, sourcePixel, hostPixel_eq_none, hostByte_eq_none, Nat.add_assoc]
  constructor
  · rintro ⟨k, hk, b, hb, hread⟩
    exact ⟨2 * k + b, by omega, hread⟩
  · rintro ⟨j, hj, hread⟩
    exact ⟨j / 2, by omega, j % 2, Nat.mod_lt _ (by decide), by rwa [Nat.div_add_mod]⟩

/-- A byte of the source array of a BLIT lies in the clipped image exactly if it is one of the two bytes of a pixel of
the stream (R178, R179). -/
theorem blitReads_iff {w : Nat} {r : Clip} (hcw : 0 < r.cw) (hw : r.sx + r.cw ≤ w) {off : Nat} :
    blitReads w r off = true ↔
      ∃ k < r.cw * r.ch, off / 2 = (r.sy + k / r.cw) * w + r.sx + k % r.cw := by
  simp only [blitReads, Bool.and_eq_true, decide_eq_true_eq]
  constructor
  · rintro ⟨⟨⟨hcol0, hcol1⟩, hrow0⟩, hrow1⟩
    have hk : off / 2 % w - r.sx < r.cw := by omega
    refine ⟨r.cw * (off / 2 / w - r.sy) + (off / 2 % w - r.sx), ?_, ?_⟩
    · calc _ < r.cw * (off / 2 / w - r.sy) + r.cw := by omega
        _ = r.cw * (off / 2 / w - r.sy + 1) := by rw [Nat.mul_add_one]
        _ ≤ r.cw * r.ch := Nat.mul_le_mul_left _ (by omega)
    · rw [Nat.mul_add_div hcw, Nat.mul_add_mod, Nat.div_eq_of_lt hk, Nat.mod_eq_of_lt hk, Nat.add_zero,
        Nat.add_sub_cancel' hrow0, Nat.add_assoc, Nat.add_sub_cancel' hcol0, Nat.div_add_mod']
  · rintro ⟨k, hk, hoff⟩
    have hcol : r.sx + k % r.cw < w := by have := Nat.mod_lt k hcw; omega
    have hrow : k / r.cw < r.ch := Nat.div_lt_of_lt_mul hk
    have hdiv : off / 2 / w = r.sy + k / r.cw := by
      rw [hoff, Nat.add_assoc, Nat.mul_comm, Nat.mul_add_div (by omega), Nat.div_eq_of_lt hcol, Nat.add_zero]
    have hmod : off / 2 % w = r.sx + k % r.cw := by rw [hoff, Nat.add_assoc, Nat.mul_add_mod_of_lt hcol]
    rw [hmod, hdiv]
    exact ⟨⟨⟨Nat.le_add_right .., Nat.add_lt_add_left (Nat.mod_lt k hcw) _⟩, Nat.le_add_right ..⟩,
      Nat.add_lt_add_left hrow _⟩

/-- The visible part of an image is not admitted exactly if one of its bytes is not (R134, R177). -/
theorem sourcePixels_blit_eq_none {a : Word} {w : Nat} {r : Clip} (hcw : 0 < r.cw) (hw : r.sx + r.cw ≤ w) :
    sourcePixels s (.blit a w r.sx r.sy r.cw) 0 (r.cw * r.ch) = none ↔
      ∃ off, blitReads w r off = true ∧ Memory.read s.mem ((a.toNat + off) % 2 ^ 32) = none := by
  simp only [sourcePixels_eq_none, sourcePixel, hostPixel_eq_none, hostByte_eq_none, blitAddr, Nat.add_assoc a.toNat]
  constructor
  · rintro ⟨k, hk, b, hb, hread⟩
    exact ⟨_, (blitReads_iff hcw hw).mpr ⟨k, hk, by omega⟩, hread⟩
  · rintro ⟨off, hoff, hread⟩
    obtain ⟨k, hk, hplace⟩ := (blitReads_iff hcw hw).mp hoff
    exact ⟨k, hk, off % 2, Nat.mod_lt _ (by decide), by rwa [← hplace, Nat.div_add_mod]⟩

end

/-- The address at an offset from a source is the source plus the offset, mod 2^32. -/
theorem address_of_offset (a src : Word) : (src.toNat + (a - src).toNat) % 2 ^ 32 = a.toNat := by bv_omega

theorem offset_of_address (src : Word) (j : Nat) : (BitVec.ofNat 32 (src.toNat + j) - src).toNat = j % 2 ^ 32 := by
  bv_omega

/-- A byte of a run of `n` bytes is not admitted, said by offset and by address. -/
theorem exists_offset_iff {m : Memory} {src : Word} {n : Nat} :
    (∃ j < n, Memory.read m ((src.toNat + j) % 2 ^ 32) = none) ↔
      ∃ a : Word, (a - src).toNat < n ∧ Memory.read m a.toNat = none := by
  constructor
  · rintro ⟨j, hj, hread⟩
    refine ⟨BitVec.ofNat 32 (src.toNat + j), ?_, by rwa [BitVec.toNat_ofNat]⟩
    rw [offset_of_address]
    exact (Nat.mod_le _ _).trans_lt hj
  · rintro ⟨a, ha, hread⟩
    exact ⟨_, ha, by rwa [address_of_offset]⟩

section
variable {i : Instr} {s : State}

/-- Every instruction has a next state. -/
theorem exec_total (i : Instr) (s : State) : ∃ t, exec i s = .next t := by
  cases i
  case setrot => rw [exec_setrot]; split <;> exact ⟨_, rfl⟩
  case wrsync => simp only [exec, execWrsync]; split <;> exact ⟨_, rfl⟩
  case wrasync => simp only [exec, execWrasync]; split <;> exact ⟨_, rfl⟩
  case fill => simp only [exec, execFill]; split <;> exact ⟨_, rfl⟩
  case pixel => rw [exec_pixel]; split <;> exact ⟨_, rfl⟩
  case fillrect => simp only [exec, execFillrect]; split <;> exact ⟨_, rfl⟩
  case blit => simp only [exec, execBlit]; split <;> exact ⟨_, rfl⟩
  case sendcmd => simp only [exec, execSendcmd]; split <;> exact ⟨_, rfl⟩
  all_goals exact ⟨_, rfl⟩

/-- STREAM on the sync path is stuck if one of its pixels is not admitted (R57, R135). -/
theorem stream_of_none {n : Nat} {p : PixelSource} {s : State} (hsync : s.asyncAvail = false)
    (hread : sourcePixels s p 0 n = none) : stream n p s = none := by
  have hn : n ≠ 0 := by rintro rfl; cases hread
  simp only [stream, hn, hsync, syncStream, hread, if_false, Bool.false_eq_true, Option.map_none]

/-- A stuck request changes nothing (R215, log 8). -/
theorem exec_of_stuck (h : Stuck s i) : exec i s = .next s := by
  cases h with
  | wrsync a n harmed hread => rw [exec, execWrsync, if_pos harmed, syncBytes, hread]; rfl
  | wrasync a n harmed hsync hread => rw [exec, execWrasync, if_pos harmed, stream_of_none hsync hread]; rfl
  | blit x y w h a r hclip hsync hread =>
    have hstream : streamClip r (.blit a w.toNat r.sx r.sy r.cw) s = none :=
      stream_of_none (s := arm r.cx0 r.cy0 r.cx1 r.cy1 s) hsync hread
    simp only [exec, execBlit, hclip, hstream, orStuck_none]
  | sendcmd cb a n hother hread =>
    have hbytes : syncBytes a n (emitCmd cb s) = none := Option.map_eq_none_iff.mpr hread
    rw [exec, execSendcmd, if_neg (ne_true_of_eq_false hother), hbytes]
    rfl

/-- What a well-formed request is stuck on is a byte that it reads. -/
theorem readsByte_of_stuck (hwf : i.wellFormed = true) (h : Stuck s i) :
    ∃ a : Word, readsByte s.effW s.effH a i = true ∧ Memory.read s.mem a.toNat = none := by
  cases h with
  | wrsync src n _ hread =>
    obtain ⟨a, ha, hnone⟩ := exists_offset_iff.mp (hostBytes_eq_none.mp hread)
    exact ⟨a, decide_eq_true ha, hnone⟩
  | wrasync src n _ _ hread =>
    obtain ⟨a, ha, hnone⟩ := exists_offset_iff.mp (sourcePixels_buf_eq_none.mp hread)
    exact ⟨a, decide_eq_true ha, hnone⟩
  | sendcmd cb src n hother hread =>
    obtain ⟨a, ha, hnone⟩ := exists_offset_iff.mp (hostBytes_eq_none.mp hread)
    exact ⟨a, by rw [readsByte, hother, decide_eq_true ha]; rfl, hnone⟩
  | blit x y w h src r hclip _ hread =>
    obtain ⟨hcw, -, -, -, hw, hh⟩ := clip_extent hclip
    obtain ⟨off, hoff, hnone⟩ := (sourcePixels_blit_eq_none hcw hw).mp hread
    have hlt : off < 2 ^ 32 := by
      simp only [Instr.wellFormed, fitsCoord, Bool.and_eq_true, decide_eq_true_eq] at hwf
      simp only [blitReads, Bool.and_eq_true, decide_eq_true_eq] at hoff
      have hhalf : off / 2 < h.toNat * w.toNat := (Nat.div_lt_iff_lt_mul (by omega)).mp (by omega)
      have hsize : h.toNat * w.toNat ≤ 32767 * 32767 := Nat.mul_le_mul (by omega) (by omega)
      omega
    refine ⟨BitVec.ofNat 32 (src.toNat + off), ?_, by rwa [BitVec.toNat_ofNat]⟩
    simpa only [readsByte, hclip, offset_of_address, Nat.mod_eq_of_lt hlt] using hoff

/-- A request that gets as far as reading a byte that is not admitted is stuck on it. -/
theorem stuck_of_readsByte {a : Word} (hreads : readsByte s.effW s.effH a i = true)
    (hnone : Memory.read s.mem a.toNat = none)
    (hgets : (∃ src n, i = .wrsync src n) ∧ s.winArmed = true ∨
      (∃ src n, i = .wrasync src n) ∧ s.winArmed = true ∧ s.asyncAvail = false ∨
      (∃ x y w h src, i = .blit x y w h src) ∧ s.asyncAvail = false ∨ (∃ cb src n, i = .sendcmd cb src n)) :
    Stuck s i := by
  obtain ⟨⟨src, n, rfl⟩, harmed⟩ | ⟨⟨src, n, rfl⟩, harmed, hsync⟩ | ⟨⟨x, y, w, h, src, rfl⟩, hsync⟩ |
    ⟨cb, src, n, rfl⟩ := hgets
  · exact .wrsync _ _ harmed (hostBytes_eq_none.mpr (exists_offset_iff.mpr ⟨a, of_decide_eq_true hreads, hnone⟩))
  · exact .wrasync _ _ harmed hsync
      (sourcePixels_buf_eq_none.mpr (exists_offset_iff.mpr ⟨a, of_decide_eq_true hreads, hnone⟩))
  · rw [readsByte] at hreads
    split at hreads
    · cases hreads
    · rename_i r hclip
      obtain ⟨hcw, -, -, -, hw, -⟩ := clip_extent hclip
      exact .blit _ _ _ _ _ r hclip hsync
        ((sourcePixels_blit_eq_none hcw hw).mpr ⟨_, hreads, by rwa [address_of_offset]⟩)
  · simp only [readsByte, Bool.and_eq_true, Bool.not_eq_true', decide_eq_true_eq] at hreads
    exact .sendcmd _ _ _ hreads.1 (hostBytes_eq_none.mpr (exists_offset_iff.mpr ⟨a, hreads.2, hnone⟩))

end

/-- Settles O32: a request stuck on a byte reads it, and one that reads an unadmitted byte is stuck on it. -/
theorem admittedBytesDecideCompletion : Obligations.AdmittedBytesDecideCompletion := by
  refine ⟨exec_total, fun i s t hi hwf hadmitted h => ?_, fun i s a hreads hnone hgets =>
    exec_of_stuck (stuck_of_readsByte hreads hnone hgets)⟩
  cases exec_requestEnd hi h with
  | ok hseq hvalid _ => exact .inl ⟨hseq, hvalid⟩
  | noWindow ht _ _ | mapperByte ht _ => rw [ht]; exact .inl ⟨rfl, rfl⟩
  | stage hseq => exact .inr hseq
  | stuck _ hread =>
    obtain ⟨a, hreads, hnone⟩ := readsByte_of_stuck hwf hread
    obtain ⟨b, hb⟩ := hadmitted a hreads
    cases hnone.symm.trans hb

/-- Settles O31: everything each of the three can do; SENDCMD is stuck only on a payload byte. -/
theorem panelControlLeavesTheScheduler : Obligations.PanelControlLeavesTheScheduler := by
  intro i s t hi h
  obtain ⟨cb, a, n, rfl⟩ | ⟨l, rfl⟩ | ⟨l, rfl⟩ := hi
  · obtain ⟨-, rfl⟩ | ⟨-, bs, -, rfl⟩ | ⟨-, hread, rfl⟩ := exec_sendcmd_next h
    · exact ⟨rfl, rfl, rfl, rfl, rfl, rfl, rfl, .inl ⟨rfl, rfl, nofun⟩⟩
    · exact ⟨rfl, rfl, rfl, rfl, rfl, rfl, rfl, .inl ⟨rfl, rfl, nofun⟩⟩
    · exact ⟨rfl, rfl, rfl, rfl, rfl, rfl, rfl, .inr ⟨rfl, cb, a, n, rfl, hostBytes_eq_none.mp hread⟩⟩
  · rw [exec_backlight] at h
    cases h
    exact ⟨rfl, rfl, rfl, rfl, rfl, rfl, rfl, .inl ⟨rfl, rfl, nofun⟩⟩
  · rw [exec_panelrst] at h
    cases h
    exact ⟨rfl, rfl, rfl, rfl, rfl, rfl, rfl, .inl ⟨rfl, rfl, nofun⟩⟩

end Sys2Proof.Machine
end

section
/-! PROOFS. The invariant of the block (10_state.md, 20_memory.md R64, 41_addressing.md R124, 42_transfer.md R142, R163)
holds at reset, and every operation of every agent keeps it. -/

namespace Sys2Proof.Machine

variable {s : State}

/-! ### Reading the invariant -/

theorem LifeCycle.of_exec (h : LifeCycle s) (hseq : s.seq = .exec) :
    ChannelQuiet s ∧ s.job = .idle ∧ s.respValid = false := by
  simpa only [LifeCycle, hseq] using h

theorem LifeCycle.of_stage (h : LifeCycle s) (hseq : s.seq = .stage) :
    ChannelQuiet s ∧ s.job = .idle ∧ StreamLive s := by
  simpa only [LifeCycle, hseq] using h

theorem LifeCycle.of_start (h : LifeCycle s) (hseq : s.seq = .start) :
    ChannelQuiet s ∧ s.job = .staging ∧ StreamLive s ∧ ChunkSized s := by
  simpa only [LifeCycle, hseq] using h

theorem LifeCycle.of_wait (h : LifeCycle s) (hseq : s.seq = .wait) :
    ChunkInFlight s ∧ s.job = .active ∧ StreamLive s ∧ ChunkSized s := by
  simpa only [LifeCycle, hseq] using h

theorem LifeCycle.of_idle (h : LifeCycle s) (hseq : s.seq = .idle) :
    ChannelQuiet s ∧ (s.job = .idle ∨ (s.respValid = true ∧ (s.job = .complete ∨ s.job = .timedOut))) := by
  simpa only [LifeCycle, hseq] using h

/-- The channel moves only while the Sequencer waits for it. -/
theorem LifeCycle.quiet (h : LifeCycle s) (hseq : s.seq ≠ .wait) : ChannelQuiet s := by
  cases hs : s.seq with
  | idle => exact (h.of_idle hs).1
  | exec => exact (h.of_exec hs).1
  | stage => exact (h.of_stage hs).1
  | start => exact (h.of_start hs).1
  | wait => exact absurd hs hseq

/-- A posted response means that no request executes. -/
theorem LifeCycle.idle_of_respValid (h : LifeCycle s) (hvalid : s.respValid = true) : s.seq = .idle := by
  cases hs : s.seq with
  | idle => rfl
  | exec => cases hvalid.symm.trans (h.of_exec hs).2.2
  | stage => cases hvalid.symm.trans (h.of_stage hs).2.2.2.1
  | start => cases hvalid.symm.trans (h.of_start hs).2.2.1.2.1
  | wait => cases hvalid.symm.trans (h.of_wait hs).2.2.1.2.1

/-- Outside a chunk the trace stands between transactions. -/
theorem tracePhase_of_inactive (h : s.dmaActive = false) : tracePhase s = .between := by
  rw [tracePhase, h]; rfl

theorem WtbInv.trace_between (h : WtbInv s) (hquiet : s.dmaActive = false) :
    runPhase .between s.trace = some .between := h.framed.trans (congrArg some (tracePhase_of_inactive hquiet))

/-- The effective dimensions are between 1 and 32767 (R6, R117). -/
theorem WtbInv.dims_range (h : WtbInv s) :
    (1 ≤ s.effW.toNat ∧ s.effW.toNat ≤ 32767) ∧ (1 ≤ s.effH.toNat ∧ s.effH.toNat ≤ 32767) := by
  have hrange := effDims_range h.legal s.rot
  rwa [← h.dims] at hrange

/-! ### Reset -/

theorem inv_resetWith {c : Config} (d : ResetDraws) (hlegal : configLegal c = true) : WtbInv (State.resetWith c d) where
  legal := hlegal
  dims := rfl
  stores := storesCanonical_resetWith c d
  window := nofun
  life := ⟨⟨rfl, rfl⟩, .inl rfl⟩
  framed := rfl
  capacity hasync := by
    obtain ⟨-, -, hcap⟩ := (resetWith_asyncAvail_iff d).mp hasync
    exact hcap.trans_eq (chunkMaxOf_toNat c).symm
  bound := by show (1000 : Word) ≠ 0; decide
  slot := rfl

/-! ### Fields that the invariant does not read -/

theorem inv_advance (h : WtbInv s) : WtbInv (advance s) :=
  ⟨h.legal, h.dims, h.stores, h.window, h.life, h.framed, h.capacity, h.bound, h.slot⟩

theorem inv_fetched (h : WtbInv s) : WtbInv (fetched s) :=
  ⟨h.legal, h.dims, h.stores, h.window, h.life, h.framed, h.capacity, h.bound, rfl⟩

theorem inv_clockStep (h : WtbInv s) : WtbInv (clockStep s) :=
  ⟨h.legal, h.dims, h.stores, h.window, h.life, h.framed, h.capacity, h.bound, h.slot⟩

theorem inv_hostOps (h : WtbInv s) (ops : List HostOp) : WtbInv { s with hostOps := ops } :=
  ⟨h.legal, h.dims, h.stores, h.window, h.life, h.framed, h.capacity, h.bound, h.slot⟩

/-! ### The host -/

theorem inv_submit (h : WtbInv s) (v : Word) : WtbInv (submit v s) := by
  by_cases hready : ready s = true
  · rw [submit_of_ready v hready]
    obtain ⟨hidle, hvalid⟩ := ready_iff.mp hready
    obtain ⟨hquiet, hjob⟩ := h.life.of_idle hidle
    have hjob' : s.job = .idle := hjob.resolve_right (by rw [hvalid]; simp)
    exact ⟨h.legal, h.dims, h.stores, h.window, ⟨hquiet, hjob', hvalid⟩, h.framed, h.capacity, h.bound, h.slot⟩
  · rw [submit_of_not_ready v hready]
    exact ⟨h.legal, h.dims, h.stores, h.window, h.life, h.framed, h.capacity, h.bound, h.slot⟩

/-- Consuming a posted response leaves the block idle with JOB at Idle (R112). -/
theorem inv_consume (h : WtbInv s) (hvalid : s.respValid = true) : WtbInv (consume s) := by
  have hidle := h.life.idle_of_respValid hvalid
  obtain ⟨hquiet, hjob⟩ := h.life.of_idle hidle
  have hjob' : consumedJob s.job = .idle := by
    obtain hj | ⟨-, hj | hj⟩ := hjob <;> rw [hj] <;> rfl
  have hlife : LifeCycle (consume s) := by
    simp only [LifeCycle, consume_seq, hidle]
    exact ⟨hquiet, .inl hjob'⟩
  exact ⟨h.legal, h.dims, h.stores, h.window, hlife, h.framed, h.capacity, h.bound, h.slot⟩

theorem inv_writeResp (h : WtbInv s) (v : Word) : WtbInv (writeResp v s) := by
  have hconsumed : WtbInv (if v.getLsbD 0 && s.respValid then consume s else s) := by
    split
    case isTrue hc => exact inv_consume h (Bool.and_eq_true_iff.mp hc).2
    case isFalse => exact h
  rw [writeResp]
  split
  · exact ⟨hconsumed.legal, hconsumed.dims, hconsumed.stores, hconsumed.window, hconsumed.life, hconsumed.framed,
      hconsumed.capacity, hconsumed.bound, hconsumed.slot⟩
  · exact hconsumed

theorem inv_portWrite (h : WtbInv s) (off : Nat) (v : Word) : WtbInv (portWrite off v s) := by
  obtain hw | ⟨w, hne, hw⟩ | hw | hw | hw | hw | hw := portWrite_cases off v s <;> rw [hw]
  · exact h
  · exact ⟨h.legal, h.dims, h.stores, h.window, h.life, h.framed, h.capacity, hne, h.slot⟩
  · exact ⟨h.legal, h.dims, h.stores, h.window, h.life, h.framed, h.capacity, h.bound, h.slot⟩
  · exact ⟨h.legal, h.dims, h.stores, h.window, h.life, h.framed, h.capacity, h.bound, h.slot⟩
  · exact ⟨h.legal, h.dims, h.stores, h.window, h.life, h.framed, h.capacity, h.bound, h.slot⟩
  · exact inv_submit h v
  · exact inv_writeResp h v

theorem inv_hostStore (h : WtbInv s) {addr : Word} (b : Byte) (haddr : inBlock s.cfg addr = false) :
    WtbInv (hostStore addr b s) :=
  ⟨h.legal, h.dims, storesCanonical_hostStore b h.stores haddr, h.window, h.life, h.framed, h.capacity, h.bound, h.slot⟩

theorem inv_hostStep {t : State} (h : WtbInv s) (hstep : hostStep s = .next t) : WtbInv t := by
  obtain rfl | ⟨v, ops, rfl⟩ | ⟨off, v, ops, rfl⟩ | ⟨addr, b, ops, haddr, rfl⟩ := hostStep_next hstep
  · exact h
  · exact ⟨h.legal, h.dims, h.stores, h.window, h.life, h.framed, h.capacity, h.bound, h.slot⟩
  · exact inv_portWrite (inv_hostOps h ops) off v
  · exact inv_hostStore (inv_hostOps h ops) b haddr

/-! ### The instructions -/

section
variable (h : WtbInv s) (hexec : s.seq = .exec)
include h hexec

/-- Events that lead from between transactions back there may be sent in EXEC. -/
theorem inv_emit {evs : List BusEvent} (hevs : runPhase .between evs = some .between) : WtbInv (emit evs s) := by
  have hquiet : s.dmaActive = false := (h.life.of_exec hexec).1.1
  have hframed : BusFramed (emit evs s) := by
    rw [BusFramed, tracePhase_of_inactive (s := emit evs s) hquiet, emit_trace,
      runPhase_append_between (h.trace_between hquiet), hevs]
  exact ⟨h.legal, h.dims, h.stores, h.window, h.life, hframed, h.capacity, h.bound, h.slot⟩

/-- An armed window is clamped to the panel (R121, R124). -/
theorem inv_arm (x0 y0 x1 y1 : Int) : WtbInv (arm x0 y0 x1 y1 s) := by
  obtain ⟨⟨hw, -⟩, hh, -⟩ := h.dims_range
  have hsent := inv_emit h hexec (runPhase_windowEvents (clampedHalf s.effW x0) (clampedHalf s.effH y0)
    (clampedHalf s.effW x1) (clampedHalf s.effH y1))
  have hwindow : WindowInPanel (arm x0 y0 x1 y1 s) := fun _ =>
    ⟨clampedHalf_lt hw x0, clampedHalf_lt hw x1, clampedHalf_lt hh y0, clampedHalf_lt hh y1⟩
  exact ⟨h.legal, h.dims, h.stores, hwindow, h.life, hsent.framed, h.capacity, h.bound, h.slot⟩

theorem inv_respond (code : RespCode) : WtbInv (respond code s) := by
  obtain ⟨hquiet, hjob, -⟩ := h.life.of_exec hexec
  exact ⟨h.legal, h.dims, h.stores, h.window, ⟨hquiet, .inl hjob⟩, h.framed, h.capacity, h.bound, h.slot⟩

theorem inv_streamEnd (code : RespCode) : WtbInv (streamEnd code s) := by
  obtain ⟨hquiet, hjob, -⟩ := h.life.of_exec hexec
  exact ⟨h.legal, h.dims, h.stores, nofun, ⟨hquiet, .inl hjob⟩, h.framed, h.capacity, h.bound, h.slot⟩

theorem inv_emitBacklightPin (l : Bool) : WtbInv (emitBacklightPin l s) :=
  have hsent := inv_emit h hexec (runPhase_pin .backlight l)
  ⟨h.legal, h.dims, h.stores, h.window, h.life, hsent.framed, h.capacity, h.bound, h.slot⟩

theorem inv_emitResetPin (l : Bool) : WtbInv (emitResetPin l s) :=
  have hsent := inv_emit h hexec (runPhase_pin .reset l)
  ⟨h.legal, h.dims, h.stores, h.window, h.life, hsent.framed, h.capacity, h.bound, h.slot⟩

/-- A burst, then the end of the request: what the sync path does (R135). -/
theorem inv_burst (bs : List Byte) (code : RespCode) : WtbInv (streamEnd code (emit (dataEvents bs) s)) :=
  inv_streamEnd (inv_emit h hexec (runPhase_dataEvents bs)) hexec code

/-- A stream of a positive number of pixels, which its register holds, is set up live (R141). -/
theorem inv_asyncSetup {n : Nat} (p : PixelSource) (hasync : s.asyncAvail = true) (hpos : n ≠ 0) (hlt : n < 2 ^ 32) :
    WtbInv (asyncSetup n p s) := by
  obtain ⟨hquiet, hjob, hvalid⟩ := h.life.of_exec hexec
  have hremain : (0 : Word) < BitVec.ofNat 32 n := by
    rw [BitVec.lt_def, BitVec.toNat_ofNat, Nat.mod_eq_of_lt hlt]
    exact Nat.pos_of_ne_zero hpos
  exact ⟨h.legal, h.dims, h.stores, h.window, ⟨hquiet, hjob, hasync, hvalid, hremain⟩, h.framed, h.capacity, h.bound,
    h.slot⟩

/-- The area of a clipped rectangle fits the pixel count. -/
theorem inv_clip_setup {x y w hgt : Int} {r : Clip} (p : PixelSource) (hasync : s.asyncAvail = true)
    (hclip : clip s.effW s.effH x y w hgt = some r) :
    WtbInv (asyncSetup (r.cw * r.ch) p (arm r.cx0 r.cy0 r.cx1 r.cy1 s)) := by
  obtain ⟨hcw, hch, hcw', hch', -, -⟩ := clip_extent hclip
  obtain ⟨⟨-, hw⟩, -, hh⟩ := h.dims_range
  have harea : r.cw * r.ch ≤ 32767 * 32767 := Nat.mul_le_mul (hcw'.trans hw) (hch'.trans hh)
  exact inv_asyncSetup (inv_arm h hexec _ _ _ _) hexec p hasync (Nat.mul_ne_zero hcw.ne' hch.ne') (by omega)

omit hexec in
/-- A rotation with the window spent keeps the invariant: the dimensions become those of the new rotation (R118). -/
theorem inv_turnTo (r : BitVec 2) : WtbInv (turnTo r { s with winArmed := false }) :=
  ⟨h.legal, rfl, h.stores, nofun, h.life, h.framed, h.capacity, h.bound, h.slot⟩

theorem inv_exec {i : Instr} {t : State} (hreq : isRequest i = true) (hwf : i.wellFormed = true)
    (hstep : exec i s = .next t) : WtbInv t := by
  cases exec_effect hstep
  case setrotArmed r _ =>
    have hturned := inv_emit (inv_turnTo h r) hexec (runPhase_controllerEvents 0x36 [madctl r])
    exact inv_respond (inv_arm hturned hexec 0 0 _ _) hexec .ok
  case setrotSame r _ =>
    exact inv_streamEnd (inv_emit (inv_turnTo h r) hexec (runPhase_controllerEvents 0x36 [madctl r])) hexec .ok
  case armwin x0 y0 x1 y1 => exact inv_respond (inv_arm h hexec x0 y0 x1 y1) hexec .ok
  case wrsyncRejected | wrasyncRejected | fillRejected | sendcmdRejected => exact inv_respond h hexec .rejected
  case wrsyncStuck | wrasyncStuck | blitStuck | sendcmdStuck => exact h
  case wrasyncEmpty | fillEmpty | pixelOutside | fillrectEmpty | blitEmpty => exact inv_streamEnd h hexec .ok
  case wrsync | wrasyncSync | fillSync => exact inv_burst h hexec _ .ok
  case pixel | fillrectSync | blitSync => exact inv_burst (inv_arm h hexec _ _ _ _) hexec _ .ok
  case wrasyncSetup ha hn => exact inv_asyncSetup h hexec _ ha hn (of_decide_eq_true hwf)
  case fillSetup ha hn => exact inv_asyncSetup h hexec _ ha hn (of_decide_eq_true hwf)
  case fillrectSetup hr ha => exact inv_clip_setup h hexec _ ha hr
  case blitSetup hr ha => exact inv_clip_setup h hexec _ ha hr
  case sendcmd cb _ _ bs _ => exact inv_burst (inv_emit h hexec (runPhase_cmdEvents cb)) hexec bs .ok
  case backlight l => exact inv_respond (inv_emitBacklightPin h hexec l) hexec .ok
  case panelrst l => exact inv_streamEnd (inv_emitResetPin h hexec l) hexec .ok
  case controller hctl => cases hreq.symm.trans hctl

end

/-! ### The Sequencer in STAGE, START and WAIT -/

/-- SCRATCH holds CHUNK_MAX pixels, and their length does not wrap (R9, R138). -/
theorem StoresCanonical.chunk_fits (h : StoresCanonical s) :
    2 * s.chunkMax.toNat ≤ s.cfg.scratchCap.toNat ∧ 2 * s.chunkMax.toNat < 2 ^ 32 := by
  obtain ⟨-, -, -, -, hmax, -⟩ := h
  have hhalf := chunkMaxOf_toNat s.cfg
  have hcap := s.cfg.scratchCap.isLt
  rw [hmax]
  omega

/-- A list of at most CHUNK_MAX pixels fits SCRATCH. -/
theorem StoresCanonical.writeScratch (h : StoresCanonical s) {ps : List Half} (hlen : ps.length ≤ s.chunkMax.toNat) :
    StoresCanonical { s with scratch := Memory.writeBytes s.scratch 0 (serAll ps) } := by
  have hfits := h.chunk_fits.1
  obtain ⟨hmem, hspace, hscratch, hcap, hmax, hblock⟩ := h
  have hwithin : Memory.within (Memory.writeBytes s.scratch 0 (serAll ps)) s.cfg.scratchCap.toNat :=
    Memory.writeBytes_within hcap (by rw [serAll_length]; omega)
  exact ⟨hmem, hspace, Memory.writeBytes_wf 0 _ hscratch, hwithin, hmax, hblock⟩

theorem inv_writeScratch (h : WtbInv s) {ps : List Half} (hlen : ps.length ≤ s.chunkMax.toNat) (filled : Bool) :
    WtbInv { s with scratch := Memory.writeBytes s.scratch 0 (serAll ps), prefilled := filled } :=
  ⟨h.legal, h.dims, h.stores.writeScratch hlen, h.window, h.life, h.framed, h.capacity, h.bound, h.slot⟩

theorem inv_staged (h : WtbInv s) (hseq : s.seq = .stage) : WtbInv (staged (chunkPixels s) s) := by
  obtain ⟨hquiet, -, hlive⟩ := h.life.of_stage hseq
  have hsized : ChunkSized (staged (chunkPixels s) s) :=
    Nat.mod_eq_of_lt ((Nat.min_le_left _ _).trans_lt s.chunkMax.isLt)
  exact ⟨h.legal, h.dims, h.stores, h.window, ⟨hquiet, rfl, hlive, hsized⟩, h.framed, h.capacity, h.bound, h.slot⟩

theorem inv_stageStep (h : WtbInv s) (hseq : s.seq = .stage) : WtbInv (stageStep s) := by
  obtain ⟨c, -, hstep⟩ | ⟨-, ⟨ps, hps, hstep⟩ | ⟨-, hstep⟩⟩ := stageStep_cases s <;> rw [hstep]
  · unfold prefill
    split
    · exact inv_staged h hseq
    · exact inv_staged (inv_writeScratch h (by rw [List.length_replicate]; omega) true) hseq
  · have hlen : ps.length ≤ s.chunkMax.toNat := (sourcePixels_length hps).trans_le (Nat.min_le_left _ _)
    exact inv_staged (inv_writeScratch h hlen s.prefilled) hseq
  · exact h

/-- While the stream is live a chunk has at least one pixel, and its length in bytes does not wrap. -/
theorem WtbInv.chunk_range (h : WtbInv s) (hlive : StreamLive s) (hsized : ChunkSized s) :
    0 < s.curPx.toNat ∧ 2 * s.curPx.toNat < 2 ^ 32 := by
  obtain ⟨hasync, -, hremain⟩ := hlive
  have hcap := h.capacity hasync
  have hfits := h.stores.chunk_fits.2
  rw [ChunkSized] at hsized
  rw [BitVec.lt_def] at hremain
  omega

theorem inv_startStep (h : WtbInv s) (hseq : s.seq = .start) : WtbInv (startStep s) := by
  obtain ⟨hquiet, -, hlive, hsized⟩ := h.life.of_start hseq
  obtain ⟨hpos, hlt⟩ := h.chunk_range hlive hsized
  have hlen : (2 * s.curPx).toNat = 2 * s.curPx.toNat := by rw [BitVec.toNat_mul]; exact Nat.mod_eq_of_lt hlt
  have hlimit : dmaLimit (startStep s) ≤ (2 * s.curPx).toNat := by
    rw [dmaLimit, startStep_dmaFate, startStep_dmaLen]
    obtain hfate | ⟨k, hk, hfate⟩ := drawFate_cases s.tick (2 * s.curPx).toNat <;> rw [hfate]
    exact hk
  have hlife : LifeCycle (startStep s) :=
    ⟨⟨hlen, BitVec.le_def.mpr (Nat.zero_le _), hlimit, .inl ⟨rfl, rfl⟩⟩, rfl, hlive, hsized⟩
  have hphase : tracePhase (startStep s) = .opened := by
    have hsending : (0 : Word) < 2 * s.curPx := by rw [BitVec.lt_def, hlen]; exact Nat.mul_pos two_pos hpos
    simp only [tracePhase, startStep_dmaActive, startStep_dmaSent, startStep_dmaLen, hsending]
    rfl
  have hframed : BusFramed (startStep s) := by
    rw [BusFramed, hphase, startStep_trace, runPhase_append_between (h.trace_between hquiet.1)]
    rfl
  exact ⟨h.legal, h.dims, h.stores, h.window, hlife, hframed, h.capacity, h.bound, h.slot⟩

/-- While bytes of a chunk remain, the trace is inside its transaction. -/
theorem tracePhase_of_sending (hactive : s.dmaActive = true) (hsent : s.dmaSent < s.dmaLen) :
    tracePhase s = .opened ∨ tracePhase s = .data := by
  simp only [tracePhase, hactive, hsent, decide_true, Bool.and_self, if_true]
  split
  · exact .inl rfl
  · exact .inr rfl

/-- A pending completion means that the channel has stopped. -/
theorem ChunkInFlight.inactive (h : ChunkInFlight s) (hpending : s.completionPending = true) : s.dmaActive = false := by
  obtain ⟨-, -, -, ⟨-, hnone⟩ | ⟨hstopped, -⟩⟩ := h
  · cases hpending.symm.trans hnone
  · exact hstopped

theorem inv_completeStep (h : WtbInv s) (hseq : s.seq = .wait) (hpending : s.completionPending = true) :
    WtbInv (completeStep s) := by
  obtain ⟨hflight, -, ⟨hasync, hvalid, -⟩, -⟩ := h.life.of_wait hseq
  have hstopped := hflight.inactive hpending
  unfold completeStep
  split
  case isTrue hmore =>
    exact ⟨h.legal, h.dims, h.stores, h.window, ⟨⟨hstopped, rfl⟩, rfl, hasync, hvalid, hmore⟩, h.framed, h.capacity,
      h.bound, h.slot⟩
  case isFalse =>
    exact ⟨h.legal, h.dims, h.stores, nofun, ⟨⟨hstopped, rfl⟩, .inr ⟨rfl, .inl rfl⟩⟩, h.framed, h.capacity, h.bound,
      h.slot⟩

/-- An abort closes the transaction of a chunk whose bytes remain (R153). -/
theorem inv_timeoutEnd (h : WtbInv s) : WtbInv (timeoutEnd s) := by
  have hframed : BusFramed (timeoutEnd s) := by
    rw [BusFramed, tracePhase_of_inactive rfl, timeoutEnd_trace, abort_trace]
    by_cases hsending : s.dmaActive = true ∧ s.dmaSent < s.dmaLen
    · obtain ⟨hactive, hsent⟩ := hsending
      rw [if_pos (by rw [hactive, decide_eq_true hsent]; rfl), runPhase_append, h.framed]
      obtain hphase | hphase := tracePhase_of_sending hactive hsent <;> rw [hphase] <;> rfl
    · have hnot : ¬ (s.dmaActive && decide (s.dmaSent < s.dmaLen)) = true := by simpa using hsending
      rw [if_neg hnot, h.framed, tracePhase, if_neg hnot]
  exact ⟨h.legal, h.dims, h.stores, nofun, ⟨⟨rfl, rfl⟩, .inr ⟨rfl, .inr rfl⟩⟩, hframed, h.capacity, h.bound, h.slot⟩

theorem inv_waitStep (h : WtbInv s) (hseq : s.seq = .wait) : WtbInv (waitStep s) := by
  obtain ⟨hpending, hstep⟩ | ⟨-, -, hstep⟩ | ⟨-, -, hstep⟩ := waitStep_cases s <;> rw [hstep]
  · exact inv_completeStep h hseq hpending
  · exact inv_timeoutEnd h
  · exact h

/-! ### The channel -/

/-- The channel is active only in WAIT. -/
theorem LifeCycle.wait_of_active (h : LifeCycle s) (hactive : s.dmaActive = true) : s.seq = .wait := by
  by_contra hseq
  cases hactive.symm.trans (h.quiet hseq).1

theorem inv_dmaByteStep (h : WtbInv s) (hactive : s.dmaActive = true) (hsent : s.dmaSent.toNat < dmaLimit s) :
    WtbInv (dmaByteStep s) := by
  have hseq := h.life.wait_of_active hactive
  obtain ⟨⟨hlen, -, hlimit, hchannel⟩, hjob, hlive, hsized⟩ := h.life.of_wait hseq
  have hnone : s.completionPending = false := by
    obtain ⟨-, hnone⟩ | ⟨hstopped, -⟩ := hchannel
    · exact hnone
    · cases hactive.symm.trans hstopped
  have hnext : s.dmaSent + 1 ≤ s.dmaLen := by bv_omega
  have hflight : ChunkInFlight (dmaByteStep s) := ⟨hlen, hnext, hlimit, .inl ⟨hactive, hnone⟩⟩
  have hlife : LifeCycle (dmaByteStep s) := by
    simp only [LifeCycle, dmaByteStep_seq, hseq]
    exact ⟨hflight, hjob, hlive, hsized⟩
  have hdata : runPhase .between (s.trace ++ [.byte .data (scratchByte s s.dmaSent.toNat)]) = some .data := by
    rw [runPhase_append, h.framed]
    obtain hphase | hphase := tracePhase_of_sending hactive (by bv_omega) <;> rw [hphase] <;> rfl
  have hframed : BusFramed (dmaByteStep s) := by
    rw [BusFramed, dmaByteStep_trace, List.append_cons, runPhase_append, hdata]
    by_cases hlast : s.dmaSent + 1 = s.dmaLen
    · have hphase : tracePhase (dmaByteStep s) = .between := by
        simp only [tracePhase, dmaByteStep_dmaSent, dmaByteStep_dmaLen, hlast, BitVec.lt_irrefl, decide_false,
          Bool.and_false, Bool.false_eq_true, if_false]
      rw [hphase, if_pos hlast]
      rfl
    · have hmore : s.dmaSent + 1 < s.dmaLen := by bv_omega
      have hsome : s.dmaSent + 1 ≠ 0 := by bv_omega
      have hphase : tracePhase (dmaByteStep s) = .data := by
        simp only [tracePhase, dmaByteStep_dmaActive, dmaByteStep_dmaSent, dmaByteStep_dmaLen, hactive, hmore,
          decide_true, Bool.and_self, if_true, hsome, if_false]
      rw [hphase, if_neg hlast]
      rfl
  exact ⟨h.legal, h.dims, h.stores, h.window, hlife, hframed, h.capacity, h.bound, h.slot⟩

theorem inv_dmaCompleteStep (h : WtbInv s) (hactive : s.dmaActive = true) (hfate : s.dmaFate = .deliver)
    (hsent : s.dmaSent = s.dmaLen) : WtbInv (dmaCompleteStep s) := by
  have hseq := h.life.wait_of_active hactive
  obtain ⟨⟨hlen, hle, hlimit, -⟩, hjob, hlive, hsized⟩ := h.life.of_wait hseq
  have hlife : LifeCycle (dmaCompleteStep s) := by
    simp only [LifeCycle, dmaCompleteStep_seq, hseq]
    exact ⟨⟨hlen, hle, hlimit, .inr ⟨rfl, rfl, hfate, hsent⟩⟩, hjob, hlive, hsized⟩
  have hframed : BusFramed (dmaCompleteStep s) := by
    have hphase : tracePhase s = .between := by rw [tracePhase, hsent]; simp
    rw [BusFramed, tracePhase_of_inactive rfl, dmaCompleteStep_trace, h.framed, hphase]
  exact ⟨h.legal, h.dims, h.stores, h.window, hlife, hframed, h.capacity, h.bound, h.slot⟩

theorem inv_dmaStep (h : WtbInv s) : WtbInv (dmaStep s) := by
  obtain ⟨hactive, hsent, hstep⟩ | ⟨hactive, hfate, hsent, hstep⟩ | hstep := dmaStep_cases s <;> rw [hstep]
  · exact inv_dmaByteStep h hactive hsent
  · exact inv_dmaCompleteStep h hactive hfate hsent
  · exact h

/-! ### The statements -/

/-- Settles O52: `State.reset` is a reset with the legal configuration of V-HP-1. -/
theorem resetSatisfiesTheInvariant : Obligations.ResetSatisfiesTheInvariant :=
  ⟨fun _ d hlegal => inv_resetWith d hlegal, inv_resetWith Config.platformDraws (by decide)⟩

/-- Settles O53: each agent's turn by the lemma of its operation; what runs in EXEC is a decoded request, so well
formed. -/
theorem everyStepKeepsTheInvariant : Obligations.EveryStepKeepsTheInvariant := by
  intro s t h hstep
  have hadv := inv_advance h
  obtain ⟨-, hhost⟩ | ⟨-, rfl⟩ | ⟨-, rfl⟩ | ⟨-, hturn⟩ := step_next hstep
  · exact inv_hostStep hadv hhost
  · exact inv_dmaStep hadv
  · exact inv_clockStep hadv
  obtain ⟨hreject, hstage, hstart, hwait, -⟩ := seqAction_seq h.slot
  obtain ⟨i, hrun, hexec⟩ | ⟨hact, rfl⟩ | ⟨hact, rfl⟩ | ⟨hact, rfl⟩ | ⟨hact, rfl⟩ | ⟨-, rfl⟩ := hturn
  · obtain ⟨hseq, hlatched⟩ := seqAction_run h.slot hrun
    exact inv_exec (inv_fetched h) hseq (latchedRequest_isRequest hlatched) (encode_of_decodeRequest hlatched).1 hexec
  · exact inv_respond hadv (hreject hact) .rejected
  · exact inv_stageStep hadv (hstage hact)
  · exact inv_startStep hadv (hstart hact)
  · exact inv_waitStep hadv (hwait hact)
  · exact hadv

end Sys2Proof.Machine
end

section
/-! PROOFS. What one step may change (10_state.md R27, 20_memory.md R62, R64, R70, R71, 41_addressing.md R127,
42_transfer.md R142): the configuration, the stores, the bus trace, the response and JOB. -/

namespace Sys2Proof.Machine

variable {s t : State}

/-! ### The fields that each operation writes -/

/-- A register write reaches the registers of the port, the latches and the request's life cycle. -/
theorem portWrite_frame {off : Nat} {v : Word} (h : portWrite off v s = t) : t = { s with
    timeoutMs := t.timeoutMs, arg0 := t.arg0, arg1 := t.arg1, arg2 := t.arg2
    oplCmd := t.oplCmd, oplArg0 := t.oplArg0, oplArg1 := t.oplArg1, oplArg2 := t.oplArg2
    seq := t.seq, job := t.job, respValid := t.respValid, drop := t.drop, raced := t.raced } := by
  obtain hw | ⟨w, -, hw⟩ | hw | hw | hw | hw | hw := portWrite_cases off v s <;> rw [← h, hw]
  · unfold submit
    split <;> rfl
  · rw [writeResp_eq]

/-- The host reaches, besides, its own queue and data, and host memory. -/
theorem hostStep_frame (h : hostStep s = .next t) : t = { s with
    hostOps := t.hostOps, hostData := t.hostData, mem := t.mem
    timeoutMs := t.timeoutMs, arg0 := t.arg0, arg1 := t.arg1, arg2 := t.arg2
    oplCmd := t.oplCmd, oplArg0 := t.oplArg0, oplArg1 := t.oplArg1, oplArg2 := t.oplArg2
    seq := t.seq, job := t.job, respValid := t.respValid, drop := t.drop, raced := t.raced } := by
  obtain rfl | ⟨v, ops, rfl⟩ | ⟨off, v, ops, hw⟩ | ⟨addr, b, ops, -, rfl⟩ := hostStep_next h
  · rfl
  · rfl
  · rw [portWrite_frame hw.symm]
  · rfl

theorem stageStep_frame (h : stageStep s = t) : t = { s with
    scratch := t.scratch, prefilled := t.prefilled, curPx := t.curPx, job := t.job, seq := t.seq } := by
  obtain ⟨c, -, hs⟩ | ⟨-, ⟨ps, -, hs⟩ | ⟨-, hs⟩⟩ := stageStep_cases s <;> rw [← h, hs]
  · unfold prefill
    split <;> rfl
  · rfl

theorem waitStep_frame (h : waitStep s = t) : t = { s with
    trace := t.trace, dmaActive := t.dmaActive, completionPending := t.completionPending, donePx := t.donePx
    job := t.job, winArmed := t.winArmed, respCode := t.respCode, respValid := t.respValid, seq := t.seq } := by
  obtain ⟨-, hs⟩ | ⟨-, -, hs⟩ | ⟨-, -, hs⟩ := waitStep_cases s <;> rw [← h, hs]
  · unfold completeStep
    split <;> rfl
  · rfl

theorem dmaStep_frame (h : dmaStep s = t) : t = { s with
    trace := t.trace, dmaSent := t.dmaSent, dmaActive := t.dmaActive, completionPending := t.completionPending } := by
  obtain ⟨-, -, hs⟩ | ⟨-, -, -, hs⟩ | hs := dmaStep_cases s <;> rw [← h, hs] <;> rfl

/-! ### The configuration and the rotation -/

/-- An instruction other than SETROT leaves the rotation (R127), and none changes the configuration (R27). -/
theorem step_configuration (h : step s = .next t) :
    t.asyncAvail = s.asyncAvail ∧ t.cfg = s.cfg ∧ t.chunkMax = s.chunkMax ∧
      ((nextAgent s = .sequencer ∧ ∃ r, seqAction s = .run (.setrot r)) ∨
        (t.rot = s.rot ∧ t.effW = s.effW ∧ t.effH = s.effH)) := by
  obtain ⟨-, hhost⟩ | ⟨-, ht⟩ | ⟨-, ht⟩ | ⟨hagent, hturn⟩ := step_next h
  · rw [hostStep_frame hhost]; exact ⟨rfl, rfl, rfl, .inr ⟨rfl, rfl, rfl⟩⟩
  · rw [dmaStep_frame ht.symm]; exact ⟨rfl, rfl, rfl, .inr ⟨rfl, rfl, rfl⟩⟩
  · rw [ht]; exact ⟨rfl, rfl, rfl, .inr ⟨rfl, rfl, rfl⟩⟩
  obtain ⟨i, hrun, hexec⟩ | ⟨-, ht⟩ | ⟨-, ht⟩ | ⟨-, ht⟩ | ⟨-, ht⟩ | ⟨-, ht⟩ := hturn
  · have hframe := exec_frame hexec
    refine ⟨by rw [hframe]; rfl, by rw [hframe]; rfl, by rw [hframe]; rfl, ?_⟩
    by_cases hi : ∃ r, i = .setrot r
    · obtain ⟨r, rfl⟩ := hi
      exact .inl ⟨hagent, r, hrun⟩
    · exact .inr (exec_rotation (s := fetched s) hexec (not_exists.mp hi))
  · rw [ht]; exact ⟨rfl, rfl, rfl, .inr ⟨rfl, rfl, rfl⟩⟩
  · rw [stageStep_frame ht.symm]; exact ⟨rfl, rfl, rfl, .inr ⟨rfl, rfl, rfl⟩⟩
  · rw [ht]; exact ⟨rfl, rfl, rfl, .inr ⟨rfl, rfl, rfl⟩⟩
  · rw [waitStep_frame ht.symm]; exact ⟨rfl, rfl, rfl, .inr ⟨rfl, rfl, rfl⟩⟩
  · rw [ht]; exact ⟨rfl, rfl, rfl, .inr ⟨rfl, rfl, rfl⟩⟩

/-! ### The stores -/

theorem storesCanonical_stageStep (h : StoresCanonical s) : StoresCanonical (stageStep s) := by
  obtain ⟨c, -, hs⟩ | ⟨-, ⟨ps, hps, hs⟩ | ⟨-, hs⟩⟩ := stageStep_cases s <;> rw [hs]
  · unfold prefill
    split
    · exact h.of_eq rfl rfl rfl rfl
    · have hlen : (List.replicate (min s.chunkMax.toNat s.totalPx.toNat) c).length ≤ s.chunkMax.toNat := by
        rw [List.length_replicate]
        exact Nat.min_le_left _ _
      exact (h.writeScratch hlen).of_eq rfl rfl rfl rfl
  · have hlen : ps.length ≤ s.chunkMax.toNat := (sourcePixels_length hps).trans_le (Nat.min_le_left _ _)
    exact (h.writeScratch hlen).of_eq rfl rfl rfl rfl
  · exact h

theorem storesCanonical_hostStep (h : StoresCanonical s) (hstep : hostStep s = .next t) : StoresCanonical t := by
  obtain rfl | ⟨v, ops, rfl⟩ | ⟨off, v, ops, hw⟩ | ⟨addr, b, ops, haddr, rfl⟩ := hostStep_next hstep
  · exact h
  · exact h.of_eq rfl rfl rfl rfl
  · rw [portWrite_frame hw.symm]
    exact h.of_eq rfl rfl rfl rfl
  · exact storesCanonical_hostStore (s := { s with hostOps := ops }) b (h.of_eq rfl rfl rfl rfl) haddr

/-! ### The bus trace -/

theorem dmaStep_trace (s : State) : ∃ evs, (dmaStep s).trace = s.trace ++ evs := by
  obtain ⟨-, -, hs⟩ | ⟨-, -, -, hs⟩ | hs := dmaStep_cases s <;> rw [hs]
  · exact ⟨_, rfl⟩
  · exact ⟨[], (List.append_nil _).symm⟩
  · exact ⟨[], (List.append_nil _).symm⟩

theorem completeStep_trace (s : State) : (completeStep s).trace = s.trace := by
  unfold completeStep
  split <;> rfl

/-- Only the timeout's abort appends in WAIT, the End of the chunk it stops (R153). -/
theorem waitStep_trace_cases (s : State) : (waitStep s).trace = s.trace ∨
    ((waitStep s).trace = s.trace ++ [.endTx] ∧ (waitStep s).dmaActive = false ∧ (waitStep s).job = .timedOut ∧
      (waitStep s).respCode = .timeout) := by
  obtain ⟨-, hs⟩ | ⟨-, -, hs⟩ | ⟨-, -, hs⟩ := waitStep_cases s <;> rw [hs]
  · exact .inl (completeStep_trace s)
  · rw [timeoutEnd_trace, abort_trace]
    split
    · exact .inr ⟨rfl, rfl, rfl, rfl⟩
    · exact .inl rfl
  · exact .inl rfl

theorem waitStep_trace (s : State) : ∃ evs, (waitStep s).trace = s.trace ++ evs := by
  obtain hs | ⟨hs, -⟩ := waitStep_trace_cases s
  · exact ⟨[], hs.trans (List.append_nil _).symm⟩
  · exact ⟨_, hs⟩

theorem exec_trace {i : Instr} (h : exec i s = .next t) : ∃ evs, t.trace = s.trace ++ evs := by
  cases exec_effect h
  case setrotArmed | pixel | fillrectSync | blitSync | sendcmd => exact ⟨_, List.append_assoc _ _ _⟩
  case setrotSame | armwin | wrsync | wrasyncSync | fillSync | fillrectSetup | blitSetup | backlight | panelrst
    | controller => exact ⟨_, rfl⟩
  all_goals exact ⟨[], (List.append_nil _).symm⟩

/-! ### The statements from every state -/

/-- Settles O54: only a host store and the STAGE step write a store. -/
theorem everyStepKeepsTheStoresCanonical : Obligations.EveryStepKeepsTheStoresCanonical := by
  intro s t h hstep
  have hadv : StoresCanonical (advance s) := h.of_eq rfl rfl rfl rfl
  obtain ⟨-, hhost⟩ | ⟨-, ht⟩ | ⟨-, ht⟩ | ⟨-, hturn⟩ := step_next hstep
  · exact storesCanonical_hostStep hadv hhost
  · rw [dmaStep_frame ht.symm]; exact h.of_eq rfl rfl rfl rfl
  · rw [ht]; exact h.of_eq rfl rfl rfl rfl
  obtain ⟨i, -, hexec⟩ | ⟨-, ht⟩ | ⟨-, ht⟩ | ⟨-, ht⟩ | ⟨-, ht⟩ | ⟨-, ht⟩ := hturn
  · rw [exec_frame hexec]; exact h.of_eq rfl rfl rfl rfl
  · rw [ht]; exact h.of_eq rfl rfl rfl rfl
  · rw [ht]; exact storesCanonical_stageStep hadv
  · rw [ht]; exact h.of_eq rfl rfl rfl rfl
  · rw [waitStep_frame ht.symm]; exact h.of_eq rfl rfl rfl rfl
  · rw [ht]; exact hadv

/-- Settles O55: a step that changes the rotation or its dimensions is not one that leaves all three. -/
theorem noStepChangesTheConfiguration : Obligations.NoStepChangesTheConfiguration := by
  intro s t h
  obtain ⟨hasync, hcfg, hmax, hsetrot | ⟨hrot, hw, hh⟩⟩ := step_configuration h
  · exact ⟨hasync, hcfg, hmax, fun _ => hsetrot⟩
  · exact ⟨hasync, hcfg, hmax, fun hchange => absurd hchange (by simp [hrot, hw, hh])⟩

/-- Settles O56: each operation appends, or leaves the trace. -/
theorem traceOnlyGrows : Obligations.TraceOnlyGrows := by
  intro s t h
  have hsame : ∃ evs, s.trace = s.trace ++ evs := ⟨[], (List.append_nil _).symm⟩
  obtain ⟨-, hhost⟩ | ⟨-, ht⟩ | ⟨-, ht⟩ | ⟨-, hturn⟩ := step_next h
  · rw [hostStep_frame hhost]; exact hsame
  · rw [ht]; exact dmaStep_trace (advance s)
  · rw [ht]; exact hsame
  obtain ⟨i, -, hexec⟩ | ⟨-, ht⟩ | ⟨-, ht⟩ | ⟨-, ht⟩ | ⟨-, ht⟩ | ⟨-, ht⟩ := hturn
  · exact exec_trace (s := fetched s) hexec
  · rw [ht]; exact hsame
  · rw [stageStep_frame ht.symm]; exact hsame
  · rw [ht]; exact ⟨_, rfl⟩
  · rw [ht]; exact waitStep_trace (advance s)
  · rw [ht]; exact hsame

/-! ### The response and the bus, under the invariant -/

theorem runOver_iff : runOver s = true ↔
    s.hostOps = [] ∧ s.seq = .idle ∧ s.respValid = false ∧ s.dmaActive = false := by
  simp [runOver, quiescent, and_assoc]

/-- An inactive channel has no step (R151). -/
theorem dmaStep_of_inactive (h : s.dmaActive = false) : dmaStep s = s := by simp [dmaStep, h]

/-- The host ends no request: SEQ stays, or a request is accepted. -/
theorem hostStep_seq (h : hostStep s = .next t) : t.seq = s.seq ∨ (ready s = true ∧ t.seq = .exec) := by
  obtain rfl | ⟨v, ops, rfl⟩ | ⟨off, v, ops, rfl⟩ | ⟨addr, b, ops, -, rfl⟩ := hostStep_next h
  · exact .inl rfl
  · exact .inl rfl
  · obtain hw | ⟨w, -, hw⟩ | hw | hw | hw | hw | hw := portWrite_cases off v { s with hostOps := ops } <;> rw [hw]
    iterate 5 exact .inl rfl
    · unfold submit
      split
      case isTrue hready => exact .inr ⟨hready, rfl⟩
      case isFalse => exact .inl rfl
    · rw [writeResp_eq]; exact .inl rfl
  · exact .inl rfl

/-- What the Sequencer's turn runs while no request executes: nothing. -/
theorem seqAction_of_idle (hslot : s.ctlSlot = none) (hseq : s.seq = .idle) : seqAction s = .hold := by
  rw [seqAction_of_slot hslot, hseq]

/-- A step from IDLE with a quiet channel and an empty slot: the host's, the clock's, or one that changes nothing but
the turn. -/
theorem step_of_idle (hslot : s.ctlSlot = none) (hseq : s.seq = .idle) (hquiet : s.dmaActive = false)
    (h : step s = .next t) :
    hostStep (advance s) = .next t ∨ t = clockStep (advance s) ∨ t = advance s := by
  have hhold := seqAction_of_idle hslot hseq
  obtain ⟨-, hhost⟩ | ⟨-, rfl⟩ | ⟨-, rfl⟩ | ⟨-, hturn⟩ := step_next h
  · exact .inl hhost
  · exact .inr (.inr (dmaStep_of_inactive hquiet))
  · exact .inr (.inl rfl)
  · simp only [hhold, reduceCtorEq, false_and, exists_false, false_or, true_and] at hturn
    exact .inr (.inr hturn)

theorem waitStep_idle (h : (waitStep s).seq = .idle) (hseq : s.seq ≠ .idle) : (waitStep s).respValid = true := by
  obtain ⟨-, hs⟩ | ⟨-, -, hs⟩ | ⟨-, -, hs⟩ := waitStep_cases s <;> rw [hs] at h ⊢
  · unfold completeStep at h ⊢
    split
    case isTrue hmore => rw [if_pos hmore] at h; cases h
    case isFalse => rfl
  · rfl
  · exact absurd h hseq

/-- A request that stops executing has posted its response. -/
theorem step_response (hinv : WtbInv s) (h : step s = .next t) (hseq : s.seq ≠ .idle) (hidle : t.seq = .idle) :
    t.respValid = true := by
  obtain ⟨-, hhost⟩ | ⟨-, ht⟩ | ⟨-, ht⟩ | ⟨-, hturn⟩ := step_next h
  · obtain hsame | ⟨-, hexec⟩ := hostStep_seq hhost
    · exact absurd (hsame.symm.trans hidle) hseq
    · cases hexec.symm.trans hidle
  · rw [dmaStep_frame ht.symm] at hidle; exact absurd hidle hseq
  · rw [ht] at hidle; exact absurd hidle hseq
  obtain ⟨i, hrun, hexec⟩ | ⟨-, ht⟩ | ⟨-, ht⟩ | ⟨-, ht⟩ | ⟨-, ht⟩ | ⟨-, ht⟩ := hturn
  · obtain ⟨-, hlatched⟩ := seqAction_run hinv.slot hrun
    cases exec_requestEnd (latchedRequest_isRequest hlatched) hexec with
    | ok _ hvalid _ => exact hvalid
    | noWindow ht _ _ | mapperByte ht _ => rw [ht]; rfl
    | stage hstage => cases hstage.symm.trans hidle
    | stuck ht => rw [ht] at hidle; exact absurd hidle hseq
  · rw [ht]; rfl
  · rw [ht] at hidle
    obtain ⟨c, -, hs⟩ | ⟨-, ⟨ps, -, hs⟩ | ⟨-, hs⟩⟩ := stageStep_cases (advance s) <;> rw [hs] at hidle
    · cases hidle
    · cases hidle
    · exact absurd hidle hseq
  · rw [ht] at hidle; cases hidle
  · rw [ht] at hidle ⊢; exact waitStep_idle hidle hseq
  · rw [ht] at hidle; exact absurd hidle hseq

/-- Settles O57: from IDLE only the host and the clock do anything, and neither sends. -/
theorem nothingIsSentAfterTheResponse : Obligations.NothingIsSentAfterTheResponse := by
  refine ⟨fun s => runOver_iff, fun s t hinv h => ⟨fun hidle => ?_, step_response hinv h, fun hover => ?_⟩⟩
  · obtain hhost | rfl | rfl := step_of_idle hinv.slot hidle (hinv.life.quiet (by rw [hidle]; nofun)).1 h
    · rw [hostStep_frame hhost]; rfl
    · rfl
    · rfl
  · obtain ⟨hops, hidle, -, hquiet⟩ := runOver_iff.mp hover
    obtain hhost | rfl | rfl := step_of_idle hinv.slot hidle hquiet h
    · have hnone : hostStep (advance s) = .next (advance s) := by rw [hostStep, advance_hostOps, hops]
      cases hnone.symm.trans hhost
      exact ⟨hover, rfl⟩
    · exact ⟨hover, rfl⟩
    · exact ⟨hover, rfl⟩

/-- Settles O58: with a chunk in flight the Sequencer is in WAIT, where only the timeout appends. -/
theorem onlyTheChannelSendsInFlight : Obligations.OnlyTheChannelSendsInFlight := by
  intro s t hinv hactive hagent h
  have hwait : seqAction s = .wait := by rw [seqAction_of_slot hinv.slot, hinv.life.wait_of_active hactive]
  obtain ⟨-, hhost⟩ | ⟨hdma, -⟩ | ⟨-, rfl⟩ | ⟨-, hturn⟩ := step_next h
  · rw [hostStep_frame hhost]; exact .inl rfl
  · exact absurd hdma hagent
  · exact .inl rfl
  · simp only [hwait, reduceCtorEq, false_and, exists_false, false_or, true_and, or_false] at hturn
    rw [hturn]
    exact waitStep_trace_cases (advance s)

/-! ### JOB -/

theorem submit_job (v : Word) (s : State) : (submit v s).job = s.job := by
  unfold submit
  split <;> rfl

/-- The host changes JOB only by consuming a response (R112). -/
theorem hostStep_job (h : hostStep s = .next t) : t.job = s.job ∨
    ((s.job = .complete ∨ s.job = .timedOut) ∧ t.job = .idle ∧ t.respValid = false) := by
  obtain rfl | ⟨v, ops, rfl⟩ | ⟨off, v, ops, rfl⟩ | ⟨addr, b, ops, -, rfl⟩ := hostStep_next h
  · exact .inl rfl
  · exact .inl rfl
  · obtain hw | ⟨w, -, hw⟩ | hw | hw | hw | hw | hw := portWrite_cases off v { s with hostOps := ops } <;> rw [hw]
    iterate 5 exact .inl rfl
    · rw [submit_job]; exact .inl rfl
    · rw [writeResp_eq]
      by_cases hconsume : v.getLsbD 0 = true ∧ s.respValid = true ∧ (s.job = .complete ∨ s.job = .timedOut)
      · exact .inr ⟨hconsume.2.2, if_pos hconsume, if_pos hconsume.1⟩
      · exact .inl (if_neg hconsume)
  · exact .inl rfl

theorem stageStep_job (s : State) : (stageStep s).job = s.job ∨ (stageStep s).job = .staging := by
  obtain ⟨c, -, hs⟩ | ⟨-, ⟨ps, -, hs⟩ | ⟨-, hs⟩⟩ := stageStep_cases s <;> rw [hs]
  · exact .inr rfl
  · exact .inr rfl
  · exact .inl rfl

theorem waitStep_job (s : State) : (waitStep s).job = s.job ∨ (waitStep s).job = .complete ∨
    ((waitStep s).job = .idle ∧ (waitStep s).seq = .stage) ∨ (waitStep s).job = .timedOut := by
  obtain ⟨-, hs⟩ | ⟨-, -, hs⟩ | ⟨-, -, hs⟩ := waitStep_cases s <;> rw [hs]
  · unfold completeStep
    split
    · exact .inr (.inr (.inl ⟨rfl, rfl⟩))
    · exact .inr (.inl rfl)
  · exact .inr (.inr (.inr rfl))
  · exact .inl rfl

/-- Settles O59: each operation that writes JOB, from the value that the invariant gives it there. -/
theorem jobFollowsItsTransitions : Obligations.JobFollowsItsTransitions := by
  intro s t hinv h hne
  obtain ⟨-, hhost⟩ | ⟨-, rfl⟩ | ⟨-, rfl⟩ | ⟨-, hturn⟩ := step_next h
  · obtain hsame | ⟨hcomplete | htimedOut, hidle, hvalid⟩ := hostStep_job hhost
    · exact absurd hsame hne
    · exact .inr (.inr (.inr (.inr (.inr (.inl ⟨hcomplete, hidle, hvalid⟩)))))
    · exact .inr (.inr (.inr (.inr (.inr (.inr ⟨htimedOut, hidle, hvalid⟩)))))
  · rw [dmaStep_frame rfl] at hne; exact absurd rfl hne
  · exact absurd rfl hne
  obtain ⟨-, hstage, hstart, hwait, -⟩ := seqAction_seq hinv.slot
  obtain ⟨i, -, hexec⟩ | ⟨-, rfl⟩ | ⟨hact, rfl⟩ | ⟨hact, rfl⟩ | ⟨hact, rfl⟩ | ⟨-, rfl⟩ := hturn
  · rw [exec_frame hexec] at hne; exact absurd rfl hne
  · exact absurd rfl hne
  · obtain ⟨-, hjob, -⟩ := hinv.life.of_stage (hstage hact)
    exact .inl ⟨hjob, (stageStep_job (advance s)).resolve_left hne⟩
  · obtain ⟨-, hjob, -⟩ := hinv.life.of_start (hstart hact)
    exact .inr (.inl ⟨hjob, rfl⟩)
  · obtain ⟨-, hjob, -⟩ := hinv.life.of_wait (hwait hact)
    obtain hcomplete | ⟨hidle, hmore⟩ | htimedOut := (waitStep_job (advance s)).resolve_left hne
    · exact .inr (.inr (.inl ⟨hjob, hcomplete⟩))
    · exact .inr (.inr (.inr (.inl ⟨hjob, hidle, hmore⟩)))
    · exact .inr (.inr (.inr (.inr (.inl ⟨hjob, htimedOut⟩))))
  · exact absurd rfl hne

end Sys2Proof.Machine
end

section
/-! PROOFS. The Sequencer's turn and the turns of the other agents (10_state.md R34, R38, 40_host_port.md R107,
60_exceptions.md R209), and the controller commands (30_encoding.md R89). -/

namespace Sys2Proof.Machine

/-! ### The Sequencer's turn -/

section
variable {s : State} (hturn : nextAgent s = .sequencer)
include hturn

theorem step_of_run {i : Instr} (hact : seqAction s = .run i) : step s = exec i (fetched s) := by
  simp only [step, hturn, turnOf, sequencerTurn, hact]

/-- A command in the bus slot runs whatever SEQ is (log 14). -/
theorem step_of_ctlSlot {w : BitVec 40} {i : Instr} (hslot : s.ctlSlot = some w)
    (hdecode : decodeController w = .ok i) : step s = exec i (fetched s) :=
  step_of_run hturn (by simp only [seqAction, hslot, hdecode])

variable (hslot : s.ctlSlot = none)
include hslot

/-- In EXEC the latched request runs (R107). -/
theorem step_of_latched {i : Instr} (hseq : s.seq = .exec) (hdecode : latchedRequest s = .ok i) :
    step s = exec i (fetched s) :=
  step_of_run hturn (by simp only [seqAction_of_slot hslot, hseq, hdecode])

/-- In IDLE the Sequencer has no step (R38, log 7). -/
theorem step_of_hold (hseq : s.seq = .idle) : step s = .next (advance s) := by
  have hact : seqAction s = .hold := by rw [seqAction_of_slot hslot, hseq]
  simp only [step, hturn, turnOf, sequencerTurn, hact]

theorem step_of_stage (hseq : s.seq = .stage) : step s = .next (stageStep (advance s)) := by
  have hact : seqAction s = .stage := by rw [seqAction_of_slot hslot, hseq]
  simp only [step, hturn, turnOf, sequencerTurn, hact]

end

/-- Settles O6: the decoder reads the latches, or the slot, and the turn runs what it reads. -/
theorem stepExecutesTheDecodedInstruction : Obligations.StepExecutesTheDecodedInstruction := by
  rintro s i hturn (⟨hslot, hseq, hdecode⟩ | ⟨w, hslot, hdecode⟩)
  · exact step_of_latched hturn hslot hseq hdecode
  · exact step_of_ctlSlot hturn hslot hdecode

/-- Settles O7: `withFetchWord` puts the Sequencer's turn first and the words where that turn decodes them. -/
theorem placedWordIsExecutedNext : Obligations.PlacedWordIsExecutedNext := by
  intro s nbits w i h
  rw [decodeTableWord] at h
  split at h
  case h_2 => cases h
  case h_1 j hdecode =>
    cases h
    unfold State.withFetchWord
    cases hwords : tableWords nbits w with
    | request cmd arg0 arg1 arg2 =>
      rw [hwords] at hdecode
      exact step_of_latched rfl rfl rfl hdecode
    | controller word =>
      rw [hwords] at hdecode
      exact step_of_ctlSlot rfl rfl hdecode

/-- Settles O8: the turn of each agent, and of the Sequencer in each state of SEQ. -/
theorem eachTurnIsItsAgentsStep : Obligations.EachTurnIsItsAgentsStep := by
  intro s
  refine ⟨fun hturn => ?_, fun hturn => ?_, fun hturn => ?_, fun hturn hslot => ?_⟩
  · rw [step, hturn]; rfl
  · rw [step, hturn]; rfl
  · rw [step, hturn]; rfl
  · exact ⟨step_of_hold hturn hslot, step_of_stage hturn hslot, step_of_start hturn hslot, step_of_wait hturn hslot⟩

/-! ### Controller commands -/

/-- A command is its byte as a command transaction and its payload, if any, as one burst (R65, R66, R89). -/
theorem sendController_written (cmd : Byte) (payload : List Byte) (s : State) : sendController cmd payload s = { s with
    trace := s.trace ++ ([.beginTx, .byte .command cmd, .endTx] ++
      (if payload = [] then [] else .beginTx :: (payload.map (BusEvent.byte .data) ++ [.endTx]))) } := by
  rw [sendController_eq, controllerEvents, dataEvents_eq_ite]
  rfl

/-- Settles O26: each of the nine commands is sent with its byte and its payload. -/
theorem controllerCommandsAreSent : Obligations.ControllerCommandsAreSent := by
  intro s b u v
  refine ⟨?_, ?_, ?_, ?_, ?_, ?_, ?_, ?_, ?_⟩ <;> exact congrArg Host.Outcome.next (sendController_written _ _ s)

end Sys2Proof.Machine
end

section
/-! PROOFS. The pixel streams (42_transfer.md R134, R135, R140, R141, R159, R160) and the window-and-stream requests
(43_compound.md R174, R177 to R179): the pixels that each source gives, as memory holds them or raced
(20_memory.md R59), and the two paths. -/

namespace Sys2Proof.Machine

variable {s : State}

/-! ### The pixels of a source -/

/-- A source whose pixel `k` stands at address `place k` gives the pixels whose two bytes are read there (R56, R134). -/
theorem sourcePixels_of_places {p : PixelSource} {place : Nat → Nat} {ps : List Half}
    (hplace : ∀ k, sourcePixel s p k = hostPixel s (place k))
    (hread : ∀ k (h : k < ps.length), hostByte s (place k) = some (loByte ps[k]) ∧
      hostByte s (place k + 1) = some (hiByte ps[k])) :
    sourcePixels s p 0 ps.length = some ps := by
  rw [sourcePixels, collect_eq_some]
  refine ⟨rfl, fun k hk => ?_⟩
  obtain ⟨hlo, hhi⟩ := hread k hk
  rw [Nat.zero_add, hplace, hostPixel_eq_some]
  exact ⟨_, _, hlo, hhi, (hiByte_append_loByte _).symm⟩

/-- Source bytes that are not raced are those of memory (R56). -/
theorem sourcePixels_of_not_raced {p : PixelSource} {place : Nat → Nat} {ps : List Half}
    (hplace : ∀ k, sourcePixel s p k = hostPixel s (place k)) (hraced : s.raced = false)
    (hmem : ∀ k (h : k < ps.length), Memory.read s.mem (place k % 2 ^ 32) = some (loByte ps[k]) ∧
      Memory.read s.mem ((place k + 1) % 2 ^ 32) = some (hiByte ps[k])) :
    sourcePixels s p 0 ps.length = some ps := by
  refine sourcePixels_of_places hplace fun k hk => ?_
  rw [hostByte_not_raced hraced, hostByte_not_raced hraced]
  exact hmem k hk

/-- The free value of a raced source byte (R59, log 10). -/
def racedAt (s : State) (k : Nat) : Byte := Config.racedByte s.tick (k % 2 ^ 32)

theorem hostByte_racedAt (hraced : s.raced = true) {k : Nat}
    (hadmitted : ∃ b, Memory.read s.mem (k % 2 ^ 32) = some b) : hostByte s k = some (racedAt s k) := by
  obtain ⟨b, hb⟩ := hadmitted
  exact hostByte_raced hraced hb

/-- The pixels of a raced source: both bytes of each are free (R59). -/
def racedPixels (s : State) (place : Nat → Nat) (n : Nat) : List Half :=
  (List.range n).map fun k => racedAt s (place k + 1) ++ racedAt s (place k)

theorem serAll_racedPixels (s : State) (place : Nat → Nat) (n : Nat) : serAll (racedPixels s place n) =
    (List.range n).flatMap fun k => [racedAt s (place k + 1), racedAt s (place k)] := by
  simp only [serAll, racedPixels, List.flatMap_map, ser, hiByte_append, loByte_append]

theorem sourcePixels_of_raced {p : PixelSource} {place : Nat → Nat} {n : Nat}
    (hplace : ∀ k, sourcePixel s p k = hostPixel s (place k)) (hraced : s.raced = true)
    (hadmitted : ∀ k < n, (∃ b, Memory.read s.mem (place k % 2 ^ 32) = some b) ∧
      ∃ b, Memory.read s.mem ((place k + 1) % 2 ^ 32) = some b) :
    sourcePixels s p 0 n = some (racedPixels s place n) := by
  have hlen : (racedPixels s place n).length = n := by simp [racedPixels]
  have hread := sourcePixels_of_places (ps := racedPixels s place n) hplace fun k hk => by
    obtain ⟨hlo, hhi⟩ := hadmitted k (hlen ▸ hk)
    simp only [racedPixels, List.getElem_map, List.getElem_range, hiByte_append, loByte_append]
    exact ⟨hostByte_racedAt hraced hlo, hostByte_racedAt hraced hhi⟩
  rwa [hlen] at hread

theorem hostBytes_of_raced {a : Word} {n : Nat} (hraced : s.raced = true)
    (hadmitted : ∀ j < n, ∃ b, Memory.read s.mem ((a.toNat + j) % 2 ^ 32) = some b) :
    hostBytes s a n = some ((List.range n).map fun j => racedAt s (a.toNat + j)) := by
  rw [hostBytes, collect_eq_some]
  refine ⟨by simp, fun j hj => ?_⟩
  rw [List.length_map, List.length_range] at hj
  rw [Nat.zero_add, hostByte_racedAt hraced (hadmitted j hj), List.getElem_map, List.getElem_range]

/-! ### WRASYNC and FILL -/

section
variable (harmed : s.winArmed = true)
include harmed

theorem exec_wrasync_of_stream {a : Word} {n : Nat} {t : State} (hstream : stream n (.buf a) s = some t) :
    exec (.wrasync a n) s = .next t := by
  rw [exec, execWrasync, if_pos harmed, hstream, orStuck_some]

theorem exec_fill_of_stream {n : Nat} {c : Half} {t : State} (hstream : stream n (.color c) s = some t) :
    exec (.fill n c) s = .next t := by
  rw [exec, execFill, if_pos harmed, hstream, orStuck_some]

end

/-- STREAM on the sync path, whether or not there is a pixel (R66, R135, R140). -/
theorem stream_of_pixels {p : PixelSource} {n : Nat} {ps : List Half} (hsync : s.asyncAvail = false)
    (hps : sourcePixels s p 0 n = some ps) :
    stream n p s = some (streamEnd .ok (emit (dataEvents (serAll ps)) s)) := by
  by_cases hn : n = 0
  · subst hn
    cases hps
    rw [stream_zero, serAll_nil, dataEvents, emit, List.append_nil]
  · exact stream_sync hn hsync hps

/-- The bytes of one colour, sent n times. -/
theorem serAll_replicate (n : Nat) (c : Half) :
    serAll (List.replicate n c) = (List.replicate n [hiByte c, loByte c]).flatten := List.flatMap_replicate

/-! ### FILLRECT and BLIT -/

/-- The window of a clipped rectangle, open. -/
def openClip (r : Clip) (s : State) : State :=
  openWindow (BitVec.ofInt 16 r.cx0) (BitVec.ofInt 16 r.cy0) (BitVec.ofInt 16 r.cx1) (BitVec.ofInt 16 r.cy1) s

section
variable {x y w h : Int} {r : Clip} (hclip : clip s.effW s.effH x y w h = some r)
include hclip

/-- A clipped window is armed as it is (R171). -/
theorem arm_of_clip : arm r.cx0 r.cy0 r.cx1 r.cy1 s = openClip r s := by
  obtain ⟨⟨hx0, hx, hx1⟩, ⟨hy0, hy, hy1⟩, -, -⟩ := clip_window hclip
  rw [arm_eq, clampedHalf_of_mem hx0 (by omega), clampedHalf_of_mem hy0 (by omega),
    clampedHalf_of_mem (by omega) (by omega), clampedHalf_of_mem (by omega) (by omega), openClip]

theorem clip_area : r.cw * r.ch = ((r.cx1 - r.cx0 + 1) * (r.cy1 - r.cy0 + 1)).toNat := by
  obtain ⟨-, -, hcw, hch⟩ := clip_window hclip
  rw [← hcw, ← hch, ← Nat.cast_mul, Int.toNat_natCast]

/-- The visible part on the async path: one window, and the stream is set up (R141, R174, R177). -/
theorem streamClip_of_async (p : PixelSource) (hasync : s.asyncAvail = true) :
    streamClip r p s = some (asyncSetup (r.cw * r.ch) p (openClip r s)) := by
  obtain ⟨hcw, hch, -⟩ := clip_extent hclip
  rw [streamClip, arm_of_clip hclip]
  exact stream_async (s := openClip r s) p (Nat.mul_ne_zero hcw.ne' hch.ne') hasync

/-- The visible part on the sync path: one window and one burst (R135, R174, R177). -/
theorem streamClip_of_pixels {p : PixelSource} {n : Nat} {ps : List Half} (hsync : s.asyncAvail = false)
    (harea : r.cw * r.ch = n) (hps : sourcePixels s p 0 n = some ps) :
    streamClip r p s = some (streamEnd .ok (emit (dataEvents (serAll ps)) (openClip r s))) := by
  rw [streamClip, arm_of_clip hclip, harea]
  exact stream_of_pixels (s := openClip r s) hsync hps

theorem exec_fillrect_of_clip {c : Half} {t : State} (hstream : streamClip r (.color c) s = some t) :
    exec (.fillrect x y w h c) s = .next t := by
  simp only [exec, execFillrect, hclip, hstream, orStuck_some]

theorem exec_blit_of_clip {a : Word} {t : State}
    (hstream : streamClip r (.blit a w.toNat r.sx r.sy r.cw) s = some t) : exec (.blit x y w h a) s = .next t := by
  simp only [exec, execBlit, hclip, hstream, orStuck_some]

end

/-! ### The statements -/

/-- Settles O17: the three ways of STREAM, the pixels read from memory. -/
theorem wrasyncResult : Obligations.WrasyncResult := by
  refine ⟨fun cmd _ _ _ hop => decodeRequest_wrasync (congrArg BitVec.toNat hop), fun a ps s harmed => ⟨?_, ?_, ?_⟩⟩
  · rintro rfl
    exact exec_wrasync_of_stream harmed (stream_zero _ s)
  · intro hne hasync
    exact exec_wrasync_of_stream harmed (stream_async _ (mt List.length_eq_zero_iff.mp hne) hasync)
  · intro hne hsync hraced hmem
    rw [exec_wrasync_of_stream harmed
      (stream_of_pixels hsync (sourcePixels_of_not_raced (fun _ => rfl) hraced hmem)),
      dataEvents_of_ne_nil (mt serAll_eq_nil.mp hne), serAll, List.map_flatMap]
    rfl

/-- Settles O18: the three ways of STREAM, which a colour never leaves stuck. -/
theorem fillResult : Obligations.FillResult := by
  refine ⟨fun cmd _ _ _ hop => decodeRequest_fill (congrArg BitVec.toNat hop), fun n c s harmed => ?_⟩
  split
  case isTrue hn => subst hn; exact exec_fill_of_stream harmed (stream_zero _ s)
  case isFalse hn =>
    split
    case isTrue hasync => exact exec_fill_of_stream harmed (stream_async _ hn hasync)
    case isFalse hsync =>
      have hsome : serAll (List.replicate n c) ≠ [] := by simpa [serAll_eq_nil] using hn
      rw [exec_fill_of_stream harmed (stream_of_pixels (eq_false_of_ne_true hsync) (sourcePixels_color s c 0 n)),
        dataEvents_of_ne_nil hsome, serAll_replicate, List.map_flatten, List.map_replicate]
      rfl

/-- Settles O21: the visible part clips to the window of the statement, and its area is cw * ch. -/
theorem fillrectResult : Obligations.FillrectResult := by
  refine ⟨fun cmd _ _ _ hop => decodeRequest_fillrect (congrArg BitVec.toNat hop), ?_⟩
  intro x y w h c s hw hh cx0 cy0 cx1 cy1 n window hx hy
  have hclip := clip_some hw hh hx hy
  split
  case isTrue hasync =>
    rw [exec_fillrect_of_clip hclip (streamClip_of_async hclip _ hasync), clip_area hclip]
    rfl
  case isFalse hsync =>
    rw [exec_fillrect_of_clip hclip (streamClip_of_pixels hclip (eq_false_of_ne_true hsync) (clip_area hclip)
      (sourcePixels_color s c 0 _)), serAll_replicate]
    rfl

/-- Settles O22: the visible part as in `fillrectResult`, each pixel read at its place in the array. -/
theorem blitResult : Obligations.BlitResult := by
  refine ⟨fun cmd _ _ _ hop => decodeRequest_blit (congrArg BitVec.toNat hop), ?_⟩
  intro x y w h a ps s hw hh cx0 cy0 cx1 cy1 cw window place hx hy hlen
  have hclip := clip_some hw hh hx hy
  have harea := (clip_area hclip).trans hlen.symm
  refine ⟨fun hasync => ?_, fun hsync hraced hmem => ?_⟩
  · rw [exec_blit_of_clip hclip (streamClip_of_async hclip _ hasync), harea]
    rfl
  · have hps := sourcePixels_of_not_raced (p := .blit a w.toNat (cx0 - x).toNat (cy0 - y).toNat cw) (fun _ => rfl)
      hraced hmem
    exact exec_blit_of_clip hclip (streamClip_of_pixels hclip hsync harea hps)

/-- Settles O16: the same four meanings on the free bytes of a raced source. -/
theorem racedSourceBytesAreFree : Obligations.RacedSourceBytesAreFree := by
  intro a n s hraced free admitted
  refine ⟨fun harmed hbytes => ?_, fun harmed hsync hbytes => ?_, fun cb hcb hbytes => ?_, ?_⟩
  · exact exec_wrsync_of_hostBytes harmed (hostBytes_of_raced hraced hbytes)
  · have hps := sourcePixels_of_raced (p := .buf a) (n := n) (fun _ => rfl) hraced
      fun k hk => ⟨hbytes (2 * k) (by omega), hbytes (2 * k + 1) (by omega)⟩
    rw [exec_wrasync_of_stream harmed (stream_of_pixels hsync hps), serAll_racedPixels]
    rfl
  · rw [exec_sendcmd_of_hostBytes (mt mapperOwned_iff.mp hcb) (hostBytes_of_raced hraced hbytes), controllerEvents,
      emit, ← List.append_assoc]
    rfl
  · intro x y w h hsync hw hh cx0 cy0 cx1 cy1 cw place hx hy hn hbytes
    have hclip := clip_some hw hh hx hy
    have harea := (clip_area hclip).trans hn.symm
    have hps := sourcePixels_of_raced (p := .blit a w.toNat (cx0 - x).toNat (cy0 - y).toNat cw) (fun _ => rfl)
      hraced hbytes
    rw [exec_blit_of_clip hclip (streamClip_of_pixels hclip hsync harea hps), serAll_racedPixels]
    rfl

end Sys2Proof.Machine
end

section
/-! PROOFS. The register port (10_state.md R40 to R51, 20_memory.md R59, R61, R62, 40_host_port.md R100, R101,
30_encoding.md R94, R95): what reads return, which accesses are admitted, the host's stores, and the register writes of
a request line. -/

namespace Sys2Proof.Machine

/-! ### STATUS -/

/-- STATUS bit by bit above BUSY (R40). -/
theorem statusWord_fields (s : State) :
    (statusWord s).getLsbD 1 = s.respValid ∧ (statusWord s).extractLsb' 2 3 = jobCode s.job ∧
    (statusWord s).extractLsb' 5 2 = seenRot s ∧ (statusWord s).getLsbD 7 = seenWinArmed s ∧
    (statusWord s).getLsbD 8 = s.drop ∧ (statusWord s).getLsbD 9 = s.backlight ∧
    (statusWord s).getLsbD 10 = s.resetLine ∧ (statusWord s).extractLsb' 11 21 = 0 := by
  unfold statusWord
  refine ⟨?_, ?_, ?_, ?_, ?_, ?_, ?_, ?_⟩
  case refine_2 =>
    iterate 2 rw [BitVec.extractLsb'_append_eq_of_le (by decide)]
    exact BitVec.extractLsb'_append_eq_right
  case refine_3 =>
    iterate 3 rw [BitVec.extractLsb'_append_eq_of_le (by decide)]
    exact BitVec.extractLsb'_append_eq_right
  case refine_8 =>
    iterate 7 rw [BitVec.extractLsb'_append_eq_of_le (by decide)]
    exact BitVec.extractLsb'_append_eq_left
  all_goals
    simp only [BitVec.getLsbD_append, BitVec.getLsbD_ofBool]
    rfl

theorem busy_iff {s : State} : busy s = true ↔ s.seq ≠ .idle := bne_iff_ne

theorem busy_of_idle {s : State} (h : s.seq = .idle) : busy s = false := by rw [busy, h]; rfl

theorem busy_of_not_idle {s : State} (h : s.seq ≠ .idle) : busy s = true := busy_iff.mpr h

/-- After reset only ROT is not 0 in STATUS (R40, R224). -/
theorem statusWord_resetWith {c : Config} (d : ResetDraws) (hlegal : configLegal c = true) :
    statusWord (State.resetWith c d) = BitVec.ofNat 32 (32 * c.initRot) := by
  obtain ⟨-, -, -, -, hrot⟩ := configLegal_iff.mp hlegal
  have hword : statusWord (State.resetWith c d) = (0 : BitVec 21) ++ (0 : BitVec 1) ++ (0 : BitVec 1) ++ (0 : BitVec 1)
      ++ (0 : BitVec 1) ++ BitVec.ofNat 2 c.initRot ++ (0 : BitVec 3) ++ (0 : BitVec 1) ++ (0 : BitVec 1) := rfl
  rw [hword]
  generalize c.initRot = r at hrot ⊢
  interval_cases r <;> rfl

/-- Settles O33: the fields of `statusWord_fields`, ROT and WIN_ARMED as `busy` decides. -/
theorem statusReadsItsFields : Obligations.StatusReadsItsFields := by
  refine ⟨fun s => ?_, fun _ _ => rfl, fun c d hlegal => statusWord_resetWith d hlegal⟩
  obtain ⟨hvalid, hjob, hrot, harmed, hdrop, hbacklight, hreset, hzero⟩ := statusWord_fields s
  refine ⟨?_, hvalid, hjob, fun hidle => ?_, fun hbusy => ?_, hdrop, hbacklight, hreset, hzero⟩
  · rw [portRead_status_busy, Bool.eq_iff_iff, busy_iff, decide_eq_true_iff]
  · rw [seenRot, busy_of_idle hidle] at hrot
    rw [seenWinArmed, busy_of_idle hidle] at harmed
    exact ⟨hrot, harmed⟩
  · rw [seenRot, busy_of_not_idle hbusy] at hrot
    rw [seenWinArmed, busy_of_not_idle hbusy] at harmed
    exact ⟨hrot, harmed⟩

/-! ### Reads and POLL -/

section
variable {s : State} {rest : List HostOp} {off : Nat} (hlt : off < 64) (halign : off % 4 = 0)
include hlt halign

theorem hostStep_of_register_read (hops : s.hostOps = .read (portBase s.cfg + BitVec.ofNat 32 off) 32 :: rest) :
    hostStep s = .next { s with hostData := portRead s off, hostOps := rest } := by
  simp only [hostStep, hops, portOffset_of_register s.cfg hlt halign]

theorem hostStep_of_register_poll {mask v : Word}
    (hops : s.hostOps = .poll (portBase s.cfg + BitVec.ofNat 32 off) mask v :: rest) :
    hostStep s = .next { s with
      hostData := portRead s off, hostOps := if portRead s off &&& mask = v then rest else s.hostOps } := by
  simp only [hostStep, hops, portOffset_of_register s.cfg hlt halign]

end

/-- The halves of a register of two 16-bit fields (R41, R42, R46, R47). -/
theorem extract_halves (hi lo : Half) :
    (hi ++ lo).extractLsb' 0 16 = lo ∧ (hi ++ lo).extractLsb' 16 16 = hi :=
  ⟨BitVec.extractLsb'_append_eq_right, BitVec.extractLsb'_append_eq_left⟩

/-- CAPS (R44). -/
theorem capsWord_fields (s : State) : (capsWord s).getLsbD 0 = s.cfg.asyncEn ∧
    (capsWord s).getLsbD 1 = s.asyncAvail ∧ (capsWord s).extractLsb' 2 30 = 0 := by
  unfold capsWord
  refine ⟨?_, ?_, ?_⟩
  case refine_3 =>
    rw [BitVec.extractLsb'_append_eq_of_le (by decide)]
    exact BitVec.extractLsb'_append_eq_left
  all_goals
    simp only [BitVec.getLsbD_append, BitVec.getLsbD_ofBool]
    rfl

/-- RESP (R50). -/
theorem respWord_fields (s : State) : (respWord s).getLsbD 0 = s.respValid ∧
    (respWord s).extractLsb' 1 2 = respCodeBits s.respCode ∧ (respWord s).extractLsb' 3 29 = 0 := by
  unfold respWord
  refine ⟨?_, ?_, ?_⟩
  · simp only [BitVec.getLsbD_append, BitVec.getLsbD_ofBool]
    rfl
  · rw [BitVec.extractLsb'_append_eq_of_le (by decide)]
    exact BitVec.extractLsb'_append_eq_right
  · rw [BitVec.extractLsb'_append_eq_of_le (by decide)]
    exact BitVec.extractLsb'_append_eq_left

/-- EFF_DIM, WIN_LO and WIN_HI are free while busy (R101, log 12), else they read their two registers. -/
theorem portRead_of_busy {s : State} (h : s.seq ≠ .idle) : portRead s 0x04 = Config.busyEffDim s.tick ∧
    portRead s 0x18 = Config.busyWinLo s.tick ∧ portRead s 0x1C = Config.busyWinHi s.tick :=
  ⟨if_pos (busy_of_not_idle h), if_pos (busy_of_not_idle h), if_pos (busy_of_not_idle h)⟩

theorem portRead_of_idle {s : State} (h : s.seq = .idle) : portRead s 0x04 = s.effH ++ s.effW ∧
    portRead s 0x18 = s.winY0 ++ s.winX0 ∧ portRead s 0x1C = s.winY1 ++ s.winX1 :=
  have hfree : ¬ busy s = true := ne_true_of_eq_false (busy_of_idle h)
  ⟨if_neg hfree, if_neg hfree, if_neg hfree⟩

/-- Settles O34: the word read is `portRead`, and each register's word is taken apart by its fields. -/
theorem hostReadsReturnTheRegisters : Obligations.HostReadsReturnTheRegisters := by
  intro s rest off hlt halign
  refine ⟨portRead s off, hostStep_of_register_read hlt halign, fun mask value => hostStep_of_register_poll hlt halign,
    ?_, fun hbusy => ?_, fun hidle => ?_, ?_, ?_, ?_, ?_, fun hidle => ?_, fun hidle => ?_, ?_, ?_, ?_, ?_, ?_⟩
  · rintro rfl; rfl
  · obtain ⟨heff, hlo, hhi⟩ := portRead_of_busy hbusy
    exact ⟨fun h => h ▸ heff, fun h => h ▸ hlo, fun h => h ▸ hhi⟩
  · rintro rfl; rw [(portRead_of_idle hidle).1]; exact extract_halves _ _
  · rintro rfl; exact extract_halves _ _
  · rintro rfl; rfl
  · rintro rfl; exact capsWord_fields s
  · rintro rfl; rfl
  · rintro rfl; rw [(portRead_of_idle hidle).2.1]; exact extract_halves _ _
  · rintro rfl; rw [(portRead_of_idle hidle).2.2]; exact extract_halves _ _
  · rintro rfl; rfl
  · rintro rfl; rfl
  · rintro rfl; rfl
  · rintro rfl; exact respWord_fields s
  · rintro (rfl | rfl | rfl | rfl) <;> rfl

/-! ### Which accesses are admitted -/

/-- The port admits a 32-bit access at a word-aligned offset of the block, and no other (R61, R62). -/
theorem portOffset_admitted {c : Config} {addr : Word} {bits : Nat}
    (h : bits = 32 ∧ ∃ k < 16, addr = portBase c + BitVec.ofNat 32 (4 * k)) :
    ∃ off, portOffset c addr bits = some off := by
  obtain ⟨rfl, k, hk, rfl⟩ := h
  exact ⟨4 * k, portOffset_of_register c (by omega) (by omega)⟩

theorem portOffset_refused {c : Config} {addr : Word} {bits : Nat}
    (h : ¬ (bits = 32 ∧ ∃ k < 16, addr = portBase c + BitVec.ofNat 32 (4 * k))) : portOffset c addr bits = none := by
  refine if_neg fun ⟨hbits, hlt, halign⟩ => h ⟨hbits, (addr - portBase c).toNat / 4, by omega, ?_⟩
  rw [Nat.mul_div_cancel' (Nat.dvd_of_mod_eq_zero halign), BitVec.ofNat_toNat, BitVec.setWidth_eq, add_sub_cancel]

section
variable {s : State} {rest : List HostOp} {addr v mask : Word} {bits off : Nat}

theorem hostStep_of_admitted (hoff : portOffset s.cfg addr bits = some off) :
    (s.hostOps = .read addr bits :: rest → ∃ t, hostStep s = .next t) ∧
      (s.hostOps = .write addr bits v :: rest → ∃ t, hostStep s = .next t) := by
  constructor <;> intro hops <;> simp only [hostStep, hops, hoff] <;> exact ⟨_, rfl⟩

theorem hostStep_of_refused (hoff : portOffset s.cfg addr bits = none) :
    (s.hostOps = .read addr bits :: rest → hostStep s = .refused .portAccess) ∧
      (s.hostOps = .write addr bits v :: rest → hostStep s = .refused .portAccess) := by
  constructor <;> intro hops <;> simp only [hostStep, hops, hoff]

theorem hostStep_of_poll_admitted (hops : s.hostOps = .poll addr mask v :: rest)
    (hoff : portOffset s.cfg addr 32 = some off) : ∃ t, hostStep s = .next t := by
  simp only [hostStep, hops, hoff]
  exact ⟨_, rfl⟩

theorem hostStep_of_poll_refused (hops : s.hostOps = .poll addr mask v :: rest)
    (hoff : portOffset s.cfg addr 32 = none) : hostStep s = .refused .portAccess := by
  simp only [hostStep, hops, hoff]

/-- A byte store outside the block is the host's own (R59, log 16). -/
theorem hostStep_of_store {b : Byte} (hops : s.hostOps = .store addr b :: rest) (haddr : inBlock s.cfg addr = false) :
    hostStep s = .next (hostStore addr b { s with hostOps := rest }) := by
  simp only [hostStep, hops, haddr, Bool.false_eq_true, if_false]

/-- A byte store into the block is an access of another width (R61). -/
theorem hostStep_of_store_refused {b : Byte} (hops : s.hostOps = .store addr b :: rest)
    (haddr : inBlock s.cfg addr = true) : hostStep s = .refused .portAccess := by
  simp only [hostStep, hops, haddr, if_true]

end

/-- Settles O38: reads, writes and POLLs by `portOffset`, byte stores by `inBlock_iff`. -/
theorem onlyAlignedWordAccessesAreAdmitted : Obligations.OnlyAlignedWordAccessesAreAdmitted := by
  intro s rest addr mask v b bits
  refine ⟨fun h => ?_, fun h => hostStep_of_refused (portOffset_refused h), fun hops => ⟨fun h => ?_, fun h => ?_⟩,
    fun hops => ⟨fun h => ?_, fun h => ?_⟩⟩
  · obtain ⟨off, hoff⟩ := portOffset_admitted h
    exact hostStep_of_admitted hoff
  · obtain ⟨off, hoff⟩ := portOffset_admitted ⟨rfl, h⟩
    exact hostStep_of_poll_admitted hops hoff
  · exact hostStep_of_poll_refused hops (portOffset_refused fun hboth => h hboth.2)
  · exact hostStep_of_store_refused hops ((inBlock_iff s.cfg addr).mpr h)
  · exact ⟨_, hostStep_of_store hops (eq_false_of_ne_true (mt (inBlock_iff s.cfg addr).mp h))⟩

/-! ### Stores to host memory -/

theorem currentReads_iff {s : State} {addr : Word} : currentReads s addr = true ↔
    ∃ i, latchedRequest s = .ok i ∧ readsByte s.effW s.effH addr i = true := by
  rw [currentReads]
  cases latchedRequest s <;> simp

/-- Settles O39: one byte is written, and the store races the request exactly if it reads that byte. -/
theorem hostStoreRacesTheRequestItTouches : Obligations.HostStoreRacesTheRequestItTouches := by
  intro s rest addr b hops haddr
  refine ⟨_, hostStep_of_store hops haddr, rfl, Memory.read_write_same _ _ b,
    fun a ha => Memory.read_write_other _ b ha, ?_⟩
  rw [hostStore_raced, Bool.or_eq_true, Bool.and_eq_true, busy_iff, currentReads_iff]
  rfl

/-! ### A request line -/

section
variable {s : State} {rest : List HostOp} {off : Nat} {v : Word}

/-- The first of several host turns writes a register. -/
theorem hostTurns_of_register_write {n : Nat} (hlt : off < 64) (halign : off % 4 = 0)
    (hops : s.hostOps = .write (portBase s.cfg + BitVec.ofNat 32 off) 32 v :: rest) :
    hostTurns (n + 1) s = hostTurns n (portWrite off v { s with hostOps := rest }) := by
  rw [hostTurns, hostStep_of_register_write hlt halign hops]

/-- The last write of a request line submits it, and a READY block accepts it (R105). -/
theorem hostTurns_of_submit (hready : ready s = true) (hops : s.hostOps = [storeAt s.cfg 0x30 v]) :
    hostTurns 1 s = .next (accept v { s with hostOps := [] }) := by
  rw [hostTurns_of_register_write (off := 0x30) (by decide) (by decide) hops]
  exact congrArg Host.Outcome.next (submit_of_ready v (s := { s with hostOps := [] }) hready)

end

/-- The three argument registers, in the order of their offsets (R48). -/
def argRegs (s : State) : List Word := [s.arg0, s.arg1, s.arg2]

/-- The store of one argument word sets its register, and takes the store off the queue (R94, R104). -/
theorem hostTurns_of_arg {s : State} {j : Nat} {v : Word} {rest : List HostOp} (hj : j < 3)
    (hops : s.hostOps = storeAt s.cfg (BitVec.ofNat 32 (0x20 + 4 * j)) v :: rest) :
    ∃ u, (∀ n, hostTurns (n + 1) s = hostTurns n u) ∧
      u = { s with hostOps := rest, arg0 := u.arg0, arg1 := u.arg1, arg2 := u.arg2 } ∧
      argRegs u = (argRegs s).set j v := by
  refine ⟨_, fun n => hostTurns_of_register_write (by omega) (by omega) hops, ?_⟩
  interval_cases j <;> exact ⟨rfl, rfl⟩

/-- The stores of a line's argument words set the argument registers from the `j`-th on, and nothing else (R94). -/
theorem hostTurns_of_args {args : List Word} {rest : List HostOp} {j : Nat} {s : State} (hlen : j + args.length ≤ 3)
    (hops : s.hostOps = argStores s.cfg (BitVec.ofNat 32 (0x20 + 4 * j)) args ++ rest) :
    ∃ u, (∀ n, hostTurns (n + args.length) s = hostTurns n u) ∧
      u = { s with hostOps := rest, arg0 := u.arg0, arg1 := u.arg1, arg2 := u.arg2 } ∧
      (∀ k (h : k < args.length), (argRegs u)[j + k]? = some args[k]) ∧
      ∀ k < j, (argRegs u)[k]? = (argRegs s)[k]? := by
  induction args generalizing j s with
  | nil =>
    refine ⟨s, fun n => rfl, ?_, nofun, fun _ _ => rfl⟩
    rw [← show s.hostOps = rest from hops]
  | cons v vs ih =>
    rw [List.length_cons] at hlen
    have hnext : BitVec.ofNat 32 (0x20 + 4 * j) + 4 = BitVec.ofNat 32 (0x20 + 4 * (j + 1)) := by
      rw [Nat.mul_succ, ← Nat.add_assoc, BitVec.ofNat_add (_ + _)]
      rfl
    rw [argStores, hnext] at hops
    obtain ⟨u, hfirst, hframe, hset⟩ := hostTurns_of_arg (by omega) hops
    have hops' : u.hostOps = argStores u.cfg (BitVec.ofNat 32 (0x20 + 4 * (j + 1))) vs ++ rest := by rw [hframe]; rfl
    obtain ⟨w, hturns, hframe', hwords, hlow⟩ := ih (by omega) hops'
    refine ⟨w, fun n => (hfirst _).trans (hturns n), ?_, fun k hk => ?_, fun k hk => ?_⟩
    · rw [hframe] at hframe'
      exact hframe'
    · cases k with
      | zero =>
        have hj : j < (argRegs s).length := by show j < 3; omega
        rw [Nat.add_zero, hlow j (Nat.lt_succ_self j), hset, List.getElem?_set_self hj]
        rfl
      | succ k => rw [← Nat.add_assoc, Nat.add_right_comm]; exact hwords k (Nat.lt_of_succ_lt_succ hk)
    · rw [hlow k (Nat.lt_succ_of_lt hk), hset, List.getElem?_set_ne hk.ne']

/-- The writes of up to three argument words and a header, on a READY block: the words are latched in order, and an
argument register that the line does not write is latched as it stands (R94, R106). -/
theorem hostTurns_of_line {s : State} {args : List Word} {cmd : Word} (hlen : args.length ≤ 3) (hready : ready s = true)
    (hops : s.hostOps = argStores s.cfg 0x20 args ++ [storeAt s.cfg 0x30 cmd]) :
    ∃ t, hostTurns (1 + args.length) s = .next t ∧ t.seq = .exec ∧ t.hostOps = [] ∧ t.oplCmd = cmd ∧
      args <+: [t.oplArg0, t.oplArg1, t.oplArg2] ∧ t.trace = s.trace ∧ t.drop = s.drop := by
  obtain ⟨u, hturns, hframe, hargs, -⟩ := hostTurns_of_args (j := 0) (by rwa [Nat.zero_add]) hops
  have hready' : ready u = true := by rw [hframe]; exact hready
  have hops' : u.hostOps = [storeAt u.cfg 0x30 cmd] := by rw [hframe]
  refine ⟨_, (hturns 1).trans (hostTurns_of_submit hready' hops'), rfl, rfl, rfl, ?_, ?_, ?_⟩
  · exact List.prefix_iff_getElem?.mpr fun k hk => (congrArg _ (Nat.zero_add k)).symm.trans (hargs k hk)
  · show u.trace = s.trace
    rw [hframe]
  · show u.drop = s.drop
    rw [hframe]

theorem argStores_length (c : Config) (off : Word) (args : List Word) :
    (argStores c off args).length = args.length := by
  induction args generalizing off with
  | nil => rfl
  | cons v vs ih => rw [argStores, List.length_cons, List.length_cons, ih]

/-- Settles O40: the line's words are latched, and decode to its instruction by `decodeRequest_encoded`. -/
theorem assembledRequestIsAccepted : Obligations.AssembledRequestIsAccepted := by
  intro s i hreq hwf hidle hvalid
  obtain ⟨cmd, b0, b1, b2, hencode, hargs⟩ := encode_request hreq
  have hline : assembleRequest s.cfg i = some (argStores s.cfg 0x20 (argWords i) ++ [storeAt s.cfg 0x30 cmd]) := by
    simp only [assembleRequest, hencode, hwf, if_true]
  refine ⟨_, hline, fun hops => ?_⟩
  obtain ⟨t, hturns, hseq, hdone, hcmd, hlatched, htrace, hdrop⟩ :=
    hostTurns_of_line hargs.length_le (ready_iff.mpr ⟨hidle, hvalid⟩) hops
  refine ⟨t, by rwa [List.length_append, argStores_length, Nat.add_comm], hseq, hdone, ?_, htrace, hdrop⟩
  rw [latchedRequest, hcmd]
  exact decodeRequest_encoded hwf hencode hlatched

end Sys2Proof.Machine
end

section
/-! PROOFS. The scheduler and the channel (42_transfer.md R144, R146 to R154, R164, 40_host_port.md R111): the STAGE and
WAIT steps, the channel's turns over one chunk, and the bound of a WAIT. -/

namespace Sys2Proof.Machine

/-! ### STAGE -/

section
variable {s : State}

/-- A memory source is staged once its pixels are read (R144). -/
theorem stageStep_of_pixels {ps : List Half} (hsrc : ∀ c, s.src ≠ .color c)
    (hps : sourcePixels s s.src s.donePx.toNat (chunkPixels s) = some ps) :
    stageStep s = staged (chunkPixels s) (stagePixels ps s) := by
  obtain ⟨c, hc, -⟩ | ⟨-, ⟨qs, hqs, hs⟩ | ⟨hnone, -⟩⟩ := stageStep_cases s
  · exact absurd hc (hsrc c)
  · rwa [Option.some.inj (hps.symm.trans hqs)]
  · cases hps.symm.trans hnone

/-- STAGE is stuck if a pixel of the chunk is not admitted (R215). -/
theorem stageStep_of_none (hnone : sourcePixels s s.src s.donePx.toNat (chunkPixels s) = none) : stageStep s = s := by
  obtain ⟨c, hc, -⟩ | ⟨-, ⟨qs, hqs, -⟩ | ⟨-, hs⟩⟩ := stageStep_cases s
  · rw [hc, sourcePixels_color] at hnone
    cases hnone
  · cases hnone.symm.trans hqs
  · exact hs

/-- A colour is staged without a read (R144). -/
theorem stageStep_of_color {c : Half} (hsrc : s.src = .color c) :
    stageStep s = staged (chunkPixels s) (prefill c s) := by
  rw [stageStep, hsrc]

theorem prefill_of_prefilled (c : Half) (h : s.prefilled = true) : prefill c s = s := if_pos h

theorem prefill_of_not_prefilled (c : Half) (h : s.prefilled = false) : prefill c s =
    { stagePixels (List.replicate (min s.chunkMax.toNat s.totalPx.toNat) c) s with prefilled := true } :=
  if_neg (ne_true_of_eq_false h)

end

/-- A buffer of one colour reads that colour's bytes (R144). -/
theorem read_staged_color (m : Memory) (n : Nat) (c : Half) :
    (∀ j < n, Memory.read (Memory.writeBytes m 0 (serAll (List.replicate n c))) (2 * j) = some (hiByte c) ∧
      Memory.read (Memory.writeBytes m 0 (serAll (List.replicate n c))) (2 * j + 1) = some (loByte c)) ∧
    ∀ k, 2 * n ≤ k → Memory.read (Memory.writeBytes m 0 (serAll (List.replicate n c))) k = Memory.read m k := by
  have hstaged := read_staged m (List.replicate n c)
  simpa only [List.length_replicate, List.getElem_replicate] using hstaged

/-- Settles O42: the chunk is read on the state whose turn has begun, and `read_staged` says what SCRATCH then holds. -/
theorem stageStepStagesTheChunk : Obligations.StageStepStagesTheChunk := by
  intro s ps hturn hslot hseq hlen u
  rw [step_of_stage hturn hslot hseq]
  have hchunk : chunkPixels (advance s) = ps.length := hlen.symm
  refine ⟨fun hsrc hread => ?_, fun hnone => ?_, fun c hsrc hfilled => ?_, fun c hsrc hfilled => ?_⟩
  · have hps : sourcePixels (advance s) s.src s.donePx.toNat (chunkPixels (advance s)) = some ps :=
      (collect_eq_some _ _ _ _).mpr ⟨hlen, hread⟩
    obtain ⟨hlow, hhigh⟩ := read_staged s.scratch ps
    refine ⟨_, congrArg _ (stageStep_of_pixels (s := advance s) hsrc hps), ?_, hlow, hhigh⟩
    rw [hchunk]
    rfl
  · have hread : sourcePixels (advance s) s.src s.donePx.toNat (chunkPixels (advance s)) = none := by
      rw [hchunk]
      exact collect_eq_none.mpr hnone
    exact congrArg _ (stageStep_of_none (s := advance s) hread)
  · rw [stageStep_of_color (s := advance s) hsrc, hchunk, prefill_of_prefilled (s := advance s) c hfilled]
    rfl
  · obtain ⟨hlow, hhigh⟩ := read_staged_color s.scratch (min s.chunkMax.toNat s.totalPx.toNat) c
    rw [stageStep_of_color (s := advance s) hsrc, hchunk, prefill_of_not_prefilled (s := advance s) c hfilled]
    exact ⟨_, rfl, rfl, hlow, hhigh⟩

/-! ### WAIT -/

section
variable {s : State}

theorem waitStep_of_completion (h : s.completionPending = true) : waitStep s = completeStep s := if_pos h

/-- Below the bound, with no completion pending, WAIT holds (R149). -/
theorem waitStep_of_hold (hnone : s.completionPending = false) (hbelow : (elapsed s).toNat < s.tmo.toNat) :
    waitStep s = s := by
  have hbound : ¬ s.tmo ≤ elapsed s := by rw [BitVec.le_def]; omega
  rw [waitStep, if_neg (ne_true_of_eq_false hnone), if_neg hbound]

end

/-- Settles O44: the sum of the pixel counts does not wrap, so the comparison is that of the numbers. -/
theorem waitTakesACompletionOrHolds : Obligations.WaitTakesACompletionOrHolds := by
  intro s hturn hslot hseq
  rw [step_of_wait hturn hslot hseq]
  refine ⟨fun hpending hsum => ?_, fun hnone hbelow => congrArg _ (waitStep_of_hold (s := advance s) hnone hbelow)⟩
  have hmore : s.donePx + s.curPx < s.totalPx ↔ s.donePx.toNat + s.curPx.toNat < s.totalPx.toNat := by
    rw [BitVec.lt_def, BitVec.toNat_add, Nat.mod_eq_of_lt hsum]
  rw [waitStep_of_completion (s := advance s) hpending, completeStep]
  exact congrArg _ (if_congr hmore rfl rfl)

/-- Settles O50: the fields of `timeoutEnd` and of `writeResp`. -/
theorem timeoutNeverLocksTheBlock : Obligations.TimeoutNeverLocksTheBlock := by
  intro s v hseq hnone hbound
  rw [waitStep_of_timeout hnone (BitVec.le_def.mp hbound)]
  refine ⟨rfl, rfl, ?_⟩
  rw [writeResp_eq]
  exact ⟨rfl, rfl, rfl, rfl, rfl, rfl, rfl, rfl, rfl⟩

/-! ### The channel's turn -/

section
variable {s : State}

theorem dmaLimit_of_deliver (h : s.dmaFate = .deliver) : dmaLimit s = s.dmaLen.toNat := by rw [dmaLimit, h]

theorem dmaLimit_of_stall {k : Nat} (h : s.dmaFate = .stall k) : dmaLimit s = k := by rw [dmaLimit, h]

/-- Below its limit the channel sends the next byte of SCRATCH, and End after the chunk's last (R151). -/
theorem dmaStep_of_byte {b : Byte} (hactive : s.dmaActive = true) (hbelow : s.dmaSent.toNat < dmaLimit s)
    (hlimit : dmaLimit s ≤ s.dmaLen.toNat) (hread : Memory.read s.scratch s.dmaSent.toNat = some b) :
    dmaStep s = { s with
      dmaSent := BitVec.ofNat 32 (s.dmaSent.toNat + 1)
      trace := s.trace ++ (if s.dmaSent.toNat + 1 = s.dmaLen.toNat then [.byte .data b, .endTx]
        else [.byte .data b]) } := by
  have hnext : s.dmaSent + 1 = BitVec.ofNat 32 (s.dmaSent.toNat + 1) := by bv_omega
  have hlast : s.dmaSent + 1 = s.dmaLen ↔ s.dmaSent.toNat + 1 = s.dmaLen.toNat := by bv_omega
  have hbyte : scratchByte s s.dmaSent.toNat = b := by rw [scratchByte, hread]
  rw [dmaStep, if_pos ⟨hactive, hbelow⟩]
  simp only [dmaByteStep, hbyte, hlast]
  rw [hnext, apply_ite (List.cons (BusEvent.byte .data b))]

/-- A delivered chunk raises its completion after its last byte (R152). -/
theorem dmaStep_of_sent (hactive : s.dmaActive = true) (hfate : s.dmaFate = .deliver) (hsent : s.dmaSent = s.dmaLen) :
    dmaStep s = { s with completionPending := true, dmaActive := false } := by
  have hdone : ¬ s.dmaSent.toNat < dmaLimit s := by rw [dmaLimit_of_deliver hfate, hsent]; exact lt_irrefl _
  have hdeliver : dmaDeliver s = true := by rw [dmaDeliver, hfate]; rfl
  rw [dmaStep, if_neg fun h => hdone h.2, if_pos ⟨hactive, hdeliver, hsent⟩]
  rfl

/-- A stalled channel that has sent its bytes has no step (R151). -/
theorem dmaStep_of_stalled {k : Nat} (hfate : s.dmaFate = .stall k) (hsent : k ≤ s.dmaSent.toNat) : dmaStep s = s := by
  have hdone : ¬ s.dmaSent.toNat < dmaLimit s := by rw [dmaLimit_of_stall hfate]; omega
  have hnever : dmaDeliver s ≠ true := by rw [dmaDeliver, hfate]; exact Bool.false_ne_true
  rw [dmaStep, if_neg fun h => hdone h.2, if_neg fun h => hnever h.2.1]

end

theorem step_of_dma {s : State} (hturn : nextAgent s = .dma) : step s = .next (dmaStep (advance s)) := by
  rw [step, hturn]; rfl

/-- Settles O46: the three turns of the channel. -/
theorem channelSendsThenCompletes : Obligations.ChannelSendsThenCompletes := by
  intro s hturn
  rw [step_of_dma hturn]
  refine ⟨fun b hactive hbelow hread => congrArg _ ?_,
    fun hactive hfate hsent => congrArg _ (dmaStep_of_sent (s := advance s) hactive hfate hsent), ?_⟩
  · obtain ⟨hlt, hle⟩ : s.dmaSent.toNat < dmaLimit (advance s) ∧ dmaLimit (advance s) ≤ s.dmaLen.toNat := by
      obtain ⟨hfate, hlt⟩ | ⟨k, hfate, hk, hlt⟩ := hbelow
      · rw [dmaLimit_of_deliver (s := advance s) hfate]; exact ⟨hlt, le_rfl⟩
      · rw [dmaLimit_of_stall (s := advance s) hfate]; exact ⟨hlt, hk⟩
    exact dmaStep_of_byte (s := advance s) hactive hlt hle hread
  · rintro (hstopped | ⟨k, hfate, hk⟩)
    · exact congrArg _ (dmaStep_of_inactive (s := advance s) hstopped)
    · exact congrArg _ (dmaStep_of_stalled (s := advance s) hfate hk)

/-! ### The channel over one chunk (R154) -/

section
variable {s : State} {bs : List Byte} (hactive : s.dmaActive = true) (hstart : s.dmaSent = 0)
  (hlen : s.dmaLen.toNat = bs.length) (hne : bs ≠ [])
  (hstaged : ∀ j (h : j < bs.length), Memory.read s.scratch j = some bs[j])
include hactive hstart hlen hne hstaged

/-- `n` turns of the channel on a chunk of staged bytes, up to its limit: the first `n` bytes are sent, with End after
the last of the chunk (R151). -/
theorem dmaTurns_of_bytes (hlimit : dmaLimit s ≤ bs.length) {n : Nat} (hn : n ≤ dmaLimit s) :
    dmaTurns n s = { s with
      dmaSent := BitVec.ofNat 32 n
      trace := s.trace ++ (bs.take n).map (BusEvent.byte .data) ++ (if n = bs.length then [.endTx] else []) } := by
  induction n with
  | zero =>
    have hmore : ¬ 0 = bs.length := fun h => hne (List.length_eq_zero_iff.mp h.symm)
    have hzero : s.dmaSent = BitVec.ofNat 32 0 := hstart
    rw [dmaTurns, List.take_zero, List.map_nil, List.append_nil, if_neg hmore, List.append_nil, ← hzero]
  | succ n ih =>
    have hmore : ¬ n = bs.length := by omega
    have hsent : (BitVec.ofNat 32 n).toNat = n := Nat.mod_eq_of_lt (by have := s.dmaLen.isLt; omega)
    rw [dmaTurns_succ, ih (by omega), if_neg hmore, List.append_nil, dmaStep_of_byte (b := bs[n])]
    · simp only [hsent, hlen, List.take_succ_eq_append_getElem (show n < bs.length by omega), List.map_append,
        List.append_assoc]
      split <;> rfl
    · exact hactive
    · rw [hsent]; exact hn
    · exact hlimit.trans hlen.ge
    · rw [hsent]; exact hstaged n (by omega)

/-- A delivered chunk is sent whole and raises its completion (R152). -/
theorem dmaTurns_of_deliver (hfate : s.dmaFate = .deliver) : dmaTurns (bs.length + 1) s = { s with
    dmaSent := s.dmaLen, dmaActive := false, completionPending := true
    trace := s.trace ++ bs.map (BusEvent.byte .data) ++ [.endTx] } := by
  have hlimit : dmaLimit s = bs.length := (dmaLimit_of_deliver hfate).trans hlen
  have hsent : BitVec.ofNat 32 bs.length = s.dmaLen := by
    rw [← hlen, BitVec.ofNat_toNat, BitVec.setWidth_eq]
  rw [dmaTurns_succ, dmaTurns_of_bytes hactive hstart hlen hne hstaged hlimit.le hlimit.ge, List.take_length,
    if_pos rfl, hsent]
  exact dmaStep_of_sent hactive hfate rfl

/-- A stalled chunk stays at its first `k` bytes, however many turns the channel has beyond them (R151). -/
theorem dmaTurns_of_stall {k m : Nat} (hfate : s.dmaFate = .stall k) (hk : k ≤ bs.length) (hm : k ≤ m) :
    dmaTurns m s = { s with
      dmaSent := BitVec.ofNat 32 k
      trace := s.trace ++ (bs.take k).map (BusEvent.byte .data) ++ (if k = bs.length then [.endTx] else []) } := by
  have hlimit : dmaLimit s = k := dmaLimit_of_stall hfate
  induction m, hm using Nat.le_induction with
  | base => exact dmaTurns_of_bytes hactive hstart hlen hne hstaged (hlimit.trans_le hk) hlimit.ge
  | succ m _ ih =>
    have hsent : (BitVec.ofNat 32 k).toNat = k := Nat.mod_eq_of_lt (by have := s.dmaLen.isLt; omega)
    rw [dmaTurns_succ, ih]
    exact dmaStep_of_stalled hfate hsent.ge

end

/-- Settles O47: if all bytes went out before the stall, the End is the channel's, else it is the abort's. -/
theorem chunkIsSentWholeOrAsAPrefix : Obligations.ChunkIsSentWholeOrAsAPrefix := by
  intro s bs hactive hstart hlen hne hstaged
  refine ⟨dmaTurns_of_deliver hactive hstart hlen hne hstaged, fun k m hfate hk hm => ?_⟩
  have hsent : (BitVec.ofNat 32 k).toNat = k := Nat.mod_eq_of_lt (by have := s.dmaLen.isLt; omega)
  rw [dmaTurns_of_stall hactive hstart hlen hne hstaged hfate hk hm]
  refine ⟨rfl, rfl, ?_⟩
  rw [timeoutEnd_eq]
  simp only [hactive, hsent, hlen, true_and]
  obtain rfl | hlt := hk.eq_or_lt
  · rw [if_neg (lt_irrefl _), if_pos rfl]
  · rw [if_pos hlt, if_neg hlt.ne, List.append_nil]

end Sys2Proof.Machine
end

section
/-! PROOFS. The bound of a WAIT (40_host_port.md R111, 10_state.md R34): the Clock raises the elapsed time, and no other
turn of the same wait moves its bound. -/

namespace Sys2Proof.Machine

/-! ### Turns of the Clock alone -/

theorem clockTurns_eq (n : Nat) (s : State) : clockTurns n s = { s with now := s.now + BitVec.ofNat 32 n } := by
  induction n generalizing s with
  | zero => rw [clockTurns, BitVec.add_zero]
  | succ n ih =>
    have hnow : s.now + 1 + BitVec.ofNat 32 n = s.now + BitVec.ofNat 32 (n + 1) := by bv_omega
    rw [clockTurns, ih, clockStep, hnow]

theorem completeStep_seq (s : State) : (completeStep s).seq ≠ .wait := by
  unfold completeStep
  split <;> nofun

/-- The Sequencer's turn leaves a WAIT exactly if a completion is pending or the bound is reached (R146, R147, R149). -/
theorem waitStep_seq_eq_wait {s : State} (hseq : s.seq = .wait) : (waitStep s).seq = .wait ↔
    s.completionPending = false ∧ (elapsed s).toNat < s.tmo.toNat := by
  obtain ⟨hpending, hs⟩ | ⟨hnone, hbound, hs⟩ | ⟨hnone, hbelow, hs⟩ := waitStep_cases s <;> rw [hs]
  · simp [completeStep_seq, hpending]
  · simp [BitVec.le_def.mp hbound]
  · rw [BitVec.le_def] at hbelow
    exact iff_of_true hseq ⟨hnone, by omega⟩

/-- After as many Clock turns as the bound exceeds the elapsed time, the bound is reached. -/
theorem elapsed_clockTurns (s : State) :
    s.tmo.toNat ≤ (elapsed (clockTurns (s.tmo.toNat - (elapsed s).toNat) s)).toNat := by
  have helapsed : elapsed (clockTurns (s.tmo.toNat - (elapsed s).toNat) s) =
      elapsed s + BitVec.ofNat 32 (s.tmo.toNat - (elapsed s).toNat) := by
    rw [clockTurns_eq]
    simp only [elapsed]
    bv_omega
  rw [helapsed]
  bv_omega

/-! ### Turns of any agent -/

/-- What a controller word decodes to is no request (R89). -/
theorem decodeController_isRequest {w : BitVec 40} {i : Instr} (h : decodeController w = .ok i) :
    isRequest i = false := by
  unfold decodeController at h
  split at h
  case h_10 => cases h
  case h_4 =>
    split at h
    case isFalse => cases h
    case isTrue => obtain ⟨-, rfl⟩ := checkPayload_ok.mp h; rfl
  all_goals obtain ⟨-, rfl⟩ := checkPayload_ok.mp h; rfl

/-- In WAIT the Sequencer's turn is the WAIT step, unless the bus slot holds a word (log 14). -/
theorem seqAction_of_wait {s : State} (hseq : s.seq = .wait) : seqAction s = .wait ∨ seqAction s = .unlisted ∨
    ∃ i, isRequest i = false ∧ seqAction s = .run i := by
  unfold seqAction
  split
  · split
    case h_1 i hdecode => exact .inr (.inr ⟨i, decodeController_isRequest hdecode, rfl⟩)
    case h_2 => exact .inr (.inl rfl)
  · rw [hseq]; exact .inl rfl

/-- The elapsed time grows by one on a Clock turn, and by nothing else. -/
def elapsedAfter (a : Agent) (s : State) : Nat := (elapsed s).toNat + if a = .clock then 1 else 0

/-- A turn of any agent in a WAIT that the Sequencer's turn would not end leads to the same wait, with the same
bound. -/
theorem turnOf_of_wait {a : Agent} {s t : State} (hseq : s.seq = .wait) (hhold : (waitStep s).seq = .wait)
    (h : turnOf a s = .next t) : t.seq = .wait ∧ t.tmo = s.tmo ∧ (elapsed t).toNat = elapsedAfter a s := by
  obtain ⟨hnone, hbelow⟩ := (waitStep_seq_eq_wait hseq).mp hhold
  obtain ⟨rfl, hhost⟩ | ⟨rfl, rfl⟩ | ⟨rfl, rfl⟩ | ⟨rfl, hturn⟩ := turnOf_next h
  · obtain hsame | ⟨hready, -⟩ := hostStep_seq hhost
    · rw [hostStep_frame hhost]
      exact ⟨hsame.trans hseq, rfl, rfl⟩
    · simp [ready, busy, hseq] at hready
  · rw [dmaStep_frame rfl]
    exact ⟨hseq, rfl, rfl⟩
  · refine ⟨hseq, rfl, ?_⟩
    have hnext : elapsed (clockStep (advance s)) = elapsed s + 1 := by
      simp only [elapsed, clockStep, advance]
      bv_omega
    rw [hnext, elapsedAfter, if_pos rfl]
    bv_omega
  · obtain hact | hact | ⟨i, hi, hact⟩ := seqAction_of_wait hseq <;>
      simp only [hact, reduceCtorEq, false_and, exists_false, false_or, true_and, or_false, SeqAction.run.injEq,
        exists_eq_left'] at hturn
    · rw [hturn, waitStep_of_hold (s := advance s) hnone hbelow]
      exact ⟨hseq, rfl, rfl⟩
    · rw [exec_controller hturn hi]
      exact ⟨hseq, rfl, rfl⟩

/-! ### A fair run -/

/-- Every state of the run from `n` on is in a WAIT that the Sequencer's turn would not end. -/
def HoldsFrom (n : Nat) (run : Nat → State) : Prop := ∀ m, n ≤ m → (run m).seq = .wait ∧ (waitStep (run m)).seq = .wait

/-- A WAIT that no state of the run would end holds from then on. -/
theorem holdsFrom_of_never_ends {choice : Nat → Agent} {run : Nat → State} {n : Nat} (hfair : FairRun choice run)
    (hseq : (run n).seq = .wait)
    (hnever : ∀ m, n ≤ m → (∀ k, n ≤ k → k ≤ m → (run k).seq = .wait) → (waitStep (run m)).seq = .wait) :
    HoldsFrom n run := by
  have hwaits : ∀ m, n ≤ m → ∀ k, n ≤ k → k ≤ m → (run k).seq = .wait := by
    intro m hm
    induction m, hm using Nat.le_induction with
    | base =>
      intro k hk hkn
      rwa [le_antisymm hkn hk]
    | succ m hm ih =>
      intro k hk hkm
      obtain rfl | hlt := hkm.eq_or_lt
      · exact (turnOf_of_wait (ih m hm le_rfl) (hnever m hm ih) (hfair.steps m)).1
      · exact ih k hk (Nat.le_of_lt_succ hlt)
  exact fun m hm => ⟨hwaits m hm m hm le_rfl, hnever m hm (hwaits m hm)⟩

section
variable {choice : Nat → Agent} {run : Nat → State} {n : Nat} (hfair : FairRun choice run) (hholds : HoldsFrom n run)
include hfair hholds

theorem HoldsFrom.tmo_eq {m : Nat} (hm : n ≤ m) : (run m).tmo = (run n).tmo := by
  induction m, hm using Nat.le_induction with
  | base => rfl
  | succ m hm ih =>
    obtain ⟨hseq, hhold⟩ := hholds m hm
    obtain ⟨-, htmo, -⟩ := turnOf_of_wait hseq hhold (hfair.steps m)
    exact htmo.trans ih

theorem HoldsFrom.elapsed_succ {m : Nat} (hm : n ≤ m) :
    (elapsed (run (m + 1))).toNat = elapsedAfter (choice m) (run m) := by
  obtain ⟨hseq, hhold⟩ := hholds m hm
  obtain ⟨-, -, helapsed⟩ := turnOf_of_wait hseq hhold (hfair.steps m)
  exact helapsed

theorem HoldsFrom.elapsed_mono {m m' : Nat} (hm : n ≤ m) (hle : m ≤ m') :
    (elapsed (run m)).toNat ≤ (elapsed (run m')).toNat := by
  induction m', hle using Nat.le_induction with
  | base => exact le_rfl
  | succ m' hle ih =>
    rw [hholds.elapsed_succ hfair (hm.trans hle), elapsedAfter]
    omega

/-- The fair Clock takes the elapsed time of a WAIT that is never ended to any value. -/
theorem HoldsFrom.elapsed_unbounded (b : Nat) : ∃ m, n ≤ m ∧ b ≤ (elapsed (run m)).toNat := by
  induction b with
  | zero => exact ⟨n, le_rfl, Nat.zero_le _⟩
  | succ b ih =>
    obtain ⟨m, hm, hb⟩ := ih
    obtain ⟨m', hle, hclock⟩ := hfair.clockFair m
    have hmono := hholds.elapsed_mono hfair hm hle
    refine ⟨m' + 1, (hm.trans hle).trans (Nat.le_succ _), ?_⟩
    rw [hholds.elapsed_succ hfair (hm.trans hle), elapsedAfter, if_pos hclock]
    omega

end

/-- Settles O49: a WAIT that no turn would end stays below its bound, which a fair Clock does not allow. -/
theorem waitEndsWithinTheBound : Obligations.WaitEndsWithinTheBound := by
  refine ⟨fun s hseq hhold => ?_, fun choice run n hfair hseq => ?_⟩
  · have hwait : (clockTurns (s.tmo.toNat - (elapsed s).toNat) s).seq = .wait := by rw [clockTurns_eq]; exact hseq
    have hbelow := ((waitStep_seq_eq_wait hwait).mp hhold).2
    have hbound := elapsed_clockTurns s
    have htmo : (clockTurns (s.tmo.toNat - (elapsed s).toNat) s).tmo = s.tmo := by rw [clockTurns_eq]
    rw [htmo] at hbelow
    omega
  · by_contra hnever
    push Not at hnever
    have hholds := holdsFrom_of_never_ends hfair hseq hnever
    obtain ⟨m, hm, hbound⟩ := hholds.elapsed_unbounded hfair (run n).tmo.toNat
    obtain ⟨hwait, hhold⟩ := hholds m hm
    have hbelow := ((waitStep_seq_eq_wait hwait).mp hhold).2
    rw [hholds.tmo_eq hfair hm] at hbelow
    omega

end Sys2Proof.Machine
end

section
/-! PROOFS. An async stream whose chunks all complete (42_transfer.md R139, R144, R154, R162, R167): each chunk stages,
starts, is sent and taken, and the chunks one after the other are the source's pixels in order. -/

namespace Sys2Proof.Machine

/-! ### Staged bytes -/

/-- SCRATCH begins with the bytes `bs`. -/
def Staged (m : Memory) (bs : List Byte) : Prop := ∀ j (h : j < bs.length), Memory.read m j = some bs[j]

theorem staged_writeBytes (m : Memory) (bs : List Byte) : Staged (Memory.writeBytes m 0 bs) bs := by
  intro j hj
  rw [Memory.read_writeBytes, dif_pos ⟨Nat.zero_le j, hj⟩]
  rfl

theorem Staged.of_append {m : Memory} {xs ys : List Byte} (h : Staged m (xs ++ ys)) : Staged m xs := by
  intro j hj
  rw [h j (by rw [List.length_append]; omega), List.getElem_append_left hj]

/-- A buffer filled with a colour serves every chunk that is no longer (R144). -/
theorem Staged.color_le {m : Memory} {c : Half} {n n' : Nat} (h : Staged m (serAll (List.replicate n' c)))
    (hn : n ≤ n') : Staged m (serAll (List.replicate n c)) := by
  obtain ⟨k, rfl⟩ := Nat.exists_eq_add_of_le hn
  rw [← List.replicate_append_replicate, serAll_append] at h
  exact h.of_append

/-! ### The pixels of a chunk -/

/-- The chunk that follows `d` pixels of a stream: the next `C` of them, fewer at the end (R144). -/
def chunkAt (ps : List Half) (C d : Nat) : List Half := (ps.drop d).take C

theorem chunkAt_length (ps : List Half) (C d : Nat) : (chunkAt ps C d).length = min C (ps.length - d) := by
  rw [chunkAt, List.length_take, List.length_drop]

theorem sourcePixels_chunkAt {s : State} {p : PixelSource} {ps : List Half}
    (hps : sourcePixels s p 0 ps.length = some ps) (C d : Nat) :
    sourcePixels s p d (chunkAt ps C d).length = some (chunkAt ps C d) := by
  obtain ⟨-, hread⟩ := (collect_eq_some _ _ _ _).mp hps
  refine (collect_eq_some _ _ _ _).mpr ⟨rfl, fun j hj => ?_⟩
  have hlt : d + j < ps.length := by rw [chunkAt_length] at hj; omega
  have hpixel := hread (d + j) hlt
  rw [Nat.zero_add] at hpixel
  simp only [hpixel, chunkAt, List.getElem_take, List.getElem_drop]

/-- The chunks of a stream, one after the other, are its pixels (R162). -/
theorem flatMap_chunkAt (ps : List Half) {C k d : Nat} (hk : ps.length ≤ d + k * C) :
    (List.range k).flatMap (fun j => chunkAt ps C (d + j * C)) = ps.drop d := by
  induction k generalizing d with
  | zero => rw [List.drop_of_length_le (by omega)]; rfl
  | succ k ih =>
    rw [Nat.succ_mul] at hk
    have hrest := ih (d := d + C) (by omega)
    have hshift : ∀ j, d + (j + 1) * C = d + C + j * C := fun j => by ring
    rw [List.range_succ_eq_map, List.flatMap_cons, List.flatMap_map]
    simp only [Nat.succ_eq_add_one, hshift, hrest, Nat.zero_mul, Nat.add_zero]
    rw [chunkAt, ← List.drop_drop, List.take_append_drop]

/-! ### One chunk that completes -/

/-- The stream of the pixels `ps` of a source, `d` of them done, before the STAGE of its next chunk of at most `C`. -/
structure StreamAt (p : PixelSource) (ps : List Half) (C d : Nat) (s : State) : Prop where
  src : s.src = p
  total : s.totalPx.toNat = ps.length
  done : s.donePx.toNat = d
  more : d < ps.length
  chunkMax : s.chunkMax.toNat = C
  pixels : sourcePixels s p 0 ps.length = some ps
  filled : ∀ c, p = .color c → s.prefilled = true → Staged s.scratch (serAll (List.replicate (min C ps.length) c))

/-- A stream that has ended OK. -/
def StreamDone (t : State) : Prop :=
  t.seq = .idle ∧ t.job = .complete ∧ t.respValid = true ∧ t.respCode = .ok ∧ t.winArmed = false ∧
    t.dmaActive = false ∧ t.completionPending = false

/-- The state in WAIT once a chunk is sent whole and its completion raised; `m` and `b` are SCRATCH and the fill flag
that its STAGE left. -/
def chunkSent (m : Memory) (b : Bool) (chunk : List Half) (s : State) : State := { s with
  scratch := m, prefilled := b, curPx := BitVec.ofNat 32 chunk.length, job := .active, seq := .wait
  tStart := s.now, tmo := s.timeoutMs, completionPending := true, dmaActive := false
  dmaLen := 2 * BitVec.ofNat 32 chunk.length, dmaSent := 2 * BitVec.ofNat 32 chunk.length, dmaFate := .deliver
  trace := s.trace ++ dataEvents (serAll chunk) }

section
variable {p : PixelSource} {ps : List Half} {C d : Nat} {s : State}

theorem StreamAt.chunkPixels (h : StreamAt p ps C d s) : chunkPixels s = (chunkAt ps C d).length := by
  rw [Machine.chunkPixels, h.chunkMax, h.total, h.done, chunkAt_length]

/-- STAGE leaves the bytes of the chunk in SCRATCH, and a colour the whole buffer (R144). -/
theorem StreamAt.stage (h : StreamAt p ps C d s) : ∃ m b,
    stageStep s = staged (chunkAt ps C d).length { s with scratch := m, prefilled := b } ∧
    Staged m (serAll (chunkAt ps C d)) ∧
    (∀ c, p = .color c → b = true → Staged m (serAll (List.replicate (min C ps.length) c))) := by
  have hchunk := sourcePixels_chunkAt h.pixels C d
  by_cases hcolor : ∃ c, p = .color c
  · obtain ⟨c, rfl⟩ := hcolor
    have hpixels : chunkAt ps C d = List.replicate (chunkAt ps C d).length c := by
      rw [sourcePixels_color] at hchunk
      exact (Option.some.inj hchunk).symm
    have hle : (chunkAt ps C d).length ≤ min C ps.length := by rw [chunkAt_length]; omega
    have hfilled : ∃ m, prefill c s = { s with scratch := m, prefilled := true } ∧
        Staged m (serAll (List.replicate (min C ps.length) c)) := by
      cases hprefilled : s.prefilled with
      | true =>
        refine ⟨s.scratch, ?_, h.filled c rfl hprefilled⟩
        rw [prefill_of_prefilled c hprefilled, ← hprefilled]
      | false =>
        refine ⟨_, prefill_of_not_prefilled c hprefilled, ?_⟩
        rw [h.chunkMax, h.total]
        exact staged_writeBytes _ _
    obtain ⟨m, hprefill, hstaged⟩ := hfilled
    refine ⟨m, true, ?_, ?_, fun c' hc _ => ?_⟩
    · rw [stageStep_of_color h.src, h.chunkPixels, hprefill]
    · rw [hpixels]; exact hstaged.color_le hle
    · cases hc; exact hstaged
  · refine ⟨Memory.writeBytes s.scratch 0 (serAll (chunkAt ps C d)), s.prefilled, ?_, staged_writeBytes _ _,
      fun c hc => absurd ⟨c, hc⟩ hcolor⟩
    rw [stageStep_of_pixels (ps := chunkAt ps C d), h.chunkPixels]
    · rfl
    · rw [h.src]; exact not_exists.mp hcolor
    · rwa [h.src, h.done, h.chunkPixels]

/-- A chunk that completes is one burst, and the WAIT step takes its completion (R145, R146, R151, R154). -/
theorem StreamAt.deliver (h : StreamAt p ps C d s) (hC : 1 ≤ C) (hC31 : C < 2 ^ 31) : ∃ m b,
    deliverChunk s = completeStep (chunkSent m b (chunkAt ps C d) s) ∧
    (∀ c, p = .color c → b = true → Staged m (serAll (List.replicate (min C ps.length) c))) := by
  obtain ⟨m, b, hstage, hstaged, hfilled⟩ := h.stage
  refine ⟨m, b, ?_, hfilled⟩
  have hsize : 1 ≤ (chunkAt ps C d).length ∧ (chunkAt ps C d).length < 2 ^ 31 := by
    have := h.more
    rw [chunkAt_length]
    omega
  have hlen : (2 * BitVec.ofNat 32 (chunkAt ps C d).length).toNat = (serAll (chunkAt ps C d)).length := by
    rw [serAll_length]
    bv_omega
  have hne : serAll (chunkAt ps C d) ≠ [] := by
    rw [Ne, serAll_eq_nil, ← List.length_eq_zero_iff]
    omega
  have hturns := dmaTurns_of_deliver (bs := serAll (chunkAt ps C d))
    (s := { startStep (staged (chunkAt ps C d).length { s with scratch := m, prefilled := b }) with
      dmaFate := .deliver }) rfl rfl hlen hne hstaged rfl
  rw [← hlen] at hturns
  have hburst : s.trace ++ [.beginTx] ++ (serAll (chunkAt ps C d)).map (BusEvent.byte .data) ++ [.endTx] =
      s.trace ++ dataEvents (serAll (chunkAt ps C d)) := by
    rw [dataEvents_of_ne_nil hne]
    simp only [List.append_assoc, List.cons_append, List.nil_append]
  simp only [deliverChunk, hstage]
  refine (congrArg waitStep hturns).trans ((waitStep_of_completion rfl).trans (congrArg completeStep ?_))
  simp only [chunkSent, ← hburst]
  rfl

/-- The count of pixels after a chunk, compared with the stream's (R146). -/
theorem StreamAt.done_lt_iff (h : StreamAt p ps C d s) (m : Memory) (b : Bool) :
    let t := chunkSent m b (chunkAt ps C d) s
    t.donePx + t.curPx < t.totalPx ↔ d + C < ps.length := by
  obtain ⟨hd, htotal, hmore⟩ := And.intro h.done (And.intro h.total h.more)
  have hlen := chunkAt_length ps C d
  simp only [chunkSent, BitVec.lt_def]
  bv_omega

variable (h : StreamAt p ps C d s) (hC : 1 ≤ C) (hC31 : C < 2 ^ 31)
include h hC hC31

/-- A chunk that is not the last leaves the stream before its next one (R146). -/
theorem StreamAt.deliver_of_more (hmore : d + C < ps.length) : StreamAt p ps C (d + C) (deliverChunk s) ∧
    (deliverChunk s).trace = s.trace ++ dataEvents (serAll (chunkAt ps C d)) := by
  obtain ⟨m, b, hdeliver, hfilled⟩ := h.deliver hC hC31
  have hlen : (chunkAt ps C d).length = C := by rw [chunkAt_length]; omega
  have hnext : (s.donePx + BitVec.ofNat 32 (chunkAt ps C d).length).toNat = d + C := by
    have hd := h.done
    have htotal := h.total
    bv_omega
  rw [hdeliver, completeStep, if_pos ((h.done_lt_iff m b).mpr hmore)]
  exact ⟨⟨h.src, h.total, hnext, hmore, h.chunkMax, h.pixels, hfilled⟩, rfl⟩

/-- The last chunk ends the stream OK (R146). -/
theorem StreamAt.deliver_of_last (hlast : ps.length ≤ d + C) : StreamDone (deliverChunk s) ∧
    (deliverChunk s).trace = s.trace ++ dataEvents (serAll (chunkAt ps C d)) := by
  obtain ⟨m, b, hdeliver, -⟩ := h.deliver hC hC31
  rw [hdeliver, completeStep, if_neg (mt (h.done_lt_iff m b).mp (Nat.not_lt.mpr hlast))]
  exact ⟨⟨rfl, rfl, rfl, rfl, rfl, rfl, rfl⟩, rfl⟩

end

/-! ### All chunks -/

/-- The bursts of `k` chunks from pixel `d` on. -/
def chunkBursts (ps : List Half) (C d k : Nat) : List BusEvent :=
  (List.range k).flatMap fun j => dataEvents (serAll (chunkAt ps C (d + j * C)))

theorem chunkBursts_succ (ps : List Half) (C d k : Nat) :
    chunkBursts ps C d (k + 1) = dataEvents (serAll (chunkAt ps C d)) ++ chunkBursts ps C (d + C) k := by
  have hshift : ∀ j, d + (j + 1) * C = d + C + j * C := fun j => by ring
  simp only [chunkBursts, List.range_succ_eq_map, List.flatMap_cons, List.flatMap_map, Nat.succ_eq_add_one, hshift,
    Nat.zero_mul, Nat.add_zero]

/-- `k` chunks of at most `C` pixels that just suffice for the rest of the stream end it (R139, R162). -/
theorem StreamAt.deliverChunks {p : PixelSource} {ps : List Half} {C d k : Nat} {s : State}
    (h : StreamAt p ps C d s) (hC : 1 ≤ C) (hC31 : C < 2 ^ 31) (hlow : d + k * C < ps.length + C)
    (hhigh : ps.length ≤ d + k * C) :
    StreamDone (deliverChunks k s) ∧ (deliverChunks k s).trace = s.trace ++ chunkBursts ps C d k := by
  induction k generalizing d s with
  | zero =>
    have hmore := h.more
    omega
  | succ k ih =>
    rw [Nat.succ_mul] at hlow hhigh
    rw [Machine.deliverChunks, chunkBursts_succ, ← List.append_assoc]
    by_cases hmore : d + C < ps.length
    · obtain ⟨hnext, htrace⟩ := h.deliver_of_more hC hC31 hmore
      rw [← htrace]
      exact ih hnext (by omega) (by omega)
    · obtain rfl : k = 0 := by
        by_contra hk
        have := Nat.le_mul_of_pos_left C (Nat.pos_of_ne_zero hk)
        omega
      obtain ⟨hdone, htrace⟩ := h.deliver_of_last hC hC31 (Nat.not_lt.mp hmore)
      exact ⟨hdone, htrace.trans (List.append_nil _).symm⟩

/-- ceil(N / C) chunks just suffice for N pixels (R139). -/
theorem ceilDiv_bounds {C : Nat} (N : Nat) (hC : 1 ≤ C) :
    (N + C - 1) / C * C < N + C ∧ N ≤ (N + C - 1) / C * C := by
  have hle := Nat.div_mul_le_self (N + C - 1) C
  have hlt := Nat.lt_div_mul_add (a := N + C - 1) hC
  omega

theorem streamAt_asyncSetup {s : State} {p : PixelSource} {ps : List Half} (hne : ps ≠ []) (hlen : ps.length < 2 ^ 32)
    (hps : sourcePixels s p 0 ps.length = some ps) :
    StreamAt p ps s.chunkMax.toNat 0 (asyncSetup ps.length p s) where
  src := rfl
  total := Nat.mod_eq_of_lt hlen
  done := rfl
  more := List.length_pos_iff.mpr hne
  chunkMax := rfl
  pixels := hps
  filled := fun _ _ h => by cases h

/-- An async stream whose ceil(N / CHUNK_MAX) chunks all complete ends OK and sends one burst per chunk (R139, R162). -/
theorem deliverChunks_of_stream {s : State} {p : PixelSource} {ps : List Half} (hne : ps ≠ [])
    (hlen : ps.length < 2 ^ 32) (hC : 1 ≤ s.chunkMax.toNat) (hC31 : s.chunkMax.toNat < 2 ^ 31)
    (hps : sourcePixels s p 0 ps.length = some ps) {k : Nat}
    (hk : k = (ps.length + s.chunkMax.toNat - 1) / s.chunkMax.toNat) :
    StreamDone (deliverChunks k (asyncSetup ps.length p s)) ∧
      (deliverChunks k (asyncSetup ps.length p s)).trace = s.trace ++ chunkBursts ps s.chunkMax.toNat 0 k := by
  subst hk
  obtain ⟨hlow, hhigh⟩ := ceilDiv_bounds ps.length hC
  exact (streamAt_asyncSetup hne hlen hps).deliverChunks hC hC31 (by omega) (by omega)

theorem dataBytes_chunkBursts (ps : List Half) {C k : Nat} (hk : ps.length ≤ k * C) :
    dataBytes (chunkBursts ps C 0 k) = serAll ps := by
  have hbytes : ∀ js : List Nat, dataBytes (js.flatMap fun j => dataEvents (serAll (chunkAt ps C (0 + j * C)))) =
      serAll (js.flatMap fun j => chunkAt ps C (0 + j * C)) := by
    intro js
    induction js with
    | nil => rfl
    | cons j js ih => simp only [List.flatMap_cons, dataBytes_append, dataBytes_dataEvents, serAll_append, ih]
  rw [chunkBursts, hbytes, flatMap_chunkAt ps (by omega), List.drop_zero]

/-- Settles O48: the chunks end the stream, and their bursts carry the pixels in order. -/
theorem deliveredStreamSendsEveryPixelInChunks : Obligations.DeliveredStreamSendsEveryPixelInChunks := by
  intro s p ps hne hlen hC hC31 hps t
  obtain ⟨⟨hseq, hjob, hvalid, hcode, harmed, hquiet, hpending⟩, htrace⟩ :=
    deliverChunks_of_stream hne hlen hC hC31 hps rfl
  refine ⟨hseq, hjob, hvalid, hcode, harmed, hquiet, hpending, ?_, ?_⟩
  · rw [htrace]
    simp only [chunkBursts, chunkAt, Nat.zero_add]
    rfl
  · rw [htrace, dataBytes_append, dataBytes_chunkBursts ps (ceilDiv_bounds ps.length hC).2]
    rfl

end Sys2Proof.Machine
end

section
/-! PROOFS. Where the pixels of a FILLRECT land (43_compound.md R174, R175, 41_addressing.md R129), on the sync path as
one burst and on the async path as its chunks. -/

namespace Sys2Proof.Machine

/-! ### The observer of a stream -/

/-- The observer makes of `evs` what it makes of the data bytes `bs`: how they are cut into bursts says nothing to
it. -/
def Streams (evs : List BusEvent) (bs : List Byte) : Prop :=
  ∀ p : PanelView, observeAll p evs = bs.foldl (fun q v => observeData v q) p

theorem streams_dataEvents (bs : List Byte) : Streams (dataEvents bs) bs := fun p => observeAll_dataEvents p bs

theorem Streams.append {xs ys : List BusEvent} {as bs : List Byte} (hx : Streams xs as) (hy : Streams ys bs) :
    Streams (xs ++ ys) (as ++ bs) := fun p => by
  rw [observeAll_append, hx, hy, List.foldl_append]

/-- The bursts of a stream's chunks stream its pixels (R162). -/
theorem streams_chunkBursts (ps : List Half) {C d k : Nat} (hk : ps.length ≤ d + k * C) :
    Streams (chunkBursts ps C d k) (serAll (ps.drop d)) := by
  induction k generalizing d with
  | zero =>
    rw [List.drop_of_length_le (by omega)]
    exact streams_dataEvents []
  | succ k ih =>
    rw [Nat.succ_mul] at hk
    rw [chunkBursts_succ, ← List.take_append_drop C (ps.drop d), List.drop_drop, serAll_append]
    exact (streams_dataEvents _).append (ih (by omega))

/-- Pixels of one colour land one after the other, each at the next place of the window (R132). -/
theorem observeData_color {p : PanelView} (hcmd : p.cmd = 0x2C) (hsixteen : p.sixteen = true) (hhalf : p.half = none)
    (c : Half) (n : Nat) : (serAll (List.replicate n c)).foldl (fun q v => observeData v q) p = { p with
      count := p.count + n
      landed := p.landed ++ (List.range n).map fun k => .pixel { p with count := p.count + k }.place c } := by
  induction n with
  | zero => simp
  | succ n ih =>
    rw [List.replicate_succ', serAll_append, List.foldl_append, ih]
    simp only [serAll_cons, serAll_nil, List.foldl_cons, List.foldl_nil]
    rw [observeData_pixel (c := c), List.range_succ, List.map_append, ← List.append_assoc]
    · rfl
    · exact hcmd
    · exact hsixteen
    · exact hhalf

/-- In a window of `w` columns and `h` rows that is not empty, pixel `k` of `w * h` lands row by row (R129). -/
theorem landing_of_lt {x y w h k : Nat} (hw : 0 < w) (hh : 0 < h) (hk : k < w * h) :
    landing x y (x + w - 1) (y + h - 1) k = some (x + k % w, y + k / w) := by
  have hcols : x + w - 1 - x + 1 = w := by omega
  have hrows : y + h - 1 - y + 1 = h := by omega
  rw [landing, hcols, hrows, if_pos ⟨by omega, by omega, hk⟩]

/-- A window of `w` columns and `h` rows, then a stream of `w * h` pixels of one colour: they land row by row from its
first place (R129). -/
theorem landed_of_window {x0 y0 x1 y1 : Half} {w h : Nat} (hw : 0 < w) (hh : 0 < h) (hx : x1.toNat = x0.toNat + w - 1)
    (hy : y1.toNat = y0.toNat + h - 1) {c : Half} {evs : List BusEvent}
    (hevs : Streams evs (serAll (List.replicate (w * h) c))) {p : PanelView} (horiented : p.oriented = true)
    (hsixteen : p.sixteen = true) : (observeAll p (windowEvents x0 y0 x1 y1 ++ evs)).landed = p.landed ++
      (List.range (w * h)).map fun k => .pixel (some (x0.toNat + k % w, y0.toNat + k / w)) c := by
  rw [observeAll_append, observeAll_windowEvents, observeEnd_of_sixteen hsixteen, hevs, observeData_color]
  · refine congrArg (p.landed ++ ·) (List.map_congr_left fun k hk => ?_)
    have hland := landing_of_lt (x := x0.toNat) (y := y0.toNat) hw hh (List.mem_range.mp hk)
    simp only [PanelView.place, horiented, hx, hy, Nat.zero_add, hland]
  · rfl
  · exact hsixteen
  · rfl

/-! ### A rectangle inside the panel -/

/-- The rectangle as its own visible part. -/
def wholeClip (x y w h : Int) : Clip :=
  { cx0 := x, cy0 := y, cx1 := x + w - 1, cy1 := y + h - 1, sx := 0, sy := 0, cw := w.toNat, ch := h.toNat }

/-- What opening the rectangle's window sends (R121). -/
def rectWindow (x y w h : Int) : List BusEvent :=
  windowEvents (BitVec.ofInt 16 x) (BitVec.ofInt 16 y) (BitVec.ofInt 16 (x + w - 1)) (BitVec.ofInt 16 (y + h - 1))

theorem toNat_ofInt_of_mem {x : Int} (h0 : 0 ≤ x) (h1 : x < 2 ^ 16) : (BitVec.ofInt 16 x).toNat = x.toNat := by
  rw [BitVec.toNat_ofInt]
  exact congrArg Int.toNat (Int.emod_eq_of_lt h0 h1)

section
variable {effW effH : Half} {x y w h : Int} (hx : 0 ≤ x) (hy : 0 ≤ y) (hw : 0 < w) (hh : 0 < h)
  (hxw : x + w ≤ effW.toNat) (hyh : y + h ≤ effH.toNat)
include hx hy hw hh hxw hyh

/-- A rectangle inside the panel is its own visible part (R170). -/
theorem clip_of_inside : clip effW effH x y w h = some (wholeClip x y w h) := by
  have hx0 : max x 0 = x := max_eq_left hx
  have hy0 : max y 0 = y := max_eq_left hy
  have hx1 : min (x + w - 1) ((effW.toNat : Int) - 1) = x + w - 1 := min_eq_left (by omega)
  have hy1 : min (y + h - 1) ((effH.toNat : Int) - 1) = y + h - 1 := min_eq_left (by omega)
  have hcols : x + w - 1 - x + 1 = w := by omega
  have hrows : y + h - 1 - y + 1 = h := by omega
  rw [clip_some hw hh (by omega) (by omega), hx0, hy0, hx1, hy1, hcols, hrows, sub_self, sub_self]
  rfl

/-- What the window of the rectangle and a stream of its pixels land. -/
theorem landed_of_inside {c : Half} {evs : List BusEvent}
    (hevs : Streams evs (serAll (List.replicate (w.toNat * h.toNat) c))) {p : PanelView} (horiented : p.oriented = true)
    (hsixteen : p.sixteen = true) :
    (observeAll p (rectWindow x y w h ++ evs)).landed = p.landed ++ (List.range (w.toNat * h.toNat)).map fun k =>
      .pixel (some (x.toNat + k % w.toNat, y.toNat + k / w.toNat)) c := by
  have heffW := effW.isLt
  have heffH := effH.isLt
  have hx0 := toNat_ofInt_of_mem hx (by omega)
  have hy0 := toNat_ofInt_of_mem hy (by omega)
  have hx1 := toNat_ofInt_of_mem (x := x + w - 1) (by omega) (by omega)
  have hy1 := toNat_ofInt_of_mem (x := y + h - 1) (by omega) (by omega)
  rw [← hx0, ← hy0]
  exact landed_of_window (by omega) (by omega) (by omega) (by omega) hevs horiented hsixteen

theorem area_of_inside : 0 < w.toNat * h.toNat ∧ w.toNat * h.toNat < 2 ^ 32 := by
  have heffW := effW.isLt
  have heffH := effH.isLt
  have hle : w.toNat * h.toNat ≤ 65535 * 65535 := Nat.mul_le_mul (by omega) (by omega)
  exact ⟨Nat.mul_pos (by omega) (by omega), by omega⟩

end

/-- Settles O60: both paths open the window of the rectangle and stream its pixels. -/
theorem fillrectLandsRowMajor : Obligations.FillrectLandsRowMajor := by
  intro x y w h c s hx hy hw hh hxw hyh hchunk
  have hclip := clip_of_inside hx hy hw hh hxw hyh
  obtain ⟨hpos, hlt⟩ := area_of_inside hx hy hw hh hxw hyh
  have hlength : (List.replicate (w.toNat * h.toNat) c).length = w.toNat * h.toNat := List.length_replicate
  rw [Int.toNat_mul hw.le hh.le]
  by_cases hasync : s.asyncAvail = true
  · obtain ⟨hC, hC31⟩ := hchunk hasync
    have hne : List.replicate (w.toNat * h.toNat) c ≠ [] := by
      rw [Ne, ← List.length_eq_zero_iff]
      omega
    obtain ⟨⟨hseq, -, hvalid, hcode, -⟩, htrace⟩ :=
      deliverChunks_of_stream (s := openClip (wholeClip x y w h) s) (p := .color c) hne (by rwa [hlength]) hC hC31
        (by rw [hlength]; exact sourcePixels_color _ _ _ _) rfl
    rw [hlength] at hseq hvalid hcode htrace
    refine ⟨_, rectWindow x y w h ++ chunkBursts (List.replicate (w.toNat * h.toNat) c) s.chunkMax.toNat 0
      ((w.toNat * h.toNat + s.chunkMax.toNat - 1) / s.chunkMax.toNat),
      exec_fillrect_of_clip hclip (streamClip_of_async hclip _ hasync), ?_⟩
    rw [if_pos hasync]
    refine ⟨hseq, hvalid, hcode, htrace.trans (List.append_assoc _ _ _), fun p horiented hsixteen => ?_⟩
    obtain ⟨-, hhigh⟩ := ceilDiv_bounds (w.toNat * h.toNat) hC
    exact landed_of_inside hx hy hw hh hxw hyh
      (streams_chunkBursts _ (d := 0) (by rw [hlength]; exact hhigh.trans (Nat.le_add_left _ _))) horiented hsixteen
  · refine ⟨_, rectWindow x y w h ++ dataEvents (serAll (List.replicate (w.toNat * h.toNat) c)),
      exec_fillrect_of_clip hclip (streamClip_of_pixels hclip (eq_false_of_ne_true hasync) rfl
        (sourcePixels_color s c 0 _)), ?_⟩
    rw [if_neg hasync]
    exact ⟨rfl, rfl, rfl, List.append_assoc _ _ _, fun p =>
      landed_of_inside hx hy hw hh hxw hyh (streams_dataEvents _)⟩

end Sys2Proof.Machine
end

section
/-! PROOFS. The ranges that a request sends (41_addressing.md R124): at every point of its bus events the observer holds
the ranges it held before, or ranges inside the panel. -/

namespace Sys2Proof.Machine

/-! ### At every point of a list of events -/

/-- `P` holds of the observer at the start, and after each of the events. -/
def Throughout (P : PanelView → Prop) : PanelView → List BusEvent → Prop
  | q, [] => P q
  | q, e :: es => P q ∧ Throughout P (observe q e) es

section
variable {P : PanelView → Prop} {q : PanelView} {xs ys : List BusEvent}

theorem throughout_append : Throughout P q (xs ++ ys) ↔ Throughout P q xs ∧ Throughout P (observeAll q xs) ys := by
  induction xs generalizing q with
  | nil =>
    refine ⟨fun h => ⟨?_, h⟩, And.right⟩
    cases ys with
    | nil => exact h
    | cons e es => exact h.1
  | cons e es ih => rw [List.cons_append, Throughout, ih, Throughout, and_assoc, observeAll_cons]

theorem Throughout.start (h : Throughout P q xs) : P q := by
  cases xs with
  | nil => exact h
  | cons e es => exact h.1

theorem Throughout.of_append (h : Throughout P q (xs ++ ys)) : P (observeAll q xs) := (throughout_append.mp h).2.start

theorem Throughout.last (h : Throughout P q xs) : P (observeAll q xs) := by
  rw [← List.append_nil xs] at h
  exact h.of_append

theorem Throughout.append (hx : Throughout P q xs) (hy : P (observeAll q xs) → Throughout P (observeAll q xs) ys) :
    Throughout P q (xs ++ ys) := throughout_append.mpr ⟨hx, hy hx.last⟩

/-- A data burst is its bytes. -/
theorem throughout_dataEvents {bs : List Byte} (h : Throughout P q (bs.map (BusEvent.byte .data))) :
    Throughout P q (dataEvents bs) := by
  cases bs with
  | nil => exact h
  | cons b bs =>
    have hend : Throughout P q ((b :: bs).map (BusEvent.byte .data) ++ [.endTx]) := h.append fun hlast => ⟨hlast, hlast⟩
    exact ⟨h.start, hend⟩

end

/-! ### The ranges that the observer holds -/

/-- Each range of `q` is the one of `p` or lies in a panel of `w` columns and `h` rows (R124). -/
def RangesIn (p : PanelView) (w h : Nat) (q : PanelView) : Prop :=
  (∀ c, q.col = some c → p.col = some c ∨ (c.1 < w ∧ c.2 < w)) ∧
  ∀ r, q.row = some r → p.row = some r ∨ (r.1 < h ∧ r.2 < h)

section
variable {p q u : PanelView} {w h : Nat}

theorem rangesIn_self (p : PanelView) (w h : Nat) : RangesIn p w h p := ⟨fun _ hc => .inl hc, fun _ hr => .inl hr⟩

/-- An observer that keeps its ranges, or loses them, stays. -/
theorem RangesIn.of_ranges (hq : RangesIn p w h q)
    (hranges : (u.col = q.col ∧ u.row = q.row) ∨ (u.col = none ∧ u.row = none)) : RangesIn p w h u := by
  obtain ⟨hcol, hrow⟩ | ⟨hcol, hrow⟩ := hranges
  · exact ⟨fun c hc => hq.1 c (hcol ▸ hc), fun r hr => hq.2 r (hrow ▸ hr)⟩
  · exact ⟨fun c hc => absurd (hcol.symm.trans hc) nofun, fun r hr => absurd (hrow.symm.trans hr) nofun⟩

/-- A RESET pin event keeps the ranges or loses both (R187). -/
theorem observeResetPin_ranges (l : Bool) (q : PanelView) :
    ((observeResetPin l q).col = q.col ∧ (observeResetPin l q).row = q.row) ∨
      ((observeResetPin l q).col = none ∧ (observeResetPin l q).row = none) := by
  unfold observeResetPin
  split
  · exact .inr ⟨rfl, rfl⟩
  · exact .inl ⟨rfl, rfl⟩

/-- Data bytes outside a range set. -/
theorem throughout_otherData (hq : RangesIn p w h q) (hcol : q.cmd ≠ 0x2A) (hrow : q.cmd ≠ 0x2B) (bs : List Byte) :
    Throughout (RangesIn p w h) q (bs.map (BusEvent.byte .data)) := by
  induction bs generalizing q with
  | nil => exact hq
  | cons v bs ih =>
    obtain ⟨hcmd, hranges⟩ := observeData_ranges hcol hrow v
    exact ⟨hq, ih (hq.of_ranges hranges) (hcmd ▸ hcol) (hcmd ▸ hrow)⟩

/-- A data byte of a range set extends the payload; the range it completes, if any, replaces the one held. -/
theorem observeData_column (hcmd : q.cmd = 0x2A) (v : Byte) :
    observeData v q = { q with data := q.data ++ [v], col := (rangeOf (q.data ++ [v])).or q.col } := by
  simp [observeData, hcmd]

theorem observeData_row (hcmd : q.cmd = 0x2B) (v : Byte) :
    observeData v q = { q with data := q.data ++ [v], row := (rangeOf (q.data ++ [v])).or q.row } := by
  simp [observeData, hcmd]

/-- Data bytes of a range set whose payload, as far as it is a range, lies in the panel. -/
theorem throughout_rangeData {n : Nat} (hq : RangesIn p w h q) (hcmd : (q.cmd = 0x2A ∧ n = w) ∨ (q.cmd = 0x2B ∧ n = h))
    {bs : List Byte} (hbs : ∀ xs, xs <+: bs → ∀ c, rangeOf (q.data ++ xs) = some c → c.1 < n ∧ c.2 < n) :
    Throughout (RangesIn p w h) q (bs.map (BusEvent.byte .data)) := by
  induction bs generalizing q with
  | nil => exact hq
  | cons v bs ih =>
    have hhere := hbs [v] ⟨bs, rfl⟩
    have hlater : ∀ xs, xs <+: bs → ∀ c, rangeOf (q.data ++ [v] ++ xs) = some c → c.1 < n ∧ c.2 < n := by
      intro xs hxs c hc
      rw [List.append_assoc] at hc
      exact hbs (v :: xs) (List.cons_prefix_cons.mpr ⟨rfl, hxs⟩) c hc
    refine ⟨hq, ?_⟩
    obtain ⟨hcolumn, rfl⟩ | ⟨hrow, rfl⟩ := hcmd
    · refine ih (q := observeData v q) ?_ ?_ ?_ <;> rw [observeData_column hcolumn]
      · exact ⟨fun c hc => (Option.or_eq_some_iff.mp hc).elim (fun hr => .inr (hhere c hr)) fun hc => hq.1 c hc.2, hq.2⟩
      · exact .inl ⟨hcolumn, rfl⟩
      · exact hlater
    · refine ih (q := observeData v q) ?_ ?_ ?_ <;> rw [observeData_row hrow]
      · exact ⟨hq.1, fun c hc => (Option.or_eq_some_iff.mp hc).elim (fun hr => .inr (hhere c hr)) fun hc => hq.2 c hc.2⟩
      · exact .inr ⟨hrow, rfl⟩
      · exact hlater

/-- The payload of a range set is a range only once it is whole (R90). -/
theorem eq_of_rangeOf {lo hi : Half} {xs : List Byte} {c : Nat × Nat} (hxs : xs <+: rangePayload lo hi)
    (hc : rangeOf xs = some c) : c = (lo.toNat, hi.toNat) := by
  have hwhole : xs.length = 4 := by
    unfold rangeOf at hc
    split at hc
    · rfl
    · cases hc
  rw [hxs.eq_of_length (by rw [hwhole]; rfl)] at hc
  simpa [rangePayload, ser, rangeOf, hiByte_append_loByte, eq_comm] using hc

/-! ### The pieces that requests send -/

/-- A command transaction keeps the ranges or loses them; what follows is the payload of that command. -/
theorem throughout_controllerEvents {b : Byte} {bs : List Byte} (hq : RangesIn p w h q)
    (hpayload : ∀ u : PanelView, u.cmd = b → u.data = [] → RangesIn p w h u →
      Throughout (RangesIn p w h) u (bs.map (BusEvent.byte .data))) :
    Throughout (RangesIn p w h) q (controllerEvents b bs) := by
  have hcmd := hq.of_ranges (observeCommand_ranges b q)
  have hcommand : Throughout (RangesIn p w h) q (cmdEvents b) := ⟨hq, hq, hcmd, hcmd⟩
  exact hcommand.append fun hlast => throughout_dataEvents (hpayload _ rfl rfl hlast)

theorem throughout_otherCommand {b : Byte} (hq : RangesIn p w h q) (hcol : b ≠ 0x2A) (hrow : b ≠ 0x2B)
    (bs : List Byte) : Throughout (RangesIn p w h) q (controllerEvents b bs) :=
  throughout_controllerEvents hq fun _ hcmd _ hu => throughout_otherData hu (hcmd ▸ hcol) (hcmd ▸ hrow) bs

/-- A window inside the panel (R121). -/
theorem throughout_windowEvents {x0 y0 x1 y1 : Half} (hq : RangesIn p w h q) (hx : x0.toNat < w ∧ x1.toNat < w)
    (hy : y0.toNat < h ∧ y1.toNat < h) : Throughout (RangesIn p w h) q (windowEvents x0 y0 x1 y1) := by
  have hcolumns : Throughout (RangesIn p w h) q (controllerEvents 0x2A (rangePayload x0 x1)) :=
    throughout_controllerEvents hq fun u hcmd hdata hu => throughout_rangeData hu (.inl ⟨hcmd, rfl⟩)
      fun xs hxs c hc => by rw [hdata] at hc; rw [eq_of_rangeOf hxs hc]; exact hx
  have hrows := hcolumns.append (ys := controllerEvents 0x2B (rangePayload y0 y1)) fun hlast =>
    throughout_controllerEvents hlast fun u hcmd hdata hu => throughout_rangeData hu (.inr ⟨hcmd, rfl⟩)
      fun xs hxs c hc => by rw [hdata] at hc; rw [eq_of_rangeOf hxs hc]; exact hy
  have hwrite := hrows.append (ys := controllerEvents 0x2C []) fun hlast =>
    throughout_otherCommand hlast (by decide) (by decide) []
  have hnil : controllerEvents 0x2C [] = cmdEvents 0x2C := List.append_nil _
  rw [hnil] at hwrite
  exact hwrite

end

/-- The arm procedure clamps its window into the panel (R120, R124). -/
theorem throughout_arm {p q : PanelView} {effW effH : Half} (hw : 1 ≤ effW.toNat) (hh : 1 ≤ effH.toNat)
    (hq : RangesIn p effW.toNat effH.toNat q) (x0 y0 x1 y1 : Int) :
    Throughout (RangesIn p effW.toNat effH.toNat) q (windowEvents (clampedHalf effW x0) (clampedHalf effH y0)
      (clampedHalf effW x1) (clampedHalf effH y1)) :=
  throughout_windowEvents hq ⟨clampedHalf_lt hw x0, clampedHalf_lt hw x1⟩ ⟨clampedHalf_lt hh y0, clampedHalf_lt hh y1⟩

/-- The window of the arm procedure, and the data of a memory write after it. -/
theorem throughout_arm_data {p q : PanelView} {effW effH : Half} (hw : 1 ≤ effW.toNat) (hh : 1 ≤ effH.toNat)
    (hq : RangesIn p effW.toNat effH.toNat q) (x0 y0 x1 y1 : Int) (bs : List Byte) :
    Throughout (RangesIn p effW.toNat effH.toNat) q (windowEvents (clampedHalf effW x0) (clampedHalf effH y0)
      (clampedHalf effW x1) (clampedHalf effH y1) ++ dataEvents bs) := by
  refine (throughout_arm hw hh hq x0 y0 x1 y1).append fun hlast => throughout_dataEvents ?_
  rw [observeAll_windowEvents] at hlast ⊢
  have hcol : (0x2C : Byte) ≠ 0x2A := by decide
  have hrow : (0x2C : Byte) ≠ 0x2B := by decide
  exact throughout_otherData hlast hcol hrow bs

/-- What a request appends, with the ranges in the panel throughout (R124). -/
theorem exec_throughout {i : Instr} {s t : State} {p : PanelView} (hi : isRequest i = true)
    (hlegal : configLegal s.cfg = true) (hdims : DimsAgree s) (h : exec i s = .next t) (hcol : p.cmd ≠ 0x2A)
    (hrow : p.cmd ≠ 0x2B) :
    ∃ evs, t.trace = s.trace ++ evs ∧ Throughout (RangesIn p t.effW.toNat t.effH.toNat) p evs := by
  have heffW : s.effW = (effDims s.cfg s.rot).1 := congrArg Prod.fst hdims
  have heffH : s.effH = (effDims s.cfg s.rot).2 := congrArg Prod.snd hdims
  have hrange := effDims_range hlegal
  have hw : 1 ≤ s.effW.toNat := heffW ▸ (hrange s.rot).1.1
  have hh : 1 ≤ s.effH.toNat := heffH ▸ (hrange s.rot).2.1
  have hself := fun w h => rangesIn_self p w h
  cases exec_effect h
  case setrotArmed r _ =>
    refine ⟨_, List.append_assoc _ _ _, ?_⟩
    exact (throughout_otherCommand (hself _ _) (by decide) (by decide) _).append fun hlast =>
      throughout_arm (hrange r).1.1 (hrange r).2.1 hlast _ _ _ _
  case setrotSame => exact ⟨_, rfl, throughout_otherCommand (hself _ _) (by decide) (by decide) _⟩
  case armwin => exact ⟨_, rfl, throughout_arm hw hh (hself _ _) _ _ _ _⟩
  case wrsync | wrasyncSync | fillSync =>
    exact ⟨_, rfl, throughout_dataEvents (throughout_otherData (hself _ _) hcol hrow _)⟩
  case pixel | fillrectSync | blitSync =>
    exact ⟨_, List.append_assoc _ _ _, throughout_arm_data hw hh (hself _ _) _ _ _ _ _⟩
  case fillrectSetup | blitSetup => exact ⟨_, rfl, throughout_arm hw hh (hself _ _) _ _ _ _⟩
  case sendcmd cb _ _ bs hcb =>
    have hother := mt mapperOwned_iff.mpr (ne_true_of_eq_false hcb)
    refine ⟨_, List.append_assoc _ _ _, throughout_otherCommand (hself _ _) ?_ ?_ bs⟩ <;> rintro rfl <;> simp at hother
  case backlight => exact ⟨_, rfl, hself _ _, hself _ _⟩
  case panelrst => exact ⟨_, rfl, hself _ _, (hself _ _).of_ranges (observeResetPin_ranges _ p)⟩
  case controller => cases hi.symm.trans ‹_›
  all_goals exact ⟨[], (List.append_nil _).symm, hself _ _⟩

/-- Settles O13: what the request has sent so far is the beginning of what it sends. -/
theorem sentRangesStayInThePanel : Obligations.SentRangesStayInThePanel := by
  intro i s t evs rest p hi hlegal hdims h htrace hcol hrow
  obtain ⟨sent, hsent, hthroughout⟩ := exec_throughout hi hlegal hdims h hcol hrow
  rw [htrace, List.append_assoc] at hsent
  rw [← List.append_cancel_left hsent] at hthroughout
  exact hthroughout.of_append

end Sys2Proof.Machine
end
